-- ==== Sys2Proof/Word.lean ====
section
/-! DEFINITION. Word: the bit-vector types the spec's fields have (00_scope.md R12, R16, R17). -/

namespace Sys2Proof

/-- One byte, the only granularity of the block (R72). -/
abbrev Byte := BitVec 8

/-- A byte string; element 0 is the first byte on the wire (R12, R70). -/
abbrev Bytes := List Byte

/-- An 8-bit sequence number; its arithmetic is modulo 256 (R16, R300). -/
abbrev Seq := BitVec 8

/-- A 64-bit value as RDREG returns it (R40). -/
abbrev Reg64 := BitVec 64

end Sys2Proof
end

