-- ==== Sys2Proof/Config.lean ====
section
/-! DEFINITION. Config: what is fixed per variant and never configured (00_scope.md R9), and the constant identity
value (10_state.md R40). The configurable parameters of R10 are registers that RESET writes, so they are State, not
Config. The spec leaves no value of this machine open (R49, R450), so there is no free value here. -/

namespace Sys2Proof

/-- The two encapsulation families (R2): RLE (variants Rle and RleArq) and GSE (variants Gse and GseArq). -/
inductive Family where
  | rle
  | gse
  deriving DecidableEq, Repr

/-- `RLE_MAXFRAG`: bytes per RLE fragment, its header included (R9, conflict C3). -/
def rleMaxFrag : Nat := 2048

/-- `MAXPKT` (R9, R11): the largest upper-layer packet, 4095 bytes for RLE (conflict C2) and 65535 for GSE. -/
def Family.maxPkt : Family → Nat
  | .rle => 4095
  | .gse => 65535

/-- `FID_MOD` (R9): the modulus of fragment ids. -/
def Family.fidMod : Family → Nat
  | .rle => 8
  | .gse => 256

/-- `FPH_MAXN` (R9): the most fragments one frame carries. -/
def fphMaxN : Nat := 255

/-- The constant of the ID register, ASCII "SNS3ENC1" (R40). -/
def idValue : Reg64 := 0x534E5333454E4331#64

end Sys2Proof
end

