-- ==== Sys2Proof/Syntax.lean ====
section
/-! DEFINITION. Syntax: the instructions, one constructor per row of spec/opcode_table.json. The first nine rows are the
commands of 30_encoding.md R91, the next nine the reserved opcodes of R91, the last eleven the wire formats of R101. -/

namespace Sys2Proof

/-- The 22-byte configuration block of RESET (R97), fields 1 to 11 in the block's order. The configuration registers
CFG_* (R21) hold the same eleven fields. -/
structure CfgBlock where
  variant : BitVec 8
  flowId : BitVec 8
  windowMode : BitVec 8
  stalePolicy : BitVec 8
  arqWindow : BitVec 8
  maxRtx : BitVec 8
  tRtx : BitVec 32
  tRxwait : BitVec 32
  txbufMax : BitVec 32
  gseMaxfrag : BitVec 16
  gsePt : BitVec 16
  deriving DecidableEq, Repr

/-- The kind of a fragment (R102, R139), and the status tag of a buffered packet (R172). -/
inductive Kind where
  | full
  | start
  | cont
  | end_
  deriving DecidableEq, Repr

/-- The instructions. A command carries its operands, a reserved opcode the whole byte string given to the port, a wire
unit every field of its header and the bytes the header counts. A length field is the length of the byte string it counts
and is not repeated. -/
inductive Instr where
  /-- ENQ (R92): destination address, packet. -/
  | enq (dest : BitVec 32) (data : Bytes)
  /-- TXOPP in the plain variants (R93, R230): byte budget. -/
  | txopp (budget : BitVec 32)
  /-- TXOPP in the ARQ variants (R93, R309): byte budget. -/
  | txoppArq (budget : BitVec 32)
  /-- RXFRM in the plain variants (R94, R275): the received frame. -/
  | rxfrm (frame : Bytes)
  /-- RXFRM in the ARQ variants (R94, R340): the received ARQ PDU. -/
  | rxfrmArq (pdu : Bytes)
  /-- RXACK (R95, R330): sequence number and flow id. -/
  | rxack (seq : Seq) (flow : BitVec 8)
  /-- TICK (R96, R375): ticks to advance. -/
  | tick (n : BitVec 32)
  /-- RDREG (R98, R380): register index. -/
  | rdreg (idx : BitVec 8)
  /-- RESET (R97, R370): configuration block. -/
  | reset (cfg : CfgBlock)
  /-- Reserved opcode 0x00, and the empty command, which is taken as 0x00 (R99). -/
  | reserved00 (c : Bytes)
  /-- Reserved opcode 0x07 (R91). -/
  | reserved07 (c : Bytes)
  /-- Reserved opcodes 0x08 to 0x0B (R91). -/
  | reserved08 (c : Bytes)
  /-- Reserved opcodes 0x0C and 0x0D (R91). -/
  | reserved0C (c : Bytes)
  /-- Reserved opcode 0x0E (R91). -/
  | reserved0E (c : Bytes)
  /-- Reserved opcodes 0x10 to 0x1F (R91). -/
  | reserved10 (c : Bytes)
  /-- Reserved opcodes 0x20 to 0x3F (R91). -/
  | reserved20 (c : Bytes)
  /-- Reserved opcodes 0x40 to 0x7F (R91). -/
  | reserved40 (c : Bytes)
  /-- Reserved opcodes 0x80 to 0xFF (R91). -/
  | reserved80 (c : Bytes)
  /-- RLE FULL fragment (R141): reserved bits 2:0, payload. -/
  | rleFull (rsv : BitVec 3) (payload : Bytes)
  /-- RLE START fragment (R142): fragment id, total length, reserved bits 3:0, payload. -/
  | rleStart (fid : BitVec 3) (total : BitVec 12) (rsv : BitVec 4) (payload : Bytes)
  /-- RLE CONTINUATION fragment (R141). -/
  | rleCont (fid : BitVec 3) (payload : Bytes)
  /-- RLE END fragment (R141). -/
  | rleEnd (fid : BitVec 3) (payload : Bytes)
  /-- GSE FULL fragment (R151, R152): label type, protocol type, label, payload, CRC. -/
  | gseFull (lt : BitVec 2) (pt : BitVec 16) (label : BitVec 24) (payload : Bytes) (crc : BitVec 32)
  /-- GSE START fragment (R151, R152): label type, fragment id, total length, protocol type, label, payload. -/
  | gseStart (lt : BitVec 2) (fid : BitVec 8) (total : BitVec 16) (pt : BitVec 16) (label : BitVec 24) (payload : Bytes)
  /-- GSE CONTINUATION fragment (R151, R152). -/
  | gseCont (lt : BitVec 2) (fid : BitVec 8) (payload : Bytes)
  /-- GSE END fragment (R151, R152). -/
  | gseEnd (lt : BitVec 2) (fid : BitVec 8) (payload : Bytes) (crc : BitVec 32)
  /-- Frame pack header with the fragments it counts (R110). -/
  | fph (frags : List Bytes)
  /-- ARQ sequence header with the frame that follows it (R111, R170). -/
  | arqSeq (seq : Seq) (frame : Bytes)
  /-- ACK control message (R175). -/
  | ackMsg (seq : Seq) (flow : BitVec 8)
  deriving DecidableEq, Repr

/-- A validated fragment record (40_codec.md, R261): the fragment id is absent exactly for FULL and the total length
present exactly for START. An RLE fragment id or total is zero-extended (R115). -/
inductive FragRec where
  | full (payload : Bytes)
  | start (fid : BitVec 8) (total : BitVec 16) (payload : Bytes)
  | cont (fid : BitVec 8) (payload : Bytes)
  | end_ (fid : BitVec 8) (payload : Bytes)
  deriving DecidableEq, Repr

/-- What a byte string of the link can be read as (R101): a fragment of either family, a frame, an ARQ PDU or an ACK
control message. The reader always knows which one it expects. -/
inductive WireUnit where
  | rleFragment
  | gseFragment
  | frame
  | pdu
  | ack
  deriving DecidableEq, Repr

/-- Why a byte string is no instruction: the decoder's rejections by name. -/
inductive DecodeError where
  /-- A command whose opcode is defined and whose length is not the one R91 gives (R99). -/
  | wrongLength
  /-- A fragment shorter than its header and trailer (R144, R154). -/
  | shortFragment
  /-- A fragment whose LEN is 0 or differs from its payload (R144, R154). -/
  | badFragmentLength
  /-- An empty frame (R166). -/
  | emptyFrame
  /-- A frame whose fragment count is 0 (R166). -/
  | zeroCount
  /-- A frame shorter than its frame pack header (R166). -/
  | shortFph
  /-- A frame with an FPH entry of 0 (R166). -/
  | zeroEntry
  /-- A frame whose length is not the sum its FPH gives (R166). -/
  | badFrameLength
  /-- An ARQ PDU without its sequence byte (R170). -/
  | emptyPdu
  /-- An ACK control message that is not two bytes (R175). -/
  | badAckLength
  deriving DecidableEq, Repr

/-- The wire unit an instruction is, none for a command. -/
def Instr.wireUnit : Instr → Option WireUnit
  | .enq _ _ => none
  | .txopp _ => none
  | .txoppArq _ => none
  | .rxfrm _ => none
  | .rxfrmArq _ => none
  | .rxack _ _ => none
  | .tick _ => none
  | .rdreg _ => none
  | .reset _ => none
  | .reserved00 _ => none
  | .reserved07 _ => none
  | .reserved08 _ => none
  | .reserved0C _ => none
  | .reserved0E _ => none
  | .reserved10 _ => none
  | .reserved20 _ => none
  | .reserved40 _ => none
  | .reserved80 _ => none
  | .rleFull _ _ => some .rleFragment
  | .rleStart _ _ _ _ => some .rleFragment
  | .rleCont _ _ => some .rleFragment
  | .rleEnd _ _ => some .rleFragment
  | .gseFull _ _ _ _ _ => some .gseFragment
  | .gseStart _ _ _ _ _ _ => some .gseFragment
  | .gseCont _ _ _ => some .gseFragment
  | .gseEnd _ _ _ _ => some .gseFragment
  | .fph _ => some .frame
  | .arqSeq _ _ => some .pdu
  | .ackMsg _ _ => some .ack

/-- Whether the row is the one the ARQ variants execute for its opcode (rows TXOPP_ARQ and RXFRM_ARQ), the one the plain
variants execute (TXOPP and RXFRM), or common to all (none). -/
def Instr.arqRow : Instr → Option Bool
  | .txopp _ => some false
  | .rxfrm _ => some false
  | .txoppArq _ => some true
  | .rxfrmArq _ => some true
  | .enq _ _ => none
  | .rxack _ _ => none
  | .tick _ => none
  | .rdreg _ => none
  | .reset _ => none
  | .reserved00 _ => none
  | .reserved07 _ => none
  | .reserved08 _ => none
  | .reserved0C _ => none
  | .reserved0E _ => none
  | .reserved10 _ => none
  | .reserved20 _ => none
  | .reserved40 _ => none
  | .reserved80 _ => none
  | .rleFull _ _ => none
  | .rleStart _ _ _ _ => none
  | .rleCont _ _ => none
  | .rleEnd _ _ => none
  | .gseFull _ _ _ _ _ => none
  | .gseStart _ _ _ _ _ _ => none
  | .gseCont _ _ _ => none
  | .gseEnd _ _ _ _ => none
  | .fph _ => none
  | .arqSeq _ _ => none
  | .ackMsg _ _ => none

end Sys2Proof
end

