-- ==== Sys2Proof/WellFormed.lean ====
section
/-! DEFINITION. WellFormed: which instructions their encoding can express. A byte string counted by a length field must
fit that field (R92, R94, R141, R151), a fragment carries at least one payload byte (R144, R154), a frame counts 1 to 255
non-empty fragments (R110), and a reserved row carries a command whose opcode is one of the row's (R91). -/

namespace Sys2Proof

/-- The opcode of a command: byte 0, and 0x00 for the empty command (R90, R99). -/
def opcodeOf (c : Bytes) : Byte := c.headD 0

/-- Mask and match of one row of the reserved-opcode part of the opcode table. -/
structure OpcodeRow where
  mask : Byte
  pattern : Byte
  deriving DecidableEq, Repr

/-- Whether an opcode is one of a row's. -/
def OpcodeRow.covers (r : OpcodeRow) (op : Byte) : Bool := op &&& r.mask == r.pattern

/-- The payload of a fragment fits a LEN field of `2 ^ w` values and is not empty. -/
def payloadFits (w : Nat) (p : Bytes) : Bool := decide (1 ≤ p.length) && decide (p.length < 2 ^ w)

/-- A list of fragments one frame can carry (R110). -/
def fragsFit (fs : List Bytes) : Bool :=
  decide (1 ≤ fs.length) && decide (fs.length ≤ fphMaxN) && fs.all (fun f => decide (1 ≤ f.length) && decide (f.length < 2 ^ 32))

/-- The instructions the encodings of 30_encoding.md and 40_codec.md can express. -/
def Instr.wf : Instr → Bool
  | .enq _ data => decide (data.length < 2 ^ 16)
  | .txopp _ => true
  | .txoppArq _ => true
  | .rxfrm frame => decide (frame.length < 2 ^ 32)
  | .rxfrmArq pdu => decide (pdu.length < 2 ^ 32)
  | .rxack _ _ => true
  | .tick _ => true
  | .rdreg _ => true
  | .reset _ => true
  | .reserved00 c => (OpcodeRow.mk 0xFF 0x00).covers (opcodeOf c)
  | .reserved07 c => (OpcodeRow.mk 0xFF 0x07).covers (opcodeOf c)
  | .reserved08 c => (OpcodeRow.mk 0xFC 0x08).covers (opcodeOf c)
  | .reserved0C c => (OpcodeRow.mk 0xFE 0x0C).covers (opcodeOf c)
  | .reserved0E c => (OpcodeRow.mk 0xFF 0x0E).covers (opcodeOf c)
  | .reserved10 c => (OpcodeRow.mk 0xF0 0x10).covers (opcodeOf c)
  | .reserved20 c => (OpcodeRow.mk 0xE0 0x20).covers (opcodeOf c)
  | .reserved40 c => (OpcodeRow.mk 0xC0 0x40).covers (opcodeOf c)
  | .reserved80 c => (OpcodeRow.mk 0x80 0x80).covers (opcodeOf c)
  | .rleFull _ p => payloadFits 11 p
  | .rleStart _ _ _ p => payloadFits 11 p
  | .rleCont _ p => payloadFits 11 p
  | .rleEnd _ p => payloadFits 11 p
  | .gseFull _ _ _ p _ => payloadFits 12 p
  | .gseStart _ _ _ _ _ p => payloadFits 12 p
  | .gseCont _ _ p => payloadFits 12 p
  | .gseEnd _ _ p _ => payloadFits 12 p
  | .fph fs => fragsFit fs
  | .arqSeq _ _ => true
  | .ackMsg _ _ => true

end Sys2Proof
end

