-- ==== Sys2Proof/Decode.lean ====
section
/-! DEFINITION. Decode: the command decoder (R90 to R99), the wire decoders (40_codec.md), and after them the encoder of
every instruction. All byte orders are decided by `be2`, `be3`, `be4` and by `++` of bytes read most significant first
(R70). -/

namespace Sys2Proof

/-! ## Byte order -/

/-- `BE_2` (R12). -/
def be2 (v : BitVec 16) : Bytes := [v.extractLsb' 8 8, v.extractLsb' 0 8]

/-- `BE_3` (R12). -/
def be3 (v : BitVec 24) : Bytes := [v.extractLsb' 16 8, v.extractLsb' 8 8, v.extractLsb' 0 8]

/-- `BE_4` (R12). -/
def be4 (v : BitVec 32) : Bytes :=
  [v.extractLsb' 24 8, v.extractLsb' 16 8, v.extractLsb' 8 8, v.extractLsb' 0 8]

/-! ## Reserved opcodes -/

/-- The instruction of a reserved opcode (R91); none for a defined opcode. The rows are the opcode table's. -/
def decodeReserved (c : Bytes) : Option Instr :=
  let op := opcodeOf c
  if (OpcodeRow.mk 0xFF 0x00).covers op then some (.reserved00 c)
  else if (OpcodeRow.mk 0xFF 0x07).covers op then some (.reserved07 c)
  else if (OpcodeRow.mk 0xFC 0x08).covers op then some (.reserved08 c)
  else if (OpcodeRow.mk 0xFE 0x0C).covers op then some (.reserved0C c)
  else if (OpcodeRow.mk 0xFF 0x0E).covers op then some (.reserved0E c)
  else if (OpcodeRow.mk 0xF0 0x10).covers op then some (.reserved10 c)
  else if (OpcodeRow.mk 0xE0 0x20).covers op then some (.reserved20 c)
  else if (OpcodeRow.mk 0xC0 0x40).covers op then some (.reserved40 c)
  else if (OpcodeRow.mk 0x80 0x80).covers op then some (.reserved80 c)
  else none

/-! ## Commands -/

/-- ENQ operands (R92). -/
def decodeEnq : Bytes → Except DecodeError Instr
  | d0 :: d1 :: d2 :: d3 :: l0 :: l1 :: data =>
    if data.length = (l0 ++ l1 : BitVec 16).toNat then .ok (.enq (d0 ++ d1 ++ d2 ++ d3) data)
    else .error .wrongLength
  | _ => .error .wrongLength

/-- TXOPP operands (R93); the variant chooses the row (opcode table, TXOPP and TXOPP_ARQ). -/
def decodeTxopp (arq : Bool) : Bytes → Except DecodeError Instr
  | [b0, b1, b2, b3] => .ok (if arq then .txoppArq (b0 ++ b1 ++ b2 ++ b3) else .txopp (b0 ++ b1 ++ b2 ++ b3))
  | _ => .error .wrongLength

/-- RXFRM operands (R94); the variant chooses the row (opcode table, RXFRM and RXFRM_ARQ). -/
def decodeRxfrm (arq : Bool) : Bytes → Except DecodeError Instr
  | l0 :: l1 :: l2 :: l3 :: frame =>
    if frame.length = (l0 ++ l1 ++ l2 ++ l3 : BitVec 32).toNat then
      .ok (if arq then .rxfrmArq frame else .rxfrm frame)
    else .error .wrongLength
  | _ => .error .wrongLength

/-- RXACK operands (R95). -/
def decodeRxack : Bytes → Except DecodeError Instr
  | [s, f] => .ok (.rxack s f)
  | _ => .error .wrongLength

/-- TICK operands (R96). -/
def decodeTick : Bytes → Except DecodeError Instr
  | [n0, n1, n2, n3] => .ok (.tick (n0 ++ n1 ++ n2 ++ n3))
  | _ => .error .wrongLength

/-- RDREG operands (R98). -/
def decodeRdreg : Bytes → Except DecodeError Instr
  | [i] => .ok (.rdreg i)
  | _ => .error .wrongLength

/-- RESET operands: the configuration block of R97. -/
def decodeReset : Bytes → Except DecodeError Instr
  | [v, f, m, p, w, r, t0, t1, t2, t3, u0, u1, u2, u3, b0, b1, b2, b3, g0, g1, q0, q1] =>
    .ok (.reset
      { variant := v, flowId := f, windowMode := m, stalePolicy := p, arqWindow := w, maxRtx := r,
        tRtx := t0 ++ t1 ++ t2 ++ t3, tRxwait := u0 ++ u1 ++ u2 ++ u3, txbufMax := b0 ++ b1 ++ b2 ++ b3,
        gseMaxfrag := g0 ++ g1, gsePt := q0 ++ q1 })
  | _ => .error .wrongLength

/-- The command decoder (R91, R99), total on any byte string. `arq` says whether the instance is an ARQ variant. -/
def decode (arq : Bool) (c : Bytes) : Except DecodeError Instr :=
  match decodeReserved c with
  | some i => .ok i
  | none =>
    let op := opcodeOf c
    let args := c.tail
    if op = 0x01 then decodeEnq args
    else if op = 0x02 then decodeTxopp arq args
    else if op = 0x03 then decodeRxfrm arq args
    else if op = 0x04 then decodeRxack args
    else if op = 0x05 then decodeTick args
    else if op = 0x06 then decodeRdreg args
    else decodeReset args

/-! ## Wire units -/

/-- The kind of a fragment from its start indicator `byte0[7]` and end indicator `byte0[6]` (R102, R139). -/
def kindOf (b0 : Byte) : Kind :=
  match b0.getLsbD 7, b0.getLsbD 6 with
  | true, true => .full
  | true, false => .start
  | false, false => .cont
  | false, true => .end_

/-- The kind of a fragment record (R261). -/
def FragRec.kind : FragRec → Kind
  | .full _ => .full
  | .start _ _ _ => .start
  | .cont _ _ => .cont
  | .end_ _ _ => .end_

/-- The payload of a fragment record (R261). -/
def FragRec.payload : FragRec → Bytes
  | .full p => p
  | .start _ _ p => p
  | .cont _ p => p
  | .end_ _ p => p

/-- RLE Deserialize (R144) of one whole fragment, every header field kept. -/
def decodeRle : Bytes → Except DecodeError Instr
  | h0 :: h1 :: rest =>
    let h : BitVec 16 := h0 ++ h1
    match h.getLsbD 15, h.getLsbD 14, rest with
    | true, false, h2 :: h3 :: p =>
      let hs : BitVec 32 := h0 ++ h1 ++ h2 ++ h3
      let len := (hs.extractLsb' 19 11).toNat
      if len = 0 ∨ len ≠ p.length then .error .badFragmentLength
      else .ok (.rleStart (hs.extractLsb' 16 3) (hs.extractLsb' 4 12) (hs.extractLsb' 0 4) p)
    | true, false, _ => .error .shortFragment
    | s, e, p =>
      let len := (h.extractLsb' 3 11).toNat
      if len = 0 ∨ len ≠ p.length then .error .badFragmentLength
      else .ok (match s, e with
        | true, _ => .rleFull (h.extractLsb' 0 3) p
        | false, false => .rleCont (h.extractLsb' 0 3) p
        | false, true => .rleEnd (h.extractLsb' 0 3) p)
  | _ => .error .shortFragment

/-- GSE Deserialize (R154) of one whole fragment, every header and trailer field kept. -/
def decodeGse : Bytes → Except DecodeError Instr
  | h0 :: h1 :: rest =>
    let w : BitVec 16 := h0 ++ h1
    let lt : BitVec 2 := w.extractLsb' 12 2
    let len := (w.extractLsb' 0 12).toNat
    match w.getLsbD 15, w.getLsbD 14 with
    | true, true =>
      match rest with
      | p0 :: p1 :: a0 :: a1 :: a2 :: body =>
        if body.length < 4 then .error .shortFragment
        else match body.drop len with
          | [c0, c1, c2, c3] =>
            if len = 0 then .error .badFragmentLength
            else .ok (.gseFull lt (p0 ++ p1) (a0 ++ a1 ++ a2) (body.take len) (c0 ++ c1 ++ c2 ++ c3))
          | _ => .error .badFragmentLength
      | _ => .error .shortFragment
    | true, false =>
      match rest with
      | f :: t0 :: t1 :: p0 :: p1 :: a0 :: a1 :: a2 :: p =>
        if len = 0 ∨ len ≠ p.length then .error .badFragmentLength
        else .ok (.gseStart lt f (t0 ++ t1) (p0 ++ p1) (a0 ++ a1 ++ a2) p)
      | _ => .error .shortFragment
    | false, false =>
      match rest with
      | f :: p =>
        if len = 0 ∨ len ≠ p.length then .error .badFragmentLength
        else .ok (.gseCont lt f p)
      | _ => .error .shortFragment
    | false, true =>
      match rest with
      | f :: body =>
        if body.length < 4 then .error .shortFragment
        else match body.drop len with
          | [c0, c1, c2, c3] =>
            if len = 0 then .error .badFragmentLength
            else .ok (.gseEnd lt f (body.take len) (c0 ++ c1 ++ c2 ++ c3))
          | _ => .error .badFragmentLength
      | _ => .error .shortFragment
  | _ => .error .shortFragment

/-- The `n` length entries of a frame pack header and the bytes after them (R166); none when the FPH is truncated. -/
def readLengths : Nat → Bytes → Option (List Nat × Bytes)
  | 0, b => some ([], b)
  | n + 1, b =>
    match b with
    | l0 :: l1 :: l2 :: l3 :: rest =>
      match readLengths n rest with
      | some (ls, body) => some ((l0 ++ l1 ++ l2 ++ l3 : BitVec 32).toNat :: ls, body)
      | none => none
    | _ => none

/-- The consecutive pieces of a byte string with the given lengths. -/
def splitLengths : List Nat → Bytes → List Bytes
  | [], _ => []
  | l :: ls, b => b.take l :: splitLengths ls (b.drop l)

/-- FPH Deserialize (R166). -/
def decodeFrame : Bytes → Except DecodeError Instr
  | [] => .error .emptyFrame
  | n :: rest =>
    if n = 0 then .error .zeroCount
    else match readLengths n.toNat rest with
      | none => .error .shortFph
      | some (ls, body) =>
        if ls.any (· == 0) then .error .zeroEntry
        else if ls.sum ≠ body.length then .error .badFrameLength
        else .ok (.fph (splitLengths ls body))

/-- ARQ PDU (R111, R170): the sequence byte, then a frame. -/
def decodePdu : Bytes → Except DecodeError Instr
  | [] => .error .emptyPdu
  | q :: frame => .ok (.arqSeq q frame)

/-- ACK control message (R175). -/
def decodeAck : Bytes → Except DecodeError Instr
  | [s, f] => .ok (.ackMsg s f)
  | _ => .error .badAckLength

/-- The wire decoder: a byte string read as the unit the reader expects. -/
def decodeUnit : WireUnit → Bytes → Except DecodeError Instr
  | .rleFragment, b => decodeRle b
  | .gseFragment, b => decodeGse b
  | .frame, b => decodeFrame b
  | .pdu, b => decodePdu b
  | .ack, b => decodeAck b

/-! ## Encoder -/

/-- The configuration block's bytes (R97). -/
def encodeCfg (c : CfgBlock) : Bytes :=
  [c.variant, c.flowId, c.windowMode, c.stalePolicy, c.arqWindow, c.maxRtx] ++ be4 c.tRtx ++ be4 c.tRxwait ++
    be4 c.txbufMax ++ be2 c.gseMaxfrag ++ be2 c.gsePt

/-- FPH Serialize (R165). -/
def encodeFph (fs : List Bytes) : Bytes :=
  BitVec.ofNat 8 fs.length :: fs.flatMap (fun f => be4 (BitVec.ofNat 32 f.length))

/-- The bytes of an instruction: a command as R92 to R98 lay it out, a wire unit as R141, R142, R151, R152, R110, R111 and
R175 do. A reserved row is the byte string it carries. -/
def encode : Instr → Bytes
  | .enq dest data => 0x01 :: be4 dest ++ be2 (BitVec.ofNat 16 data.length) ++ data
  | .txopp budget => 0x02 :: be4 budget
  | .txoppArq budget => 0x02 :: be4 budget
  | .rxfrm frame => 0x03 :: be4 (BitVec.ofNat 32 frame.length) ++ frame
  | .rxfrmArq pdu => 0x03 :: be4 (BitVec.ofNat 32 pdu.length) ++ pdu
  | .rxack seq flow => [0x04, seq, flow]
  | .tick n => 0x05 :: be4 n
  | .rdreg idx => [0x06, idx]
  | .reset cfg => 0x0F :: encodeCfg cfg
  | .reserved00 c => c
  | .reserved07 c => c
  | .reserved08 c => c
  | .reserved0C c => c
  | .reserved0E c => c
  | .reserved10 c => c
  | .reserved20 c => c
  | .reserved40 c => c
  | .reserved80 c => c
  | .rleFull rsv p => be2 (1#1 ++ 1#1 ++ BitVec.ofNat 11 p.length ++ rsv) ++ p
  | .rleStart fid total rsv p => be4 (1#1 ++ 0#1 ++ BitVec.ofNat 11 p.length ++ fid ++ total ++ rsv) ++ p
  | .rleCont fid p => be2 (0#1 ++ 0#1 ++ BitVec.ofNat 11 p.length ++ fid) ++ p
  | .rleEnd fid p => be2 (0#1 ++ 1#1 ++ BitVec.ofNat 11 p.length ++ fid) ++ p
  | .gseFull lt pt label p crc =>
    be2 (1#1 ++ 1#1 ++ lt ++ BitVec.ofNat 12 p.length) ++ be2 pt ++ be3 label ++ p ++ be4 crc
  | .gseStart lt fid total pt label p =>
    be2 (1#1 ++ 0#1 ++ lt ++ BitVec.ofNat 12 p.length) ++ [fid] ++ be2 total ++ be2 pt ++ be3 label ++ p
  | .gseCont lt fid p => be2 (0#1 ++ 0#1 ++ lt ++ BitVec.ofNat 12 p.length) ++ [fid] ++ p
  | .gseEnd lt fid p crc => be2 (0#1 ++ 1#1 ++ lt ++ BitVec.ofNat 12 p.length) ++ [fid] ++ p ++ be4 crc
  | .fph fs => encodeFph fs ++ fs.flatten
  | .arqSeq seq frame => seq :: frame
  | .ackMsg seq flow => [seq, flow]

/-! ## The opcode table's words -/

/-- The length R91 gives a command, read from its first bytes (bytes past the end read as 0); for a reserved opcode, which
may have any length, the length at hand. -/
def commandLength (c : Bytes) : Nat :=
  let at' := fun i => c.getD i 0
  let op := opcodeOf c
  if op = 0x01 then 7 + (at' 5 ++ at' 6 : BitVec 16).toNat
  else if op = 0x02 then 5
  else if op = 0x03 then 5 + (at' 1 ++ at' 2 ++ at' 3 ++ at' 4 : BitVec 32).toNat
  else if op = 0x04 then 3
  else if op = 0x05 then 5
  else if op = 0x06 then 2
  else if op = 0x0F then 23
  else c.length

/-- The first `n` bytes of a number, least significant first: the byte numbering of spec/opcode_table.json. -/
def tableBytes : Nat → Nat → Bytes
  | 0, _ => []
  | n + 1, w => BitVec.ofNat 8 w :: tableBytes n (w / 256)

/-- The command whose bits are `w`, numbered as spec/opcode_table.json numbers them, with every bit above `nbits` 0 up to
the command's length. -/
def tableCommand (nbits w : Nat) : Bytes :=
  let c := tableBytes (nbits / 8) w
  c ++ List.replicate (commandLength c - c.length) 0

/-- The instruction the command decoder of a plain variant (the variant at power-on) reads from the word. -/
def decodeTableWord (nbits w : Nat) : Option Instr :=
  match decode false (tableCommand nbits w) with
  | .ok i => some i
  | .error _ => none

end Sys2Proof
end

