-- ==== Sys2Proof/Machine/State.lean ====
section
/-! DEFINITION. State: everything 10_state.md gives one instance, as plain data, with the command port (R90) and the
records its output ports have emitted (R100). Widths and reset values are those of R21 to R36, R45 and R49. -/

namespace Sys2Proof.Machine

/-- The cause codes of R400 that are ever produced. -/
inductive Cause where
  | ok
  | notConfigured
  | cfgInvalid
  | pktTooLarge
  | pktEmpty
  | illegalCmd
  | staleSeq
  | inFatal
  deriving DecidableEq, Repr

/-- One record of an output port (R100). FatalOut is a level and no record (R82). -/
inductive OutRec where
  /-- Resp: the cause code and the value, every command's last record. -/
  | resp (code : Cause) (value : Reg64)
  /-- FrameOut: the result of a TXOPP. -/
  | frameOut (present : Bool) (frame : Bytes) (bytesLeft : Reg64)
  /-- PktOut: one reassembled packet. -/
  | pktOut (packet : Bytes)
  /-- AckOut: one ACK control message for the peer. -/
  | ackOut (seq : Seq) (flow : BitVec 8)
  deriving DecidableEq, Repr

/-- An entry of TXQ (R27). START is a tag no stored entry has (R193). -/
structure TxEntry where
  data : Bytes
  tag : Kind
  arrival : BitVec 64
  dest : BitVec 32
  fid : BitVec 8
  total : BitVec 16
  deriving DecidableEq, Repr

/-- An ARQ context (R32): an entry of TXD or of RTXQ. -/
structure ArqCtx where
  seq : Seq
  pdu : Bytes
  count : BitVec 8
  deriving DecidableEq, Repr

/-- An entry of ROB (R35). -/
structure RobEntry where
  seq : Seq
  received : Bool
  frags : List FragRec
  deriving DecidableEq, Repr

/-- The two kinds of timer (R36). -/
inductive TimerKind where
  | rtx
  | rxw
  deriving DecidableEq, Repr

/-- An active timer (R36). The deadline is `NOW + T` computed without wrap (R17), so it is a natural number. -/
structure Timer where
  kind : TimerKind
  seq : Seq
  deadline : Nat
  stamp : Nat
  deriving DecidableEq, Repr

/-- The sixteen event counters (R45), in the order of their register indices 0x20 to 0x2F. -/
structure Counters where
  enqAccepted : Reg64
  txbufDrop : Reg64
  framesSent : Reg64
  nullOpp : Reg64
  framesRcvd : Reg64
  rxMalformed : Reg64
  pktDelivered : Reg64
  reasmDefect : Reg64
  rtxSent : Reg64
  arqGiveup : Reg64
  ackSent : Reg64
  ackAccepted : Reg64
  ackIgnored : Reg64
  rxDup : Reg64
  rxwaitExpired : Reg64
  rtxTimeout : Reg64
  deriving DecidableEq, Repr

/-- The names of the counters (R45). -/
inductive Counter where
  | enqAccepted
  | txbufDrop
  | framesSent
  | nullOpp
  | framesRcvd
  | rxMalformed
  | pktDelivered
  | reasmDefect
  | rtxSent
  | arqGiveup
  | ackSent
  | ackAccepted
  | ackIgnored
  | rxDup
  | rxwaitExpired
  | rtxTimeout
  deriving DecidableEq, Repr

/-- The state of one instance. TXD and ROB are maps (R32, R35): lists with their sequence numbers strictly rising. TMR is a
set (R36): a list in the order of arming, so with its stamps strictly rising. -/
structure State where
  /-- Commands presented on the command port and not yet taken, oldest first (R90). -/
  port : List Bytes
  /-- CFG_* (R21). -/
  cfg : CfgBlock
  /-- STATUS (R22). -/
  status : Reg64
  /-- ERR_INFO (R23). -/
  errInfo : Reg64
  /-- NOW (R25). -/
  now : BitVec 64
  /-- STAMP_NEXT (R26). -/
  stampNext : Nat
  /-- TXQ, front first (R27). -/
  txq : List TxEntry
  /-- FRAG_ID_NEXT (R29). -/
  fragIdNext : BitVec 8
  /-- RA_ACTIVE (R30). -/
  raActive : Bool
  /-- RA_FID (R30). -/
  raFid : BitVec 8
  /-- RA_TOTAL (R30). -/
  raTotal : BitVec 16
  /-- RA_BUF (R30). -/
  raBuf : Bytes
  /-- SEQ_NEXT (R31). -/
  seqNext : Seq
  /-- TXD (R32). -/
  txd : List ArqCtx
  /-- RTXQ, head first (R32). -/
  rtxq : List ArqCtx
  /-- NE (R34). -/
  ne : Seq
  /-- ROB (R35). -/
  rob : List RobEntry
  /-- TMR (R36). -/
  tmr : List Timer
  /-- CNT_* (R45). -/
  cnt : Counters
  /-- Every record emitted on Resp, FrameOut, PktOut and AckOut, oldest first (R82, R100). -/
  out : List OutRec
  deriving DecidableEq, Repr

/-- Why a step stops with a fault. -/
inductive Fault where
  /-- TICK would take NOW past 2^64 - 1: the spec puts such a run outside the model and says that a model may stop
  (93_implementation_defined.md I9, R17). Raised by TICK only. Safe: no state follows. -/
  | virtualTimeExhausted
  deriving DecidableEq, Repr

/-- Why a step is refused by the model. The block's own refusals IN_FATAL and NOT_CONFIGURED (R412) are next states. -/
inductive Refusal where
  /-- An instruction without a meaning in this model, by its mnemonic. Raised only by an arm of exec; none is left. Safe. -/
  | notModelled (mnemonic : String)
  deriving DecidableEq, Repr

/-- The configuration registers at power-on (R21, R49). -/
def cfgZero : CfgBlock :=
  { variant := 0, flowId := 0, windowMode := 0, stalePolicy := 0, arqWindow := 0, maxRtx := 0, tRtx := 0, tRxwait := 0,
    txbufMax := 0, gseMaxfrag := 0, gsePt := 0 }

/-- The counters at power-on (R45, R49). -/
def countersZero : Counters :=
  { enqAccepted := 0, txbufDrop := 0, framesSent := 0, nullOpp := 0, framesRcvd := 0, rxMalformed := 0, pktDelivered := 0,
    reasmDefect := 0, rtxSent := 0, arqGiveup := 0, ackSent := 0, ackAccepted := 0, ackIgnored := 0, rxDup := 0,
    rxwaitExpired := 0, rtxTimeout := 0 }

/-- Power-on (R49, R450). -/
def State.reset : State :=
  { port := [], cfg := cfgZero, status := 0, errInfo := 0, now := 0, stampNext := 0, txq := [], fragIdNext := 0,
    raActive := false, raFid := 0, raTotal := 0, raBuf := [], seqNext := 0, txd := [], rtxq := [], ne := 0, rob := [],
    tmr := [], cnt := countersZero, out := [] }

end Sys2Proof.Machine
end

