-- ==== Sys2Proof/Machine/Flags.lean ====
section
/-! DEFINITION. Flags: the condition flags of the block, which are the bits of STATUS (R22, R24), and the predicates the
configuration registers decide (R10, R11, R21). There are no arithmetic flags (R24). -/

namespace Sys2Proof.Machine

/-- The 8-bit code of a cause (R400). -/
def Cause.code : Cause → BitVec 8
  | .ok => 0x00
  | .notConfigured => 0x01
  | .cfgInvalid => 0x02
  | .pktTooLarge => 0x03
  | .pktEmpty => 0x04
  | .illegalCmd => 0x05
  | .staleSeq => 0x06
  | .inFatal => 0x07

/-- STATUS.CONFIGURED, bit 0 (R22). -/
def State.configured (s : State) : Bool := s.status.getLsbD 0

/-- STATUS.FATAL, bit 1 (R22), which is also the level of FatalOut (R416). -/
def State.fatal (s : State) : Bool := s.status.getLsbD 1

/-- STATUS.CAUSE, bits 15:8 (R22). -/
def State.cause (s : State) : BitVec 8 := s.status.extractLsb' 8 8

/-- FatalOut (R100, R416). -/
def State.fatalOut (s : State) : Bool := s.fatal

/-- STATUS after a valid RESET (R22, R370). -/
def statusConfigured : Reg64 := 0x1

/-- STATUS after fatal entry (R22, R410): CAUSE in bits 15:8, FATAL 1, CONFIGURED 0. -/
def statusFatal (c : Cause) : Reg64 := (0#48 ++ c.code ++ 0#6 ++ 1#1 ++ 0#1 : BitVec 64)

/-- Whether the rules of 41 to 44 and TICK run (R413). -/
def State.running (s : State) : Bool := s.configured && !s.fatal

/-- `ARQ` (R11): RleArq (1) and GseArq (3). -/
def cfgArq (c : CfgBlock) : Bool := c.variant == 1 || c.variant == 3

/-- The family of the variant (R2): Gse (2) and GseArq (3), else RLE. -/
def cfgFamily (c : CfgBlock) : Family := if c.variant = 2 ∨ c.variant = 3 then .gse else .rle

/-- `ARQ` of an instance. -/
def State.arq (s : State) : Bool := cfgArq s.cfg

/-- The family of an instance. -/
def State.family (s : State) : Family := cfgFamily s.cfg

/-- WINDOW_MODE is DISTANCE (R10, R301); otherwise it is COUNT. -/
def State.distanceMode (s : State) : Bool := s.cfg.windowMode == 0

/-- STALE_POLICY is FATAL (R10, R343); otherwise it is DISCARD. -/
def State.staleFatal (s : State) : Bool := s.cfg.stalePolicy == 1

/-- `Applies(i, v)` (R370): whether configuration field `i` is checked for variant `v`. -/
def cfgFieldApplies (i : Nat) (v : BitVec 8) : Bool :=
  if i = 1 ∨ i = 2 ∨ i = 9 then true
  else if i = 10 ∨ i = 11 then v == 2 || v == 3
  else v == 1 || v == 3

/-- Whether configuration field `i` is in its legal range (R10). -/
def cfgFieldInRange (i : Nat) (c : CfgBlock) : Bool :=
  match i with
  | 1 => decide (c.variant.toNat ≤ 3)
  | 3 => decide (c.windowMode.toNat ≤ 1)
  | 4 => decide (c.stalePolicy.toNat ≤ 1)
  | 5 => decide (1 ≤ c.arqWindow.toNat ∧ c.arqWindow.toNat ≤ 128)
  | 6 => decide (1 ≤ c.maxRtx.toNat)
  | 7 => decide (1 ≤ c.tRtx.toNat)
  | 8 => decide (1 ≤ c.tRxwait.toNat)
  | 9 => decide (1 ≤ c.txbufMax.toNat)
  | 10 => decide (12 ≤ c.gseMaxfrag.toNat ∧ c.gseMaxfrag.toNat ≤ 4095)
  | _ => true

/-- Whether RESET rejects the block because of field `i` (R370). -/
def cfgFieldBad (c : CfgBlock) (i : Nat) : Bool := cfgFieldApplies i c.variant && !cfgFieldInRange i c

/-- The number of the first failing field in field order, none when every check passes (R370, R402). -/
def cfgFirstBad (c : CfgBlock) : Option Nat := [1, 2, 3, 4, 5, 6, 7, 8, 9, 10, 11].find? (cfgFieldBad c)

end Sys2Proof.Machine
end

