-- ==== Sys2Proof/Machine/Operands.lean ====
section
/-! DEFINITION. Operands: the sizes and the fragment, frame and PDU forms the rules compute with (R9, R11, R140, R150, R153,
R158, R160, R165, R260), and the information words of R401. -/

namespace Sys2Proof.Machine

/-- The 2-bit code of a status tag (R172), used only where state is shown. -/
def tagCode : Kind → BitVec 2
  | .full => 0
  | .start => 1
  | .cont => 2
  | .end_ => 3

/-- `HS_RLE(kind)`, also `RleSize(kind)` (R140, R145). -/
def rleSize : Kind → Nat
  | .full => 2
  | .start => 4
  | .cont => 2
  | .end_ => 2

/-- `GL(kind)`, the GSE leading header, also `GseSize(kind)` (R150, R155). -/
def gseSize : Kind → Nat
  | .full => 7
  | .start => 10
  | .cont => 3
  | .end_ => 3

/-- `GT(kind)`, the GSE trailer (R150, R155). -/
def gseTrailer : Kind → Nat
  | .full => 4
  | .start => 0
  | .cont => 0
  | .end_ => 4

/-- `SerializedSize(kind)` (R145, R155): the leading header. -/
def serializedSize : Family → Kind → Nat
  | .rle, k => rleSize k
  | .gse, k => gseSize k

/-- The trailer of a fragment: none in RLE (R140), `GT(kind)` in GSE (R150). -/
def trailerSize : Family → Kind → Nat
  | .rle, _ => 0
  | .gse, k => gseTrailer k

/-- `HS(kind)` (R11, R160): header and trailer. -/
def overhead (f : Family) (k : Kind) : Nat := serializedSize f k + trailerSize f k

/-- The size of the ARQ sequence header (R170). -/
def seqSize : Nat := 1

/-- `MAXFRAG` (R11). -/
def cfgMaxFrag (c : CfgBlock) : Nat :=
  match cfgFamily c with
  | .rle => rleMaxFrag
  | .gse => c.gseMaxfrag.toNat

/-- `MAXPKT` (R11). -/
def cfgMaxPkt (c : CfgBlock) : Nat := (cfgFamily c).maxPkt

/-- The wire unit `Serialize(kind, fid, total, payload, dest)` writes (R143, R153, R157, R158): reserved bits 0, LT 01 on FULL
and START and 00 otherwise, PT = CFG_GSE_PT, LABEL the low 24 bits of the destination, CRC 0. -/
def wireFragment (c : CfgBlock) (k : Kind) (fid : BitVec 8) (total : BitVec 16) (dest : BitVec 32) (p : Bytes) : Instr :=
  match cfgFamily c, k with
  | .rle, .full => .rleFull 0 p
  | .rle, .start => .rleStart (fid.setWidth 3) (total.setWidth 12) 0 p
  | .rle, .cont => .rleCont (fid.setWidth 3) p
  | .rle, .end_ => .rleEnd (fid.setWidth 3) p
  | .gse, .full => .gseFull 0b01 c.gsePt (dest.extractLsb' 0 24) p 0
  | .gse, .start => .gseStart 0b01 fid total c.gsePt (dest.extractLsb' 0 24) p
  | .gse, .cont => .gseCont 0b00 fid p
  | .gse, .end_ => .gseEnd 0b00 fid p 0

/-- `Serialize` (R160) of one fragment of a buffered entry. -/
def serialize (c : CfgBlock) (k : Kind) (fid : BitVec 8) (e : TxEntry) (p : Bytes) : Bytes :=
  encode (wireFragment c k fid e.total e.dest p)

/-- The frame of a list of serialized fragments (R110, R228). -/
def frameOf (frags : List Bytes) : Bytes := encode (.fph frags)

/-- The record of a fragment instruction (R144, R154, R261): reserved bits, LT, PT, LABEL and CRC are left behind (R104). -/
def fragRecord : Instr → Option FragRec
  | .rleFull _ p => some (.full p)
  | .rleStart fid total _ p => some (.start (fid.setWidth 8) (total.setWidth 16) p)
  | .rleCont fid p => some (.cont (fid.setWidth 8) p)
  | .rleEnd fid p => some (.end_ (fid.setWidth 8) p)
  | .gseFull _ _ _ p _ => some (.full p)
  | .gseStart _ fid total _ _ p => some (.start fid total p)
  | .gseCont _ fid p => some (.cont fid p)
  | .gseEnd _ fid p _ => some (.end_ fid p)
  | .enq _ _ => none
  | .txopp _ => none
  | .txoppArq _ => none
  | .rxfrm _ => none
  | .rxfrmArq _ => none
  | .rxack _ _ => none
  | .tick _ => none
  | .rdreg _ => none
  | .reset _ => none
  | .reserved00 _ => none
  | .reserved07 _ => none
  | .reserved08 _ => none
  | .reserved0C _ => none
  | .reserved0E _ => none
  | .reserved10 _ => none
  | .reserved20 _ => none
  | .reserved40 _ => none
  | .reserved80 _ => none
  | .fph _ => none
  | .arqSeq _ _ => none
  | .ackMsg _ _ => none

/-- The wire unit a fragment of the family is. -/
def fragmentUnit : Family → WireUnit
  | .rle => .rleFragment
  | .gse => .gseFragment

/-- `Deserialize` (R144, R154, R160) of one whole fragment, none when MALFORMED: its record, and `consumed`, the leading header
of the kind that the first byte shows (R102). -/
def deserializeSized (f : Family) (b : Bytes) : Option (FragRec × Nat) :=
  match decodeUnit (fragmentUnit f) b with
  | .ok i => (fragRecord i).map (fun r => (r, serializedSize f (kindOf (b.headD 0))))
  | .error _ => none

/-- The record that `Deserialize` returns, none when MALFORMED. -/
def deserialize (f : Family) (b : Bytes) : Option FragRec := (deserializeSized f b).map Prod.fst

/-- The ARQ sequence header's Deserialize (R170): the sequence number and `consumed`, none when MALFORMED. -/
def deserializeSeq (b : Bytes) : Option (Seq × Nat) :=
  match decodeUnit .pdu b with
  | .ok (.arqSeq q _) => some (q, seqSize)
  | _ => none

/-- The records of a list of fragments, none when any of them is MALFORMED (R260). -/
def deserializeAll (f : Family) : List Bytes → Option (List FragRec)
  | [] => some []
  | b :: bs =>
    match deserialize f b with
    | none => none
    | some r =>
      match deserializeAll f bs with
      | none => none
      | some rs => some (r :: rs)

/-- `ParseFrame` (R260), none when MALFORMED. -/
def parseFrame (f : Family) (b : Bytes) : Option (List FragRec) :=
  match decodeUnit .frame b with
  | .ok (.fph frags) => deserializeAll f frags
  | _ => none

/-- The sequence number and the records of an ARQ PDU (R340), none when malformed. -/
def parsePdu (f : Family) (b : Bytes) : Option (Seq × List FragRec) :=
  match deserializeSeq b with
  | some (q, consumed) =>
    match parseFrame f (b.drop consumed) with
    | some recs => some (q, recs)
    | none => none
  | none => none

/-- The opcodes R91 defines. -/
def definedOpcode (op : Byte) : Bool :=
  op == 0x01 || op == 0x02 || op == 0x03 || op == 0x04 || op == 0x05 || op == 0x06 || op == 0x0F

/-- ERR_INFO of ILLEGAL_CMD (R401): the opcode, bit 8 for a defined opcode of the wrong length, the length capped at
2^32 - 1. -/
def illegalInfo (c : Bytes) : Reg64 :=
  (BitVec.ofNat 32 (min c.length (2 ^ 32 - 1)) ++ 0#23 ++ BitVec.ofBool (definedOpcode (opcodeOf c)) ++ opcodeOf c : BitVec 64)

/-- ERR_INFO of STALE_SEQ (R401): NE in bits 15:8, the received number in bits 7:0. -/
def staleInfo (ne q : Seq) : Reg64 := (0#48 ++ ne ++ q : BitVec 64)

/-- The distance from `a` to `b` modulo 256 (R16). -/
def seqDist (a b : Seq) : Nat := (b - a).toNat

/-- `for k in a ..< b (mod 256)` (R14). -/
def seqRange (a b : Seq) : List Seq := (List.range (seqDist a b)).map (fun i => a + BitVec.ofNat 8 i)

end Sys2Proof.Machine
end

