-- ==== Sys2Proof/Machine/Ops.lean ====
section
/-! DEFINITION. Ops: the named operations every rule is written with: output records (R82, R100), counters (R45), the keyed
maps (R13), derived quantities (R28, R33, R196), the timer engine's arm and cancel (R421, R422), power-on values (R49), and
fatal entry and the command pipeline (R410 to R414), each once. -/

namespace Sys2Proof.Machine

/-! ## Output records and counters -/

/-- `emit` (R13): one more record, after all earlier ones (R82). -/
def State.emit (r : OutRec) (s : State) : State := { s with out := s.out ++ [r] }

/-- `respond(code, value)` (R13, R100). -/
def State.respond (code : Cause) (value : Reg64) (s : State) : State := s.emit (.resp code value)

/-- The value of a counter (R45). -/
def Counters.get (c : Counters) : Counter → Reg64
  | .enqAccepted => c.enqAccepted
  | .txbufDrop => c.txbufDrop
  | .framesSent => c.framesSent
  | .nullOpp => c.nullOpp
  | .framesRcvd => c.framesRcvd
  | .rxMalformed => c.rxMalformed
  | .pktDelivered => c.pktDelivered
  | .reasmDefect => c.reasmDefect
  | .rtxSent => c.rtxSent
  | .arqGiveup => c.arqGiveup
  | .ackSent => c.ackSent
  | .ackAccepted => c.ackAccepted
  | .ackIgnored => c.ackIgnored
  | .rxDup => c.rxDup
  | .rxwaitExpired => c.rxwaitExpired
  | .rtxTimeout => c.rtxTimeout

/-- One more event, modulo 2^64 (R18). -/
def Counters.bump (k : Counter) (c : Counters) : Counters :=
  match k with
  | .enqAccepted => { c with enqAccepted := c.enqAccepted + 1 }
  | .txbufDrop => { c with txbufDrop := c.txbufDrop + 1 }
  | .framesSent => { c with framesSent := c.framesSent + 1 }
  | .nullOpp => { c with nullOpp := c.nullOpp + 1 }
  | .framesRcvd => { c with framesRcvd := c.framesRcvd + 1 }
  | .rxMalformed => { c with rxMalformed := c.rxMalformed + 1 }
  | .pktDelivered => { c with pktDelivered := c.pktDelivered + 1 }
  | .reasmDefect => { c with reasmDefect := c.reasmDefect + 1 }
  | .rtxSent => { c with rtxSent := c.rtxSent + 1 }
  | .arqGiveup => { c with arqGiveup := c.arqGiveup + 1 }
  | .ackSent => { c with ackSent := c.ackSent + 1 }
  | .ackAccepted => { c with ackAccepted := c.ackAccepted + 1 }
  | .ackIgnored => { c with ackIgnored := c.ackIgnored + 1 }
  | .rxDup => { c with rxDup := c.rxDup + 1 }
  | .rxwaitExpired => { c with rxwaitExpired := c.rxwaitExpired + 1 }
  | .rtxTimeout => { c with rtxTimeout := c.rtxTimeout + 1 }

/-- One more event of a counter of the instance. -/
def State.bump (k : Counter) (s : State) : State := { s with cnt := s.cnt.bump k }

/-! ## Keyed maps

A map is a list whose keys rise strictly; `mapInsert` and `mapErase` keep it so. -/

/-- `M[key] <- e` (R13). -/
def mapInsert {α : Type} (key : α → Seq) (a : α) : List α → List α
  | [] => [a]
  | b :: l =>
    if (key a).toNat < (key b).toNat then a :: b :: l
    else if key a = key b then a :: l
    else b :: mapInsert key a l

/-- `remove(M, key)` (R13). -/
def mapErase {α : Type} (key : α → Seq) (k : Seq) (l : List α) : List α := l.filter (fun a => key a != k)

/-- The entry under a key. -/
def mapFind {α : Type} (key : α → Seq) (k : Seq) (l : List α) : Option α := l.find? (fun a => key a == k)

/-! ## Derived quantities -/

/-- Bytes of new data waiting: the sum of the remaining packet sizes (R28). -/
def txqBytes (q : List TxEntry) : Nat := (q.map (fun e => e.data.length)).sum

/-- TXBUF_BYTES (R28, R195). -/
def State.txbufBytes (s : State) : Nat := txqBytes s.txq

/-- RTXQ_BYTES (R40). -/
def State.rtxqBytes (s : State) : Nat := (s.rtxq.map (fun c => c.pdu.length)).sum

/-- INFLIGHT (R33): the keys of TXD and the numbers of RTXQ, each once. -/
def State.inflight (s : State) : List Seq := (s.txd.map ArqCtx.seq ++ s.rtxq.map ArqCtx.seq).dedup

/-- `Available()` (R301). -/
def State.available (s : State) : Bool :=
  if s.distanceMode then s.inflight.all (fun x => decide (seqDist x s.seqNext < s.cfg.arqWindow.toNat))
  else decide (s.inflight.length < s.cfg.arqWindow.toNat) && !s.inflight.contains s.seqNext

/-- The `bytes_left` field of FrameOut: TXBUF_BYTES in the plain variants (R231), TXBUF_BYTES + RTXQ_BYTES in the ARQ
variants (R313). -/
def State.bytesLeft (s : State) : Reg64 :=
  BitVec.ofNat 64 (if s.arq then s.txbufBytes + s.rtxqBytes else s.txbufBytes)

/-- HOL_DELAY (R196). -/
def State.holDelay (s : State) : Reg64 :=
  match s.txq with
  | [] => 0
  | e :: _ => s.now - e.arrival

/-! ## Timers -/

/-- Whether a timer guards the pair (R36). -/
def Timer.guards (k : TimerKind) (q : Seq) (t : Timer) : Bool := t.kind == k && t.seq == q

/-- `cancel(kind, seq)` (R422). -/
def State.cancel (k : TimerKind) (q : Seq) (s : State) : State :=
  { s with tmr := s.tmr.filter (fun t => !t.guards k q) }

/-- `arm(kind, seq, T)` (R421): an active timer of the pair is removed first. -/
def State.arm (k : TimerKind) (q : Seq) (t : Nat) (s : State) : State :=
  { s with
    tmr := (s.cancel k q).tmr ++ [{ kind := k, seq := q, deadline := s.now.toNat + t, stamp := s.stampNext }]
    stampNext := s.stampNext + 1 }

/-! ## Power-on and fatal entry -/

/-- Every state element at its power-on value (R49, R370). The command port's waiting commands and the records already
emitted are the host's and stay (log entries 1 and 2). -/
def State.powerOn (s : State) : State := { State.reset with port := s.port, out := s.out }

/-- The state writes of `FATAL(cause, info)` (R410): STATUS and ERR_INFO, nothing else. -/
def State.enterFatal (c : Cause) (info : Reg64) (s : State) : State :=
  { s with status := statusFatal c, errInfo := info }

/-- What a rule comes to: it runs to its end with a response value, or it raises FATAL, which carries no state because every
write of the command is abandoned (R410, R414). -/
inductive Effect where
  | done (s : State) (value : Reg64)
  | fatal (c : Cause) (info : Reg64)
  deriving DecidableEq, Repr

/-- The end of a command that ran from `s`: its response is its last record (R82), and a fatal one leaves everything but
STATUS and ERR_INFO as in `s` (R410). -/
def finish (s : State) : Effect → State
  | .done s' v => s'.respond .ok v
  | .fatal c info => (s.enterFatal c info).respond c info

/-- `refuse(cause)` (R412). -/
def State.refuse (c : Cause) (s : State) : State := s.respond c 0

/-- The pipeline of R413 for ENQ, TXOPP, RXFRM, RXACK and TICK: IN_FATAL, NOT_CONFIGURED, or the rule. -/
def runCommand (rule : State → Effect) (s : State) : State :=
  if s.fatal then s.refuse .inFatal
  else if s.configured then finish s (rule s)
  else s.refuse .notConfigured

/-- An illegal command (R99, R385, R413): IN_FATAL when already FATAL, else FATAL with ILLEGAL_CMD. -/
def illegalCommand (c : Bytes) (s : State) : State :=
  if s.fatal then s.refuse .inFatal
  else finish s (.fatal .illegalCmd (illegalInfo c))

/-- The end of the processing of a wire unit: as for a command but with no response record, which only a command has. -/
def finishUnit (s : State) : Effect → State
  | .done s' _ => s'
  | .fatal c info => s.enterFatal c info

/-- A wire unit is processed only where the command that carries it would run (R413); elsewhere it changes nothing. -/
def runUnit (rule : State → Effect) (s : State) : State :=
  if s.running then finishUnit s (rule s) else s

end Sys2Proof.Machine
end

