-- ==== Sys2Proof/Machine/Fragmenter.lean ====
section
/-! DEFINITION. Fragmenter: the fragmentation and packing engine and the plain TXOPP rule (42_fragmenter.md). -/

namespace Sys2Proof.Machine

/-- An entry tagged CONTINUATION or END is mid-chain (R225). START, which is never stored (R193), is taken as not mid-chain,
as BuildFrame's test does. -/
def TxEntry.mid (e : TxEntry) : Bool := e.tag == .cont || e.tag == .end_

/-- `kW` (R220): the kind of the entry emitted whole. -/
def TxEntry.wholeKind (e : TxEntry) : Kind := if e.mid then .end_ else .full

/-- `kS` (R220): the kind of a piece split off the entry. -/
def TxEntry.splitKind (e : TxEntry) : Kind := if e.mid then .cont else .start

/-- Whole fit (R221). -/
def wholeFits (c : CfgBlock) (avail : Nat) (e : TxEntry) : Bool :=
  decide (e.data.length + overhead (cfgFamily c) e.wholeKind ≤ cfgMaxFrag c) &&
    decide (4 + overhead (cfgFamily c) e.wholeKind + e.data.length ≤ avail)

/-- The payload of a split (R223, R224): 0 when nothing can be emitted for the entry. -/
def splitSize (c : CfgBlock) (avail : Nat) (e : TxEntry) : Nat :=
  if avail < 4 then 0
  else
    let room := min (avail - 4) (cfgMaxFrag c)
    if room ≤ overhead (cfgFamily c) e.splitKind then 0
    else min (room - overhead (cfgFamily c) e.splitKind) (e.data.length - 1)

/-- What a run of the packing loop leaves: the fragments it serialized, TXQ and FRAG_ID_NEXT. -/
structure Packed where
  frags : List Bytes
  txq : List TxEntry
  fragIdNext : BitVec 8
  deriving DecidableEq, Repr

/-- `(FRAG_ID_NEXT + 1) mod FID_MOD` (R226). -/
def nextFid (f : Family) (i : BitVec 8) : BitVec 8 := BitVec.ofNat 8 ((i.toNat + 1) % f.fidMod)

/-- A split of the front entry (R223 to R226): the piece, and the remainder back at the front with its new tag. -/
def packSplit (c : CfgBlock) (pay : Nat) (e : TxEntry) (rest : List TxEntry) (fidNext : BitVec 8) : Packed :=
  let fid := if e.mid then e.fid else fidNext
  { frags := [serialize c e.splitKind fid e (e.data.take pay)]
    txq := { e with data := e.data.drop pay, tag := if e.mid then .cont else .end_, fid := fid } :: rest
    fragIdNext := if e.mid then fidNext else nextFid (cfgFamily c) fidNext }

/-- The loop of BuildFrame (R220) with `n` fragments already in the frame and `avail` bytes left: whole entries are packed
(R222) until TXQ is empty, the frame holds 255 fragments, a split is made or nothing more fits (R227). -/
def packLoop (c : CfgBlock) : List TxEntry → Nat → Nat → BitVec 8 → Packed
  | [], _, _, fidNext => { frags := [], txq := [], fragIdNext := fidNext }
  | e :: rest, avail, n, fidNext =>
    if n ≥ fphMaxN then { frags := [], txq := e :: rest, fragIdNext := fidNext }
    else if wholeFits c avail e then
      let p := packLoop c rest (avail - (4 + overhead (cfgFamily c) e.wholeKind + e.data.length)) (n + 1) fidNext
      { p with frags := serialize c e.wholeKind e.fid e e.data :: p.frags }
    else
      let pay := splitSize c avail e
      if pay < 1 then { frags := [], txq := e :: rest, fragIdNext := fidNext }
      else packSplit c pay e rest fidNext

/-- `BuildFrame(B)` (R220): the frame and the state with TXQ and FRAG_ID_NEXT updated, none for NULL (R229). -/
def State.buildFrame (b : Nat) (s : State) : Option (Bytes × State) :=
  if b < 1 then none
  else
    let p := packLoop s.cfg s.txq (b - 1) 0 s.fragIdNext
    if p.frags = [] then none
    else some (frameOf p.frags, { s with txq := p.txq, fragIdNext := p.fragIdNext })

/-- A null opportunity (R230, R312): the counter, and FrameOut with no frame. -/
def nullOpportunity (s : State) : Effect :=
  let s1 := s.bump .nullOpp
  .done (s1.emit (.frameOut false [] s1.bytesLeft)) 0

/-- The end of an opportunity that returns a frame (R230, R309). -/
def sendFrame (frame : Bytes) (s : State) : Effect :=
  let s1 := s.bump .framesSent
  .done (s1.emit (.frameOut true frame s1.bytesLeft)) 0

/-- TXOPP in the plain variants (R230). -/
def txoppPlainRule (budget : Nat) (s : State) : Effect :=
  match s.buildFrame budget with
  | none => nullOpportunity s
  | some (f, s1) => sendFrame f s1

end Sys2Proof.Machine
end

