-- ==== Sys2Proof/Machine/Reassembly.lean ====
section
/-! DEFINITION. Reassembly: the reassembly engine and the plain RXFRM rule (43_reassembly.md). -/

namespace Sys2Proof.Machine

/-- `defect` (R262, R263). -/
def State.defect (s : State) : State := s.bump .reasmDefect

/-- `deliver(x)` (R263, R266). -/
def State.deliver (x : Bytes) (s : State) : State := (s.emit (.pktOut x)).bump .pktDelivered

/-- The transition to IDLE (R30, R262): RA_BUF is emptied, RA_FID and RA_TOTAL stay. -/
def State.toIdle (s : State) : State := { s with raActive := false, raBuf := [] }

/-- An in-progress chain discarded with one defect; nothing when IDLE (R265, R266). -/
def State.dropChain (s : State) : State := if s.raActive then s.defect.toIdle else s

/-- `Reassemble(rec)` (R263). -/
def State.reassemble (r : FragRec) (s : State) : State :=
  match r with
  | .start fid total p =>
    let s1 := s.dropChain
    if p.length > total.toNat then s1.defect
    else { s1 with raActive := true, raFid := fid, raTotal := total, raBuf := p }
  | .full p => s.dropChain.deliver p
  | .cont fid p =>
    if !s.raActive then s.defect
    else if fid ≠ s.raFid then s.defect.toIdle
    else
      let s1 : State := { s with raBuf := s.raBuf ++ p }
      if s1.raBuf.length > s1.raTotal.toNat then s1.defect.toIdle else s1
  | .end_ fid p =>
    if !s.raActive then s.defect
    else if fid ≠ s.raFid then s.defect.toIdle
    else
      let s1 : State := { s with raBuf := s.raBuf ++ p }
      if s1.raBuf.length = s1.raTotal.toNat then (s1.deliver s1.raBuf).toIdle else s1.defect.toIdle

/-- `for rec in recs: Reassemble(rec)`, in frame order (R272). -/
def State.reassembleAll (recs : List FragRec) (s : State) : State := recs.foldl (fun t r => t.reassemble r) s

/-- RXFRM in the plain variants (R275). -/
def rxfrmPlainRule (frame : Bytes) (s : State) : Effect :=
  match parseFrame s.family frame with
  | none => .done (s.bump .rxMalformed) 0
  | some recs => .done ((s.bump .framesRcvd).reassembleAll recs) 0

/-- One fragment as the block processes it on reception: Deserialize (R160), then Reassemble (R263); a malformed one is
dropped (R260). -/
def fragmentRule (b : Bytes) (s : State) : Effect :=
  match deserialize s.family b with
  | none => .done s 0
  | some r => .done (s.reassemble r) 0

end Sys2Proof.Machine
end

