-- ==== Sys2Proof/Machine/Arq.lean ====
section
/-! DEFINITION. Arq: the ARQ controller's rules (44_arq.md): sequencer, retransmission, ACK processing, reordering and the
two timer expiry handlers. -/

namespace Sys2Proof.Machine

/-! ## Sender -/

/-- A PDU moves to TXD with its retransmission timer armed (R309, R310, R311). -/
def State.transmit (c : ArqCtx) (s : State) : State :=
  ({ s with txd := mapInsert ArqCtx.seq c s.txd } : State).arm .rtx c.seq s.cfg.tRtx.toNat

/-- The retransmission path for the head `c` of RTXQ (R310). -/
def resend (c : ArqCtx) (rest : List ArqCtx) (s : State) : Effect :=
  sendFrame c.pdu ((({ s with rtxq := rest } : State).transmit { c with count := c.count + 1 }).bump .rtxSent)

/-- The new-data path (R311), else the null opportunity (R312). -/
def sendNew (budget : Nat) (s : State) : Effect :=
  if s.available ∧ budget ≥ 1 then
    match s.buildFrame (budget - 1) with
    | some (f, s1) =>
      let pdu := encode (.arqSeq s.seqNext f)
      sendFrame pdu (({ s1 with seqNext := s.seqNext + 1 } : State).transmit { seq := s.seqNext, pdu := pdu, count := 0 })
    | none => nullOpportunity s
  else nullOpportunity s

/-- TXOPP in the ARQ variants (R309). -/
def txoppArqRule (budget : Nat) (s : State) : Effect :=
  match s.rtxq with
  | c :: rest => if c.pdu.length ≤ budget then resend c rest s else sendNew budget s
  | [] => sendNew budget s

/-- `OnRtxExpiry(q)` (R320): back to RTXQ, or given up (R321); nothing when the context is gone (R322). -/
def onRtxExpiry (q : Seq) (s : State) : State :=
  match mapFind ArqCtx.seq q s.txd with
  | none => s
  | some c =>
    let s1 : State := { s.bump .rtxTimeout with txd := mapErase ArqCtx.seq q s.txd }
    if c.count.toNat < s.cfg.maxRtx.toNat then { s1 with rtxq := s1.rtxq ++ [c] }
    else s1.bump .arqGiveup

/-- The rule of RXACK (R330 to R332). -/
def rxackRule (q : Seq) (flow : BitVec 8) (s : State) : Effect :=
  if !s.arq ∨ flow ≠ s.cfg.flowId then .done (s.bump .ackIgnored) 0
  else if (mapFind ArqCtx.seq q s.txd).isSome then
    .done (({ s.cancel .rtx q with txd := mapErase ArqCtx.seq q s.txd } : State).bump .ackAccepted) 1
  else if s.rtxq.any (fun c => c.seq == q) then
    .done (({ s with rtxq := mapErase ArqCtx.seq q s.rtxq } : State).bump .ackAccepted) 1
  else .done (s.bump .ackIgnored) 0

/-! ## Receiver -/

/-- `Drain()` (R344) for at most `n` entries. -/
def drainUpTo : Nat → State → State
  | 0, s => s
  | n + 1, s =>
    match mapFind RobEntry.seq s.ne s.rob with
    | none => s
    | some e =>
      if e.received then
        let s1 := ({ s with rob := mapErase RobEntry.seq s.ne s.rob } : State).reassembleAll e.frags
        drainUpTo n { s1 with ne := s1.ne + 1 }
      else s

/-- `Drain()` (R344): each turn removes an entry of ROB, so as many turns as ROB has entries are all of them. -/
def State.drain (s : State) : State := drainUpTo s.rob.length s

/-- `InOrder(recs)` (R341). -/
def inOrder (recs : List FragRec) (s : State) : State :=
  let s1 : State :=
    if (mapFind RobEntry.seq s.ne s.rob).isSome then
      { s.cancel .rxw s.ne with rob := mapErase RobEntry.seq s.ne s.rob }
    else s
  let s2 := s1.reassembleAll recs
  ({ s2 with ne := s2.ne + 1 } : State).drain

/-- A placeholder for `k` with its Rx waiting timer, unless ROB already has an entry for it (R342). -/
def placeholder (s : State) (k : Seq) : State :=
  if (mapFind RobEntry.seq k s.rob).isSome then s
  else
    ({ s with rob := mapInsert RobEntry.seq { seq := k, received := false, frags := [] } s.rob } : State).arm .rxw k
      s.cfg.tRxwait.toNat

/-- `ROB[q] <- {received = 1, frags = recs}`, a placeholder's timer cancelled (R342). -/
def storeAhead (q : Seq) (recs : List FragRec) (s : State) : State :=
  let s1 := if (mapFind RobEntry.seq q s.rob).isSome then s.cancel .rxw q else s
  { s1 with rob := mapInsert RobEntry.seq { seq := q, received := true, frags := recs } s1.rob }

/-- `Ahead(q, recs)` (R342). -/
def ahead (q : Seq) (recs : List FragRec) (s : State) : State :=
  match mapFind RobEntry.seq q s.rob with
  | some { received := true, .. } => s.bump .rxDup
  | _ => (seqRange s.ne q).foldl placeholder (storeAhead q recs s)

/-- The unconditional ACK of a well-formed PDU (R340), before anything it releases (decision D29). -/
def acknowledge (q : Seq) (s : State) : State :=
  ((s.bump .framesRcvd).emit (.ackOut q s.cfg.flowId)).bump .ackSent

/-- RXFRM in the ARQ variants (R340, R343). -/
def rxfrmArqRule (pdu : Bytes) (s : State) : Effect :=
  match parsePdu s.family pdu with
  | none => .done (s.bump .rxMalformed) 0
  | some (q, recs) =>
    let d := seqDist s.ne q
    if d ≥ 128 ∧ s.staleFatal then .fatal .staleSeq (staleInfo s.ne q)
    else
      let s1 := acknowledge q s
      if d = 0 then .done (inOrder recs s1) 0
      else if d < 128 then .done (ahead q recs s1) 0
      else .done (s1.bump .rxDup) 0

/-- `OnRxwExpiry(k)` (R345): the placeholder is forced through and the buffer drained; nothing unless ROB holds a
placeholder for `k` (R424). -/
def onRxwExpiry (k : Seq) (s : State) : State :=
  match mapFind RobEntry.seq k s.rob with
  | none => s
  | some e =>
    if e.received then s
    else
      (({ s with rob := mapInsert RobEntry.seq { seq := k, received := true, frags := [] } s.rob } : State).bump
        .rxwaitExpired).drain

end Sys2Proof.Machine
end

