-- ==== Sys2Proof/Machine/Commands.lean ====
section
/-! DEFINITION. Commands: the meanings of TXOPP, RXFRM and RXACK. TXOPP and RXFRM have one opcode each, and the rule that runs
is the one of the instance's variant (R91, opcode table notes), whichever of the two rows the decoder named. -/

namespace Sys2Proof.Machine

/-- The rule of opcode 0x02 (R230, R309). -/
def txoppRule (budget : BitVec 32) (s : State) : Effect :=
  if s.arq then txoppArqRule budget.toNat s else txoppPlainRule budget.toNat s

/-- The rule of opcode 0x03 (R275, R340): also what the block does with the bytes of a frame or PDU that arrives. -/
def rxfrmRule (frame : Bytes) (s : State) : Effect :=
  if s.arq then rxfrmArqRule frame s else rxfrmPlainRule frame s

/-- TXOPP (R230). -/
def execTxopp (budget : BitVec 32) (s : State) : Host.Outcome State Fault Refusal :=
  .next (runCommand (txoppRule budget) s)

/-- TXOPP, row TXOPP_ARQ (R309). -/
def execTxoppArq (budget : BitVec 32) (s : State) : Host.Outcome State Fault Refusal :=
  .next (runCommand (txoppRule budget) s)

/-- RXFRM (R275). -/
def execRxfrm (frame : Bytes) (s : State) : Host.Outcome State Fault Refusal :=
  .next (runCommand (rxfrmRule frame) s)

/-- RXFRM, row RXFRM_ARQ (R340). -/
def execRxfrmArq (pdu : Bytes) (s : State) : Host.Outcome State Fault Refusal :=
  .next (runCommand (rxfrmRule pdu) s)

/-- RXACK (R330). -/
def execRxack (q : Seq) (flow : BitVec 8) (s : State) : Host.Outcome State Fault Refusal :=
  .next (runCommand (rxackRule q flow) s)

end Sys2Proof.Machine
end

