-- ==== Sys2Proof/Machine/System.lean ====
section
/-! DEFINITION. System: RESET, RDREG and the reserved opcodes (45_system.md), and the register map (10_state.md R40). -/

namespace Sys2Proof.Machine

/-! ## RESET -/

/-- The rule of RESET (R370) from the power-on state: CFG_INVALID with the first failing field, or the configuration latched
and STATUS = 0x1. -/
def resetRule (c : CfgBlock) (s : State) : Effect :=
  match cfgFirstBad c with
  | some i => .fatal .cfgInvalid (BitVec.ofNat 64 i)
  | none => .done { s with cfg := c, status := statusConfigured } 0

/-- RESET (R370 to R372), in every state (R413): every element goes to its power-on value first, so a failing RESET leaves the
power-on values with FATAL. -/
def execReset (c : CfgBlock) (s : State) : Host.Outcome State Fault Refusal :=
  .next (finish s.powerOn (resetRule c s.powerOn))

/-! ## Registers -/

/-- RA_STATE (R40). -/
def State.raState (s : State) : Reg64 :=
  (BitVec.ofNat 32 s.raBuf.length ++ s.raTotal ++ s.raFid ++ 0#7 ++ BitVec.ofBool s.raActive : BitVec 64)

/-- ARQ_TX_STATE (R40). -/
def State.arqTxState (s : State) : Reg64 :=
  (0#32 ++ BitVec.ofNat 8 s.rtxq.length ++ BitVec.ofNat 8 s.txd.length ++ BitVec.ofNat 8 s.inflight.length ++ s.seqNext :
    BitVec 64)

/-- ARQ_RX_STATE (R40). -/
def State.arqRxState (s : State) : Reg64 :=
  (0#40 ++ BitVec.ofNat 8 (s.rob.countP (fun e => !e.received)) ++ BitVec.ofNat 8 s.rob.length ++ s.ne : BitVec 64)

/-- The register map (R40): the content of every listed index. -/
def registers (s : State) : List (Nat × Reg64) :=
  [ (0x00, idValue)
  , (0x01, s.cfg.variant.setWidth 64)
  , (0x02, s.cfg.flowId.setWidth 64)
  , (0x03, s.cfg.windowMode.setWidth 64)
  , (0x04, s.cfg.stalePolicy.setWidth 64)
  , (0x05, s.cfg.arqWindow.setWidth 64)
  , (0x06, s.cfg.maxRtx.setWidth 64)
  , (0x07, s.cfg.tRtx.setWidth 64)
  , (0x08, s.cfg.tRxwait.setWidth 64)
  , (0x09, s.cfg.txbufMax.setWidth 64)
  , (0x0A, s.cfg.gseMaxfrag.setWidth 64)
  , (0x0B, s.cfg.gsePt.setWidth 64)
  , (0x10, s.status)
  , (0x11, s.errInfo)
  , (0x12, s.now)
  , (0x13, BitVec.ofNat 64 s.txbufBytes)
  , (0x14, BitVec.ofNat 64 s.txq.length)
  , (0x15, s.holDelay)
  , (0x16, s.fragIdNext.setWidth 64)
  , (0x17, s.raState)
  , (0x18, s.arqTxState)
  , (0x19, s.arqRxState)
  , (0x1A, BitVec.ofNat 64 s.rtxqBytes)
  , (0x1B, BitVec.ofNat 64 s.tmr.length)
  , (0x20, s.cnt.enqAccepted)
  , (0x21, s.cnt.txbufDrop)
  , (0x22, s.cnt.framesSent)
  , (0x23, s.cnt.nullOpp)
  , (0x24, s.cnt.framesRcvd)
  , (0x25, s.cnt.rxMalformed)
  , (0x26, s.cnt.pktDelivered)
  , (0x27, s.cnt.reasmDefect)
  , (0x28, s.cnt.rtxSent)
  , (0x29, s.cnt.arqGiveup)
  , (0x2A, s.cnt.ackSent)
  , (0x2B, s.cnt.ackAccepted)
  , (0x2C, s.cnt.ackIgnored)
  , (0x2D, s.cnt.rxDup)
  , (0x2E, s.cnt.rxwaitExpired)
  , (0x2F, s.cnt.rtxTimeout) ]

/-- `REG(idx)` (R40, R380): a reserved index reads 0 (R41). -/
def State.readReg (idx : BitVec 8) (s : State) : Reg64 := ((registers s).lookup idx.toNat).getD 0

/-- RDREG (R380), in every state (R413). -/
def execRdreg (idx : BitVec 8) (s : State) : Host.Outcome State Fault Refusal :=
  .next (finish s (.done s (s.readReg idx)))

/-! ## Reserved opcodes -/

/-- Reserved opcode 0x00 and the empty command (R99, R385). -/
def execReserved00 (c : Bytes) (s : State) : Host.Outcome State Fault Refusal := .next (illegalCommand c s)

/-- Reserved opcode 0x07 (R385). -/
def execReserved07 (c : Bytes) (s : State) : Host.Outcome State Fault Refusal := .next (illegalCommand c s)

/-- Reserved opcodes 0x08 to 0x0B (R385). -/
def execReserved08 (c : Bytes) (s : State) : Host.Outcome State Fault Refusal := .next (illegalCommand c s)

/-- Reserved opcodes 0x0C and 0x0D (R385). -/
def execReserved0C (c : Bytes) (s : State) : Host.Outcome State Fault Refusal := .next (illegalCommand c s)

/-- Reserved opcode 0x0E (R385). -/
def execReserved0E (c : Bytes) (s : State) : Host.Outcome State Fault Refusal := .next (illegalCommand c s)

/-- Reserved opcodes 0x10 to 0x1F (R385). -/
def execReserved10 (c : Bytes) (s : State) : Host.Outcome State Fault Refusal := .next (illegalCommand c s)

/-- Reserved opcodes 0x20 to 0x3F (R385). -/
def execReserved20 (c : Bytes) (s : State) : Host.Outcome State Fault Refusal := .next (illegalCommand c s)

/-- Reserved opcodes 0x40 to 0x7F (R385). -/
def execReserved40 (c : Bytes) (s : State) : Host.Outcome State Fault Refusal := .next (illegalCommand c s)

/-- Reserved opcodes 0x80 to 0xFF (R385). -/
def execReserved80 (c : Bytes) (s : State) : Host.Outcome State Fault Refusal := .next (illegalCommand c s)

end Sys2Proof.Machine
end

