-- ==== Sys2Proof/Machine/Timers.lean ====
section
/-! DEFINITION. Timers: the timer engine's expiry order (R423) and TICK (R375). -/

namespace Sys2Proof.Machine

/-- Whether timer `a` fires before timer `b`: increasing (deadline, stamp) (R423). -/
def Timer.before (a b : Timer) : Bool :=
  decide (a.deadline < b.deadline) || (decide (a.deadline = b.deadline) && decide (a.stamp < b.stamp))

/-- The timer with the least (deadline, stamp). -/
def earliest : List Timer → Option Timer
  | [] => none
  | t :: l =>
    match earliest l with
    | none => some t
    | some u => if u.before t then some u else some t

/-- The expiry handler of a timer (R320, R345, R375). -/
def expire (t : Timer) (s : State) : State :=
  match t.kind with
  | .rtx => onRtxExpiry t.seq s
  | .rxw => onRxwExpiry t.seq s

/-- The inner loop of TICK (R375) for at most `n` firings: the earliest due timer is removed, then its handler runs. -/
def fireUpTo : Nat → State → State
  | 0, s => s
  | n + 1, s =>
    match earliest s.tmr with
    | none => s
    | some t =>
      if t.deadline ≤ s.now.toNat then
        fireUpTo n (expire t { s with tmr := s.tmr.filter (fun u => u != t) })
      else s

/-- The inner loop of TICK (R375): a handler arms no timer, so as many firings as there are timers are all of them. -/
def State.fireDue (s : State) : State := fireUpTo s.tmr.length s

/-- One tick (R375). -/
def State.tickOnce (s : State) : State := ({ s with now := s.now + 1 } : State).fireDue

/-- `repeat N times` (R375). -/
def ticks : Nat → State → State
  | 0, s => s
  | n + 1, s => ticks n s.tickOnce

/-- The rule of TICK (R375) where virtual time suffices. -/
def tickRule (n : Nat) (s : State) : Effect := .done (ticks n s) 0

/-- TICK (R375). A TICK that would run and take NOW past 2^64 - 1 is outside the spec's model (R17, I9) and stops. -/
def execTick (n : BitVec 32) (s : State) : Host.Outcome State Fault Refusal :=
  if s.running ∧ s.now.toNat + n.toNat ≥ 2 ^ 64 then .fault .virtualTimeExhausted
  else .next (runCommand (tickRule n.toNat) s)

end Sys2Proof.Machine
end

