-- ==== Sys2Proof/Machine/TxBuffer.lean ====
section
/-! DEFINITION. TxBuffer: the transmission buffer and ENQ (41_txbuffer.md). -/

namespace Sys2Proof.Machine

/-- The rule of ENQ (R190): PKT_EMPTY, PKT_TOO_LARGE, silent drop, append, in that order (R191, R192, R193). -/
def enqRule (dest : BitVec 32) (data : Bytes) (s : State) : Effect :=
  if data.length = 0 then .fatal .pktEmpty 0
  else if data.length > cfgMaxPkt s.cfg then .fatal .pktTooLarge (BitVec.ofNat 64 data.length)
  else if s.txbufBytes + data.length > s.cfg.txbufMax.toNat then .done (s.bump .txbufDrop) 0
  else
    let e : TxEntry :=
      { data := data, tag := .full, arrival := s.now, dest := dest, fid := 0, total := BitVec.ofNat 16 data.length }
    .done (({ s with txq := s.txq ++ [e] } : State).bump .enqAccepted) 1

/-- ENQ (R190). -/
def execEnq (dest : BitVec 32) (data : Bytes) (s : State) : Host.Outcome State Fault Refusal :=
  .next (runCommand (enqRule dest data) s)

end Sys2Proof.Machine
end

