-- ==== Sys2Proof/Machine/Wire.lean ====
section
/-! DEFINITION. Wire: the meanings of the wire-format rows of the opcode table. A wire unit is no command: it reaches the block
inside RXFRM or RXACK. Its meaning is what those rules do with the bytes of one such unit, without the command's response
record (log entry 5). A unit whose bytes the instance's variant reads otherwise is read as those bytes are. -/

namespace Sys2Proof.Machine

/-- RLE_FULL received (R144, R266). -/
def execRleFull (rsv : BitVec 3) (p : Bytes) (s : State) : Host.Outcome State Fault Refusal :=
  .next (runUnit (fragmentRule (encode (.rleFull rsv p))) s)

/-- RLE_START received (R144, R264, R265). -/
def execRleStart (fid : BitVec 3) (total : BitVec 12) (rsv : BitVec 4) (p : Bytes) (s : State) :
    Host.Outcome State Fault Refusal :=
  .next (runUnit (fragmentRule (encode (.rleStart fid total rsv p))) s)

/-- RLE_CONT received (R144, R267). -/
def execRleCont (fid : BitVec 3) (p : Bytes) (s : State) : Host.Outcome State Fault Refusal :=
  .next (runUnit (fragmentRule (encode (.rleCont fid p))) s)

/-- RLE_END received (R144, R268, R269). -/
def execRleEnd (fid : BitVec 3) (p : Bytes) (s : State) : Host.Outcome State Fault Refusal :=
  .next (runUnit (fragmentRule (encode (.rleEnd fid p))) s)

/-- GSE_FULL received (R154, R266). -/
def execGseFull (lt : BitVec 2) (pt : BitVec 16) (label : BitVec 24) (p : Bytes) (crc : BitVec 32) (s : State) :
    Host.Outcome State Fault Refusal :=
  .next (runUnit (fragmentRule (encode (.gseFull lt pt label p crc))) s)

/-- GSE_START received (R154, R264, R265). -/
def execGseStart (lt : BitVec 2) (fid : BitVec 8) (total : BitVec 16) (pt : BitVec 16) (label : BitVec 24) (p : Bytes)
    (s : State) : Host.Outcome State Fault Refusal :=
  .next (runUnit (fragmentRule (encode (.gseStart lt fid total pt label p))) s)

/-- GSE_CONT received (R154, R267). -/
def execGseCont (lt : BitVec 2) (fid : BitVec 8) (p : Bytes) (s : State) : Host.Outcome State Fault Refusal :=
  .next (runUnit (fragmentRule (encode (.gseCont lt fid p))) s)

/-- GSE_END received (R154, R268, R269). -/
def execGseEnd (lt : BitVec 2) (fid : BitVec 8) (p : Bytes) (crc : BitVec 32) (s : State) :
    Host.Outcome State Fault Refusal :=
  .next (runUnit (fragmentRule (encode (.gseEnd lt fid p crc))) s)

/-- A frame pack header with its fragments received (R166, R260, R275). -/
def execFph (frags : List Bytes) (s : State) : Host.Outcome State Fault Refusal :=
  .next (runUnit (rxfrmRule (encode (.fph frags))) s)

/-- An ARQ sequence header with its frame received (R170, R340). -/
def execArqSeq (q : Seq) (frame : Bytes) (s : State) : Host.Outcome State Fault Refusal :=
  .next (runUnit (rxfrmRule (encode (.arqSeq q frame))) s)

/-- An ACK control message received (R175, R330). -/
def execAckMsg (q : Seq) (flow : BitVec 8) (s : State) : Host.Outcome State Fault Refusal :=
  .next (runUnit (rxackRule q flow) s)

end Sys2Proof.Machine
end

