-- ==== Sys2Proof/Machine/Dispatch.lean ====
section
/-! DEFINITION. Dispatch: one arm per row of the opcode table. -/

namespace Sys2Proof.Machine

def exec (i : Instr) (s : State) : Host.Outcome State Fault Refusal :=
  match i with
  | .enq dest data => Sys2Proof.Machine.execEnq dest data s
  | .txopp budget => Sys2Proof.Machine.execTxopp budget s
  | .txoppArq budget => Sys2Proof.Machine.execTxoppArq budget s
  | .rxfrm frame => Sys2Proof.Machine.execRxfrm frame s
  | .rxfrmArq pdu => Sys2Proof.Machine.execRxfrmArq pdu s
  | .rxack seq flow => Sys2Proof.Machine.execRxack seq flow s
  | .tick n => Sys2Proof.Machine.execTick n s
  | .rdreg idx => Sys2Proof.Machine.execRdreg idx s
  | .reset cfg => Sys2Proof.Machine.execReset cfg s
  | .reserved00 c => Sys2Proof.Machine.execReserved00 c s
  | .reserved07 c => Sys2Proof.Machine.execReserved07 c s
  | .reserved08 c => Sys2Proof.Machine.execReserved08 c s
  | .reserved0C c => Sys2Proof.Machine.execReserved0C c s
  | .reserved0E c => Sys2Proof.Machine.execReserved0E c s
  | .reserved10 c => Sys2Proof.Machine.execReserved10 c s
  | .reserved20 c => Sys2Proof.Machine.execReserved20 c s
  | .reserved40 c => Sys2Proof.Machine.execReserved40 c s
  | .reserved80 c => Sys2Proof.Machine.execReserved80 c s
  | .rleFull rsv payload => Sys2Proof.Machine.execRleFull rsv payload s
  | .rleStart fid total rsv payload => Sys2Proof.Machine.execRleStart fid total rsv payload s
  | .rleCont fid payload => Sys2Proof.Machine.execRleCont fid payload s
  | .rleEnd fid payload => Sys2Proof.Machine.execRleEnd fid payload s
  | .gseFull lt pt label payload crc => Sys2Proof.Machine.execGseFull lt pt label payload crc s
  | .gseStart lt fid total pt label payload => Sys2Proof.Machine.execGseStart lt fid total pt label payload s
  | .gseCont lt fid payload => Sys2Proof.Machine.execGseCont lt fid payload s
  | .gseEnd lt fid payload crc => Sys2Proof.Machine.execGseEnd lt fid payload crc s
  | .fph frags => Sys2Proof.Machine.execFph frags s
  | .arqSeq seq frame => Sys2Proof.Machine.execArqSeq seq frame s
  | .ackMsg seq flow => Sys2Proof.Machine.execAckMsg seq flow s

end Sys2Proof.Machine
end

