-- ==== Sys2Proof/Machine/Fetch.lean ====
section
/-! DEFINITION. Fetch: taking the next command off the command port (R20, R80, R90) and decoding it. -/

namespace Sys2Proof.Machine

/-- What the command port offers: nothing, a command that decodes, or one whose length is wrong (R99). -/
inductive Fetched where
  | idle
  | command (i : Instr) (s : State)
  | illegal (c : Bytes) (s : State)
  deriving DecidableEq, Repr

/-- The oldest waiting command, taken off the port and decoded for the instance's variant. -/
def fetch (s : State) : Fetched :=
  match s.port with
  | [] => .idle
  | c :: rest =>
    match decode s.arq c with
    | .ok i => .command i { s with port := rest }
    | .error _ => .illegal c { s with port := rest }

/-- The outcome of a command that the decoder rejects (R99, R385). -/
def rejected (c : Bytes) (s : State) : Host.Outcome State Fault Refusal := .next (illegalCommand c s)

/-- The outcome when no command waits: the block does nothing between commands (R433, R450). -/
def waiting (s : State) : Host.Outcome State Fault Refusal := .next s

end Sys2Proof.Machine
end

