-- ==== Sys2Proof/Machine/Step.lean ====
section
/-! DEFINITION. Step: one command of the command port, to completion (R7, R80). -/

namespace Sys2Proof.Machine

/-- One step: the oldest waiting command is taken and executed; an illegal one raises ILLEGAL_CMD (R385); with no command
waiting the block stays as it is. -/
def step (s : State) : Host.Outcome State Fault Refusal :=
  match fetch s with
  | .idle => waiting s
  | .command i s' => exec i s'
  | .illegal c s' => rejected c s'

/-- The host presents the command of an opcode-table word ahead of every other waiting command. -/
def State.withFetchWord (s : State) (nbits w : Nat) : State := { s with port := tableCommand nbits w :: s.port }

end Sys2Proof.Machine
end

