-- ==== Sys2Proof/Machine/Link.lean ====
section
/-! DEFINITION. Link: the host's side of the ports: presenting commands (R90), the command lines and pseudo-commands of R120
and R121 as terms, and the two lines that carry records between two instances (R121, R86). Reading the lines' characters is
left out (00_scope.md R6). -/

namespace Sys2Proof.Machine

/-- The host presents one command, after every command that waits (R80, R90). -/
def State.present (c : Bytes) (s : State) : State := { s with port := s.port ++ [c] }

/-- A RESET line of R120: an omitted field is 0, but `gsemax`, whose omission means 4095. -/
structure ResetLine where
  variant : BitVec 8 := 0
  flow : BitVec 8 := 0
  wmode : BitVec 8 := 0
  stale : BitVec 8 := 0
  w : BitVec 8 := 0
  maxrtx : BitVec 8 := 0
  trtx : BitVec 32 := 0
  trxwait : BitVec 32 := 0
  txbuf : BitVec 32 := 0
  gsemax : BitVec 16 := 4095
  gsept : BitVec 16 := 0
  deriving DecidableEq, Repr

/-- A command line of R120, or a pseudo-command of R121. -/
inductive Line where
  | reset (l : ResetLine)
  | enq (dest : BitVec 32) (data : Bytes)
  | enqFill (dest : BitVec 32) (len : BitVec 16) (fill : Byte)
  | txopp (budget : BitVec 32)
  | rxfrm (frame : Bytes)
  | rxfrmAt (name : String)
  | rxack (seq : Seq) (flow : BitVec 8)
  | tick (n : BitVec 32)
  | rdreg (idx : BitVec 8)
  | nop
  | status
  | size
  | hol
  deriving DecidableEq, Repr

/-- The command a line encodes (R120, R121); `frames` holds the frames that labelled TXOPP lines returned. -/
def assemble (frames : List (String × Bytes)) : Line → Option Instr
  | .reset l => some (.reset
      { variant := l.variant, flowId := l.flow, windowMode := l.wmode, stalePolicy := l.stale, arqWindow := l.w,
        maxRtx := l.maxrtx, tRtx := l.trtx, tRxwait := l.trxwait, txbufMax := l.txbuf, gseMaxfrag := l.gsemax,
        gsePt := l.gsept })
  | .enq dest data => some (.enq dest data)
  | .enqFill dest len fill => some (.enq dest (List.replicate len.toNat fill))
  | .txopp b => some (.txopp b)
  | .rxfrm f => some (.rxfrm f)
  | .rxfrmAt name => (frames.lookup name).map Instr.rxfrm
  | .rxack q f => some (.rxack q f)
  | .tick n => some (.tick n)
  | .rdreg i => some (.rdreg i)
  | .nop => some (.tick 0)
  | .status => some (.rdreg 0x10)
  | .size => some (.rdreg 0x13)
  | .hol => some (.rdreg 0x15)

/-- The bytes the host presents for a line. -/
def assembleBytes (frames : List (String × Bytes)) (l : Line) : Option Bytes := (assemble frames l).map encode

/-- The frame of the last FrameOut record, if it has one. -/
def lastFrame (s : State) : Option Bytes :=
  match s.out.reverse.find? (fun r => match r with | .frameOut _ _ _ => true | .resp _ _ => false | .pktOut _ => false | .ackOut _ _ => false) with
  | some (.frameOut true f _) => some f
  | _ => none

/-- `DELIVER a -> b` (R121): the last TXOPP result frame of `a`, if present, presented to `b` as RXFRM. -/
def deliverFrame (a b : State) : State :=
  match lastFrame a with
  | some f => b.present (encode (.rxfrm f))
  | none => b

/-- The AckOut records of an instance, oldest first. -/
def acksOf (s : State) : List (Seq × BitVec 8) :=
  s.out.filterMap (fun r => match r with | .ackOut q f => some (q, f) | .resp _ _ => none | .frameOut _ _ _ => none | .pktOut _ => none)

/-- `ACKS b -> a` (R121): every AckOut record of `b` after the first `passed`, presented to `a` as RXACK, in order. -/
def carryAcks (passed : Nat) (b a : State) : State :=
  ((acksOf b).drop passed).foldl (fun t k => t.present (encode (.rxack k.1 k.2))) a

/-- The PktOut records of an instance, oldest first: the source's ReceiveCallback (R19, R100). -/
def packetsOf (s : State) : List Bytes :=
  s.out.filterMap (fun r => match r with | .pktOut p => some p | .resp _ _ => none | .frameOut _ _ _ => none | .ackOut _ _ => none)

end Sys2Proof.Machine
end

