-- ==== Sys2Proof/Safety.lean ====
section
/-! DEFINITION. Safety: the terms the statements are made in: which states are legal (the invariants 10_state.md gives), which
part of the state belongs to which half of the instance (R8), and what two linked instances owe each other (R276). -/

namespace Sys2Proof

/-! ## Which constructors are commands -/

/-- A command of R91, a reserved opcode included; otherwise a wire unit. -/
def Instr.isCommand (i : Instr) : Bool := i.wireUnit.isNone

/-- The row is the one the decoder names for the variant. -/
def Instr.fitsVariant (arq : Bool) (i : Instr) : Bool :=
  match i.arqRow with
  | none => true
  | some a => a == arq

/-- The reserved-opcode rows with the byte string they carry. -/
def Instr.reservedBytes : Instr → Option Bytes
  | .reserved00 c => some c
  | .reserved07 c => some c
  | .reserved08 c => some c
  | .reserved0C c => some c
  | .reserved0E c => some c
  | .reserved10 c => some c
  | .reserved20 c => some c
  | .reserved40 c => some c
  | .reserved80 c => some c
  | .enq _ _ => none
  | .txopp _ => none
  | .txoppArq _ => none
  | .rxfrm _ => none
  | .rxfrmArq _ => none
  | .rxack _ _ => none
  | .tick _ => none
  | .rdreg _ => none
  | .reset _ => none
  | .rleFull _ _ => none
  | .rleStart _ _ _ _ => none
  | .rleCont _ _ => none
  | .rleEnd _ _ => none
  | .gseFull _ _ _ _ _ => none
  | .gseStart _ _ _ _ _ _ => none
  | .gseCont _ _ _ => none
  | .gseEnd _ _ _ _ => none
  | .fph _ => none
  | .arqSeq _ _ => none
  | .ackMsg _ _ => none

/-- ENQ, TXOPP, RXFRM, RXACK and TICK: the commands that run only in CONFIGURED (R413). -/
def Instr.needsConfig : Instr → Bool
  | .enq _ _ => true
  | .txopp _ => true
  | .txoppArq _ => true
  | .rxfrm _ => true
  | .rxfrmArq _ => true
  | .rxack _ _ => true
  | .tick _ => true
  | .rdreg _ => false
  | .reset _ => false
  | .reserved00 _ => false
  | .reserved07 _ => false
  | .reserved08 _ => false
  | .reserved0C _ => false
  | .reserved0E _ => false
  | .reserved10 _ => false
  | .reserved20 _ => false
  | .reserved40 _ => false
  | .reserved80 _ => false
  | .rleFull _ _ => false
  | .rleStart _ _ _ _ => false
  | .rleCont _ _ => false
  | .rleEnd _ _ => false
  | .gseFull _ _ _ _ _ => false
  | .gseStart _ _ _ _ _ _ => false
  | .gseCont _ _ _ => false
  | .gseEnd _ _ _ _ => false
  | .fph _ => false
  | .arqSeq _ _ => false
  | .ackMsg _ _ => false

/-- The instruction is a RESET. -/
def Instr.isReset (i : Instr) : Bool := match i with | .reset _ => true | _ => false

end Sys2Proof

namespace Sys2Proof.Machine

/-! ## Outcomes -/

/-- The instruction completes: it answers a next state. -/
def Completes (o : Host.Outcome State Fault Refusal) : Prop := ∃ t, o = .next t

/-- Instructions executed one after another, as far as each answers a next state. -/
def execAll : List Instr → State → Host.Outcome State Fault Refusal
  | [], s => .next s
  | i :: is, s =>
    match exec i s with
    | .next t => execAll is t
    | .fault f => .fault f
    | .refused r => .refused r

/-- The record is a response. -/
def OutRec.isResp (r : OutRec) : Bool := match r with | .resp _ _ => true | _ => false

/-! ## Legal states -/

/-- STATUS is one of its legal words (R22): unconfigured, configured, or FATAL with a fatal cause (R400). -/
def StatusLegal (s : State) : Prop :=
  s.status = 0x0 ∨ s.status = 0x1 ∨ s.status = 0x202 ∨ s.status = 0x302 ∨ s.status = 0x402 ∨ s.status = 0x502 ∨
    s.status = 0x602

/-- A configured instance holds a configuration that passed every check (R22, R370). -/
def CfgLegal (s : State) : Prop := s.configured = true → cfgFirstBad s.cfg = none

/-- An entry of TXQ as R27 has it: it carries 1 to MAXPKT bytes, its tag is never START, its id is a FID_W-bit number, and
what is left of the packet is all of it exactly when the entry is FULL (R193, R225). -/
def TxEntryLegal (f : Family) (e : TxEntry) : Prop :=
  1 ≤ e.data.length ∧ e.total.toNat ≤ f.maxPkt ∧ e.fid.toNat < f.fidMod ∧
    (e.tag = .full ∧ e.data.length = e.total.toNat ∨
      (e.tag = .cont ∨ e.tag = .end_) ∧ e.data.length < e.total.toNat)

/-- TXQ as R27, R28 and R194 have it: legal entries, only the front one mid-chain, TXBUF_BYTES within CFG_TXBUF_MAX, and
FRAG_ID_NEXT a FID_W-bit number (R29). -/
def TxqLegal (s : State) : Prop :=
  (∀ e ∈ s.txq, TxEntryLegal s.family e) ∧ (∀ e ∈ s.txq.tail, e.tag = .full) ∧
    s.txbufBytes ≤ s.cfg.txbufMax.toNat ∧ s.fragIdNext.toNat < s.family.fidMod

/-- The keys of a map rise strictly: the canonical form. -/
def KeysRise {α : Type} (key : α → Seq) (l : List α) : Prop := (l.map (fun a => (key a).toNat)).Pairwise (· < ·)

/-- The ARQ sender's state as R32, R33 and R302 have it: TXD in canonical form, every number in flight once, at most
CFG_ARQ_WINDOW of them, in DISTANCE mode each at a distance 1 to CFG_ARQ_WINDOW below SEQ_NEXT, and the retransmission
counts within CFG_MAX_RTX (R320). -/
def SenderLegal (s : State) : Prop :=
  KeysRise ArqCtx.seq s.txd ∧ (s.txd.map ArqCtx.seq ++ s.rtxq.map ArqCtx.seq).Nodup ∧
    s.txd.length + s.rtxq.length ≤ s.cfg.arqWindow.toNat ∧
    (s.distanceMode = true → ∀ c ∈ s.txd ++ s.rtxq,
      1 ≤ seqDist c.seq s.seqNext ∧ seqDist c.seq s.seqNext ≤ s.cfg.arqWindow.toNat) ∧
    (∀ c ∈ s.txd, c.count.toNat ≤ s.cfg.maxRtx.toNat) ∧ (∀ c ∈ s.rtxq, c.count.toNat < s.cfg.maxRtx.toNat)

/-- The ARQ receiver's state as R35 has it: ROB in canonical form, every key within 127 of NE, no received entry at NE (it
would have been drained, R341), and no fragments in a placeholder. -/
def ReceiverLegal (s : State) : Prop :=
  KeysRise RobEntry.seq s.rob ∧ (∀ e ∈ s.rob, seqDist s.ne e.seq ≤ 127) ∧
    (∀ e ∈ s.rob, e.seq = s.ne → e.received = false) ∧ (∀ e ∈ s.rob, e.received = false → e.frags = [])

/-- TMR as R36, R37 and R423 have it: stamps rise and stay below STAMP_NEXT, one timer per pair, a retransmission timer
exactly for every key of TXD, an Rx waiting timer exactly for every placeholder of ROB, and no deadline reached. -/
def TimersLegal (s : State) : Prop :=
  (s.tmr.map Timer.stamp).Pairwise (· < ·) ∧ (∀ t ∈ s.tmr, t.stamp < s.stampNext) ∧
    (s.tmr.map (fun t => (t.kind, t.seq))).Nodup ∧
    (∀ q, (∃ t ∈ s.tmr, t.kind = .rtx ∧ t.seq = q) ↔ ∃ c ∈ s.txd, c.seq = q) ∧
    (∀ q, (∃ t ∈ s.tmr, t.kind = .rxw ∧ t.seq = q) ↔ ∃ e ∈ s.rob, e.seq = q ∧ e.received = false) ∧
    (∀ t ∈ s.tmr, s.now.toNat < t.deadline)

/-- A validated record as R261 has it: it carries at least one byte, its id is a FID_W-bit number, and its total is one a
packet of the family can have. -/
def FragRecLegal (f : Family) : FragRec → Prop
  | .full p => 1 ≤ p.length
  | .start fid total p => 1 ≤ p.length ∧ fid.toNat < f.fidMod ∧ total.toNat ≤ f.maxPkt
  | .cont fid p => 1 ≤ p.length ∧ fid.toNat < f.fidMod
  | .end_ fid p => 1 ≤ p.length ∧ fid.toNat < f.fidMod

/-- The reassembly context as R30 has it: RA_BUF is empty in IDLE and holds 1 to RA_TOTAL bytes in ACCUMULATING, RA_TOTAL is at
most MAXPKT and RA_FID a FID_W-bit number. The records waiting in ROB are validated ones (R35, R261). -/
def ReassemblyLegal (s : State) : Prop :=
  (s.raActive = false → s.raBuf = []) ∧
    (s.raActive = true → 1 ≤ s.raBuf.length ∧ s.raBuf.length ≤ s.raTotal.toNat) ∧
    s.raTotal.toNat ≤ s.family.maxPkt ∧ s.raFid.toNat < s.family.fidMod ∧
    ∀ e ∈ s.rob, ∀ r ∈ e.frags, FragRecLegal s.family r

/-- In the plain variants the ARQ state is never written (R40). -/
def PlainLegal (s : State) : Prop :=
  s.arq = false → s.seqNext = 0 ∧ s.txd = [] ∧ s.rtxq = [] ∧ s.ne = 0 ∧ s.rob = [] ∧ s.tmr = [] ∧ s.stampNext = 0

/-- The ARQ controller's whole invariant. -/
def ArqLegal (s : State) : Prop := CfgLegal s ∧ SenderLegal s ∧ ReceiverLegal s ∧ TimersLegal s

/-! ## Halves of the instance (R8) -/

/-- The receive half: the reassembly context and the ARQ receiver. -/
def SameReceiveHalf (s t : State) : Prop :=
  t.raActive = s.raActive ∧ t.raFid = s.raFid ∧ t.raTotal = s.raTotal ∧ t.raBuf = s.raBuf ∧ t.ne = s.ne ∧ t.rob = s.rob

/-- The transmit half: the transmission buffer, the fragmentation engine and the ARQ sender. -/
def SameTransmitHalf (s t : State) : Prop :=
  t.txq = s.txq ∧ t.fragIdNext = s.fragIdNext ∧ t.seqNext = s.seqNext ∧ t.txd = s.txd ∧ t.rtxq = s.rtxq

/-! ## Two linked instances (R276) -/

/-- The receiver `b` stands where the sender `a` left off: in ACCUMULATING, exactly when the front entry of `a` is mid-chain,
with that chain's id, total and missing bytes. -/
def Linked (a b : State) : Prop :=
  match a.txq with
  | [] => b.raActive = false
  | e :: _ =>
    if e.tag = .full then b.raActive = false
    else b.raActive = true ∧ b.raFid = e.fid ∧ b.raTotal = e.total ∧ b.raBuf.length + e.data.length = e.total.toNat

/-- The packets `b` has still to deliver, in order: the one in progress completed, then the untouched ones of `a`. -/
def owed (a b : State) : List Bytes :=
  match a.txq with
  | [] => []
  | e :: rest => (if e.tag = .full then e.data else b.raBuf ++ e.data) :: rest.map TxEntry.data

end Sys2Proof.Machine
end

