-- ==== Sys2Proof/Certificates/Slice0/Obligations.lean ====
section
/-! DEFINITION. Obligations: the statements about the machine, each for every state that meets its premises. `out` is the list form
of the output ports of R100, and `port` the queue form of the command port of R90 (log entries 1 and 2): `out := s.out ++ l`
says that exactly the records `l` are emitted, in that order. -/

open Sys2Proof Sys2Proof.Machine

/-! ## Reset -/

/-- R49: the three resets leave exactly the listed values. Power-on is State.reset. The two ports, which R49 does not list, are
left free in each of the three. -/
def Obligations.EveryResetLeavesTheListedValues : Prop :=
  State.reset =
      { port := State.reset.port, cfg := ⟨0, 0, 0, 0, 0, 0, 0, 0, 0, 0, 0⟩, status := 0x0, errInfo := 0, now := 0, stampNext := 0, txq := [],
        fragIdNext := 0, raActive := false, raFid := 0, raTotal := 0, raBuf := [], seqNext := 0, txd := [], rtxq := [],
        ne := 0, rob := [], tmr := [], cnt := ⟨0, 0, 0, 0, 0, 0, 0, 0, 0, 0, 0, 0, 0, 0, 0, 0⟩, out := State.reset.out } ∧
    ∀ (s : State) (c : CfgBlock),
      (cfgFirstBad c = none →
        ∃ t, exec (.reset c) s = .next t ∧ t = { State.reset with port := t.port, cfg := c, status := 0x1, out := t.out }) ∧
      ∀ i, cfgFirstBad c = some i →
        ∃ t, exec (.reset c) s = .next t ∧
          t = { State.reset with port := t.port, status := 0x202, errInfo := BitVec.ofNat 64 i, out := t.out }

/-- R370, R10: RESET latches a configuration exactly when every field that applies to its variant is in its range; otherwise it
enters FATAL with CFG_INVALID and the number of the first field, in field order, that is out of range. Every other element is
at its power-on value either way, and the response is the only record. That the commands waiting on the port and the records
emitted before stay is the model's choice (log entries 1 and 2). -/
def Obligations.ResetAcceptsExactlyTheLegalRanges : Prop :=
  ∀ (s : State) (c : CfgBlock),
    let arqOk :=
      if c.variant = 1 ∨ c.variant = 3 then
        [ (3, decide (c.windowMode.toNat ≤ 1)), (4, decide (c.stalePolicy.toNat ≤ 1))
        , (5, decide (1 ≤ c.arqWindow.toNat ∧ c.arqWindow.toNat ≤ 128)), (6, decide (1 ≤ c.maxRtx.toNat))
        , (7, decide (1 ≤ c.tRtx.toNat)), (8, decide (1 ≤ c.tRxwait.toNat)) ]
      else []
    let gseOk :=
      if c.variant = 2 ∨ c.variant = 3 then [(10, decide (12 ≤ c.gseMaxfrag.toNat ∧ c.gseMaxfrag.toNat ≤ 4095))] else []
    let checks : List (Nat × Bool) :=
      [(1, decide (c.variant.toNat ≤ 3))] ++ arqOk ++ [(9, decide (1 ≤ c.txbufMax.toNat))] ++ gseOk
    exec (.reset c) s = .next
      (match checks.find? (fun k => !k.2) with
      | none => { State.reset with port := s.port, cfg := c, status := 0x1, out := s.out ++ [.resp .ok 0] }
      | some (i, _) =>
        { State.reset with
          port := s.port, status := 0x202, errInfo := BitVec.ofNat 64 i
          out := s.out ++ [.resp .cfgInvalid (BitVec.ofNat 64 i)] })

/-! ## The command pipeline, fatal entry and refusals -/

/-- R412, R413: in FATAL every command but RESET and RDREG, a reserved opcode and a command the decoder rejects included, and in
the unconfigured state each of the five commands of R413, changes nothing and answers with the refusal of R400. -/
def Obligations.RefusedCommandsChangeNothing : Prop :=
  ∀ (i : Instr) (s : State),
    ((i.needsConfig = true ∨ i.reservedBytes.isSome = true) → s.fatal = true →
      exec i s = .next { s with out := s.out ++ [.resp .inFatal 0] }) ∧
    (i.needsConfig = true → s.fatal = false → s.configured = false →
      exec i s = .next { s with out := s.out ++ [.resp .notConfigured 0] }) ∧
    ∀ c rest e, s.port = c :: rest → decode s.arq c = .error e → s.fatal = true →
      step s = .next { s with port := rest, out := s.out ++ [.resp .inFatal 0] }

/-- R385, R401: every reserved opcode, whatever follows it, enters FATAL with ILLEGAL_CMD, its opcode and length in ERR_INFO,
configured or not; in FATAL it is refused with IN_FATAL. -/
def Obligations.ReservedOpcodesAreIllegal : Prop :=
  ∀ (i : Instr) (c : Bytes) (s : State), i.reservedBytes = some c → i.wf = true →
    (s.fatal = true → exec i s = .next { s with out := s.out ++ [.resp .inFatal 0] }) ∧
    (s.fatal = false → ∃ info : Reg64,
      info.toNat = min c.length (2 ^ 32 - 1) * 2 ^ 32 + (c.headD 0).toNat ∧
      exec i s = .next { s with status := 0x502, errInfo := info, out := s.out ++ [.resp .illegalCmd info] })

/-- R99, R385, R401: a defined opcode with another length than R91's, taken from the port, enters FATAL with ILLEGAL_CMD and bit
8 of ERR_INFO set, or is refused in FATAL. -/
def Obligations.WrongLengthIsIllegal : Prop :=
  ∀ (s : State) (c : Bytes) (rest : List Bytes), s.port = c :: rest →
    c.headD 0 ∈ ([0x01, 0x02, 0x03, 0x04, 0x05, 0x06, 0x0F] : List Byte) → c.length ≠ commandLength c →
    (s.fatal = true → step s = .next { s with port := rest, out := s.out ++ [.resp .inFatal 0] }) ∧
    (s.fatal = false → ∃ info : Reg64,
      info.toNat = min c.length (2 ^ 32 - 1) * 2 ^ 32 + 0x100 + (c.headD 0).toNat ∧
      step s = .next { s with port := rest, status := 0x502, errInfo := info, out := s.out ++ [.resp .illegalCmd info] })

/-- R410, R414: a command that enters FATAL writes STATUS and ERR_INFO and answers with cause and info; every other element
is as before it. (RESET, which goes to power-on first, is the exception R410 names and R49's statement covers.) -/
def Obligations.FatalEntryIsPrecise : Prop :=
  ∀ (i : Instr) (s t : State), i.isReset = false → i.isCommand = true → s.fatal = false → exec i s = .next t →
    t.fatal = true →
    ∃ c info, t = { s with status := statusFatal c, errInfo := info, out := s.out ++ [.resp c info] }

/-- R411, R415: in FATAL no command but RESET changes anything except the records emitted, and FATAL stays. -/
def Obligations.FatalIsStickyUntilReset : Prop :=
  ∀ (i : Instr) (s t : State), s.fatal = true → i.isReset = false → exec i s = .next t →
    t.fatal = true ∧ t = { s with out := t.out }

/-- R82, R100: every command that completes emits exactly one response, as its last record, after the records already there. -/
def Obligations.EveryCommandRespondsOnceAndLast : Prop :=
  ∀ (i : Instr) (s t : State), i.isCommand = true → exec i s = .next t →
    ∃ recs code value, t.out = s.out ++ recs ++ [.resp code value] ∧ ∀ r ∈ recs, r.isResp = false

/-- 60_exceptions.md R413 and 30_encoding.md R100 as the model reads them for wire units (log entry 5): a wire unit, which is no
command, changes nothing outside CONFIGURED, and where it runs it only adds records, never a response. -/
def Obligations.WireUnitsActOnlyInConfiguredAndNeverRespond : Prop :=
  ∀ (i : Instr) (s : State), i.isCommand = false →
    ((s.fatal = true ∨ s.configured = false) → exec i s = .next s) ∧
    ∃ t recs, exec i s = .next t ∧ t.out = s.out ++ recs ∧ ∀ r ∈ recs, r.isResp = false

/-- 30_encoding.md R101, 43_reassembly.md R260 (log entry 5): whatever the instance's variant, a frame or PDU unit does what the
RXFRM of its bytes does but for the response record, and a fragment unit is read as a fragment of the instance's family: its
record reassembled, or nothing where it is malformed. -/
def Obligations.WireUnitsAreProcessedAsTheirBytes : Prop :=
  ∀ (i : Instr) (s : State), s.configured = true → s.fatal = false →
    ((i.wireUnit = some .frame ∨ i.wireUnit = some .pdu) →
      ∃ t code value, exec i s = .next t ∧
        exec (.rxfrm (encode i)) s = .next { t with out := t.out ++ [.resp code value] }) ∧
    ((i.wireUnit = some .rleFragment ∨ i.wireUnit = some .gseFragment) →
      exec i s = .next
        (match deserialize s.family (encode i) with
        | none => s
        | some r => s.reassemble r))

/-! ## ENQ -/

/-- R190: ENQ's whole effect in CONFIGURED. -/
def Obligations.EnqChecksDropsOrAppends : Prop :=
  ∀ (dest : BitVec 32) (data : Bytes) (s : State), s.configured = true → s.fatal = false →
    exec (.enq dest data) s = .next
      (if data.length = 0 then
        { s with status := 0x402, errInfo := 0, out := s.out ++ [.resp .pktEmpty 0] }
      else if data.length > (if s.cfg.variant = 2 ∨ s.cfg.variant = 3 then 65535 else 4095) then
        { s with
          status := 0x302, errInfo := BitVec.ofNat 64 data.length
          out := s.out ++ [.resp .pktTooLarge (BitVec.ofNat 64 data.length)] }
      else if (s.txq.map (fun e => e.data.length)).sum + data.length > s.cfg.txbufMax.toNat then
        { s with cnt := { s.cnt with txbufDrop := s.cnt.txbufDrop + 1 }, out := s.out ++ [.resp .ok 0] }
      else
        { s with
          txq := s.txq ++ [⟨data, .full, s.now, dest, 0, BitVec.ofNat 16 data.length⟩]
          cnt := { s.cnt with enqAccepted := s.cnt.enqAccepted + 1 }
          out := s.out ++ [.resp .ok 1] })

/-! ## Fragmentation and TXOPP -/

/-- R230, R231: the plain TXOPP's whole effect in CONFIGURED, with BuildFrame as 42_fragmenter.md gives it. -/
def Obligations.PlainTxoppSendsTheBuiltFrameOrNothing : Prop :=
  ∀ (b : BitVec 32) (s : State), s.configured = true → s.fatal = false → s.arq = false →
    exec (.txopp b) s = .next
      (match s.buildFrame b.toNat with
      | none =>
        { s with
          cnt := { s.cnt with nullOpp := s.cnt.nullOpp + 1 }
          out := s.out ++ [.frameOut false [] (BitVec.ofNat 64 (txqBytes s.txq)), .resp .ok 0] }
      | some (f, s1) =>
        { s with
          txq := s1.txq, fragIdNext := s1.fragIdNext
          cnt := { s.cnt with framesSent := s.cnt.framesSent + 1 }
          out := s.out ++ [.frameOut true f (BitVec.ofNat 64 (txqBytes s1.txq)), .resp .ok 0] })

/-- R309: the ARQ TXOPP's whole effect in CONFIGURED: the head of RTXQ if it fits, else new data if a number is available and
BuildFrame returns a frame for one byte less, else nothing. -/
def Obligations.ArqTxoppResendsFirstThenSendsNew : Prop :=
  ∀ (b : BitVec 32) (s : State), s.configured = true → s.fatal = false → s.arq = true →
    (∀ c rest, s.rtxq = c :: rest → c.pdu.length ≤ b.toNat →
      exec (.txoppArq b) s = .next { s with
        rtxq := rest
        txd := mapInsert ArqCtx.seq { c with count := c.count + 1 } s.txd
        tmr := s.tmr.filter (fun t => !t.guards .rtx c.seq) ++ [⟨.rtx, c.seq, s.now.toNat + s.cfg.tRtx.toNat, s.stampNext⟩]
        stampNext := s.stampNext + 1
        cnt := { s.cnt with rtxSent := s.cnt.rtxSent + 1, framesSent := s.cnt.framesSent + 1 }
        out := s.out ++ [.frameOut true c.pdu
          (BitVec.ofNat 64 (txqBytes s.txq + (rest.map (fun d => d.pdu.length)).sum)), .resp .ok 0] }) ∧
    ((∀ c, s.rtxq.head? = some c → b.toNat < c.pdu.length) →
      (∀ f s1, s.available = true → 1 ≤ b.toNat → s.buildFrame (b.toNat - 1) = some (f, s1) →
        exec (.txoppArq b) s = .next { s with
          txq := s1.txq, fragIdNext := s1.fragIdNext, seqNext := s.seqNext + 1
          txd := mapInsert ArqCtx.seq ⟨s.seqNext, s.seqNext :: f, 0⟩ s.txd
          tmr := s.tmr.filter (fun t => !t.guards .rtx s.seqNext) ++
            [⟨.rtx, s.seqNext, s.now.toNat + s.cfg.tRtx.toNat, s.stampNext⟩]
          stampNext := s.stampNext + 1
          cnt := { s.cnt with framesSent := s.cnt.framesSent + 1 }
          out := s.out ++ [.frameOut true (s.seqNext :: f)
            (BitVec.ofNat 64 (txqBytes s1.txq + (s.rtxq.map (fun d => d.pdu.length)).sum)), .resp .ok 0] }) ∧
      ((s.available = false ∨ b.toNat = 0 ∨ s.buildFrame (b.toNat - 1) = none) →
        exec (.txoppArq b) s = .next { s with
          cnt := { s.cnt with nullOpp := s.cnt.nullOpp + 1 }
          out := s.out ++ [.frameOut false []
            (BitVec.ofNat 64 (txqBytes s.txq + (s.rtxq.map (fun d => d.pdu.length)).sum)), .resp .ok 0] }))

/-- The two opcode-table rows of opcode 0x02 agree in exec, and so do the two of 0x03, in every state. This is the model's reading
(log entry 4, DEDUCED), not R91's words; which rule the variant selects is said by the statements on TXOPP and RXFRM. -/
def Obligations.BothRowsOfOneOpcodeAgree : Prop :=
  ∀ (b : BitVec 32) (f : Bytes) (s : State),
    exec (.txoppArq b) s = exec (.txopp b) s ∧ exec (.rxfrmArq f) s = exec (.rxfrm f) s

/-- R301: a number is available in DISTANCE mode exactly when every number in flight is less than W below SEQ_NEXT, in COUNT
mode exactly when fewer than W are in flight and SEQ_NEXT is not one of them. -/
def Obligations.AvailabilityFollowsTheWindowMode : Prop :=
  ∀ s : State, s.available = true ↔
    if s.cfg.windowMode = 0 then
      ∀ c ∈ s.txd ++ s.rtxq, (s.seqNext - c.seq).toNat < s.cfg.arqWindow.toNat
    else
      (s.txd.map ArqCtx.seq ++ s.rtxq.map ArqCtx.seq).toFinset.card < s.cfg.arqWindow.toNat ∧
        ∀ c ∈ s.txd ++ s.rtxq, c.seq ≠ s.seqNext

/-- R232: a returned frame is its header and its 1 to 255 fragments, its length is the sum R232 gives and at most the budget,
and no fragment is longer than MAXFRAG. -/
def Obligations.FramesStayWithinBudgetAndFragmentCap : Prop :=
  ∀ (b : Nat) (s s1 : State) (f : Bytes), s.buildFrame b = some (f, s1) →
    ∃ frags : List Bytes, f = encode (.fph frags) ∧ 1 ≤ frags.length ∧ frags.length ≤ 255 ∧
      f.length = 1 + (frags.map (fun g => 4 + g.length)).sum ∧ f.length ≤ b ∧
      ∀ g ∈ frags, g.length ≤ cfgMaxFrag s.cfg

/-- R220 to R229: BuildFrame's whole effect. `avail i` is what the budget leaves after the frame's count byte and `i` whole
entries. It takes the entries that fit, from the front and in order, up to 255; then, if the next one can give at least
one byte, it splits `pay` bytes off it: a START with FRAG_ID_NEXT, which advances, off an untouched entry, a CONTINUATION off a
mid-chain one. With no fragment it returns NULL. -/
def Obligations.BuildFrameTakesWholeEntriesThenOneSplit : Prop :=
  ∀ (b : Nat) (s : State),
    let hs : Kind → Nat := overhead s.family
    let cap : Nat := cfgMaxFrag s.cfg
    let avail : Nat → Nat := fun i => b - 1 - ((s.txq.take i).map (fun e => 4 + hs e.wholeKind + e.data.length)).sum
    let fits : Nat → TxEntry → Prop := fun a e =>
      e.data.length + hs e.wholeKind ≤ cap ∧ 4 + hs e.wholeKind + e.data.length ≤ a
    let pay : Nat → TxEntry → Nat := fun a e => min (min (a - 4) cap - hs e.splitKind) (e.data.length - 1)
    ∃ n, n ≤ s.txq.length ∧ n ≤ 255 ∧
      (∀ i e, i < n → s.txq[i]? = some e → fits (avail i) e) ∧
      (∀ e, n < 255 → s.txq[n]? = some e → ¬ fits (avail n) e) ∧
      let whole := (s.txq.take n).map (fun e => serialize s.cfg e.wholeKind e.fid e e.data)
      ((n = 255 ∨ n = s.txq.length ∨ ∃ e, s.txq[n]? = some e ∧ pay (avail n) e = 0) →
        s.buildFrame b = if n = 0 then none else some (encode (.fph whole), { s with txq := s.txq.drop n })) ∧
      ∀ e, n < 255 → s.txq[n]? = some e → 1 ≤ pay (avail n) e →
        let p := pay (avail n) e
        (e.mid = false → s.buildFrame b = some
          (encode (.fph (whole ++ [serialize s.cfg .start s.fragIdNext e (e.data.take p)])),
            { s with
              txq := { e with data := e.data.drop p, tag := .end_, fid := s.fragIdNext } :: s.txq.drop (n + 1)
              fragIdNext := BitVec.ofNat 8 ((s.fragIdNext.toNat + 1) % s.family.fidMod) })) ∧
        (e.mid = true → s.buildFrame b = some
          (encode (.fph (whole ++ [serialize s.cfg .cont e.fid e (e.data.take p)])),
            { s with txq := { e with data := e.data.drop p, tag := .cont } :: s.txq.drop (n + 1) }))

/-- 42_fragmenter.md R233: with a front entry that fits the fragment cap whole, BuildFrame returns NULL exactly below the
least budget that carries it whole or splits one byte off it. -/
def Obligations.TheLeastOpportunityIsExact : Prop :=
  ∀ (b : Nat) (s : State) (e : TxEntry) (rest : List TxEntry), cfgFirstBad s.cfg = none → s.txq = e :: rest →
    1 ≤ e.data.length → e.data.length + overhead s.family e.wholeKind ≤ cfgMaxFrag s.cfg →
    (s.buildFrame b = none ↔
      if e.data.length = 1 then b < 6 + overhead s.family e.wholeKind
      else b < min (5 + overhead s.family e.wholeKind + e.data.length) (6 + overhead s.family e.splitKind))

/-- 42_fragmenter.md R220, R276: the receiver parses every frame BuildFrame returns, and the payload bytes of its records
followed by what is left in TXQ are the bytes that were in TXQ, in order. -/
def Obligations.FramesParseAndLoseNoByte : Prop :=
  ∀ (b : Nat) (s s1 : State) (f : Bytes), cfgFirstBad s.cfg = none → TxqLegal s → s.buildFrame b = some (f, s1) →
    ∃ recs, parseFrame s.family f = some recs ∧
      (recs.map (fun r => match r with
        | .full p => p | .start _ _ p => p | .cont _ p => p | .end_ _ p => p)).flatten ++
          (s1.txq.map TxEntry.data).flatten = (s.txq.map TxEntry.data).flatten

/-! ## Reassembly and RXFRM -/

/-- R263: Reassemble's whole effect, record by record. -/
def Obligations.ReassembleFollowsItsStateMachine : Prop :=
  ∀ (s : State) (fid : BitVec 8) (total : BitVec 16) (p : Bytes),
    let bad := { s.cnt with reasmDefect := s.cnt.reasmDefect + 1 }
    let bad2 := { s.cnt with reasmDefect := s.cnt.reasmDefect + 1 + 1 }
    s.reassemble (.start fid total p) =
      (if p.length > total.toNat then
        if s.raActive then { s with raActive := false, raBuf := [], cnt := bad2 } else { s with cnt := bad }
      else
        { s with
          raActive := true, raFid := fid, raTotal := total, raBuf := p
          cnt := if s.raActive then bad else s.cnt }) ∧
    s.reassemble (.full p) =
      (if s.raActive then
        { s with
          raActive := false, raBuf := [], out := s.out ++ [.pktOut p]
          cnt := { bad with pktDelivered := s.cnt.pktDelivered + 1 } }
      else
        { s with out := s.out ++ [.pktOut p], cnt := { s.cnt with pktDelivered := s.cnt.pktDelivered + 1 } }) ∧
    s.reassemble (.cont fid p) =
      (if s.raActive = false then { s with cnt := bad }
      else if fid ≠ s.raFid ∨ s.raBuf.length + p.length > s.raTotal.toNat then
        { s with raActive := false, raBuf := [], cnt := bad }
      else { s with raBuf := s.raBuf ++ p }) ∧
    s.reassemble (.end_ fid p) =
      (if s.raActive = false then { s with cnt := bad }
      else if fid ≠ s.raFid ∨ s.raBuf.length + p.length ≠ s.raTotal.toNat then
        { s with raActive := false, raBuf := [], cnt := bad }
      else
        { s with
          raActive := false, raBuf := [], out := s.out ++ [.pktOut (s.raBuf ++ p)]
          cnt := { s.cnt with pktDelivered := s.cnt.pktDelivered + 1 } })

/-- R275: the plain RXFRM's whole effect in CONFIGURED. -/
def Obligations.PlainRxfrmParsesThenReassembles : Prop :=
  ∀ (f : Bytes) (s : State), s.configured = true → s.fatal = false → s.arq = false →
    (parseFrame s.family f = none →
      exec (.rxfrm f) s = .next { s with
        cnt := { s.cnt with rxMalformed := s.cnt.rxMalformed + 1 }, out := s.out ++ [.resp .ok 0] }) ∧
    ∀ recs, parseFrame s.family f = some recs →
      ∃ t, t = recs.foldl (fun u r => u.reassemble r)
          { s with cnt := { s.cnt with framesRcvd := s.cnt.framesRcvd + 1 } } ∧
        exec (.rxfrm f) s = .next { t with out := t.out ++ [.resp .ok 0] }

/-- 40_codec.md R144, 43_reassembly.md R263 (log entry 5): in an RLE instance an RLE fragment unit completes as its record
reassembled, ids and totals zero-extended and reserved bits ignored. -/
def Obligations.RleFragmentsReassembleAsTheirRecords : Prop :=
  ∀ (s : State) (p : Bytes), s.configured = true → s.fatal = false → s.family = .rle → 1 ≤ p.length → p.length < 2048 →
    (∀ rsv, exec (.rleFull rsv p) s = .next (s.reassemble (.full p))) ∧
    (∀ fid total rsv, exec (.rleStart fid total rsv p) s =
      .next (s.reassemble (.start (fid.setWidth 8) (total.setWidth 16) p))) ∧
    (∀ fid, exec (.rleCont fid p) s = .next (s.reassemble (.cont (fid.setWidth 8) p))) ∧
    ∀ fid, exec (.rleEnd fid p) s = .next (s.reassemble (.end_ (fid.setWidth 8) p))

/-- 40_codec.md R154, 43_reassembly.md R263 (log entry 5): in a GSE instance a GSE fragment unit completes as its record
reassembled; LT, PT, LABEL and CRC are ignored. -/
def Obligations.GseFragmentsReassembleAsTheirRecords : Prop :=
  ∀ (s : State) (p : Bytes), s.configured = true → s.fatal = false → s.family = .gse → 1 ≤ p.length → p.length < 4096 →
    (∀ lt pt label crc, exec (.gseFull lt pt label p crc) s = .next (s.reassemble (.full p))) ∧
    (∀ lt fid total pt label, exec (.gseStart lt fid total pt label p) s = .next (s.reassemble (.start fid total p))) ∧
    (∀ lt fid, exec (.gseCont lt fid p) s = .next (s.reassemble (.cont fid p))) ∧
    ∀ lt fid crc, exec (.gseEnd lt fid p crc) s = .next (s.reassemble (.end_ fid p))

/-- 43_reassembly.md R260, R272, R275 (log entry 5): a plain RXFRM of a frame of well-formed fragments of the instance's family
is those fragments executed one after another, in the order packed, between the frame's count and the response. -/
def Obligations.RxfrmRunsItsFragmentsInOrder : Prop :=
  ∀ (units : List Instr) (s : State), s.configured = true → s.fatal = false → s.arq = false → units ≠ [] →
    units.length ≤ 255 → (∀ i ∈ units, i.wireUnit = some (fragmentUnit s.family) ∧ i.wf = true) →
    ∃ t, execAll units { s with cnt := { s.cnt with framesRcvd := s.cnt.framesRcvd + 1 } } = .next t ∧
      exec (.rxfrm (encode (.fph (units.map encode)))) s = .next { t with out := t.out ++ [.resp .ok 0] }

/-- 43_reassembly.md R260, R275 (log entry 5): in a plain instance a frame unit completes as the RXFRM of its bytes without the
response: counted malformed when a fragment is, else counted and its records reassembled in order. -/
def Obligations.FrameUnitsReassembleOrCountMalformed : Prop :=
  ∀ (frags : List Bytes) (s : State), s.configured = true → s.fatal = false → s.arq = false → fragsFit frags = true →
    exec (.fph frags) s = .next
      (match deserializeAll s.family frags with
      | none => { s with cnt := { s.cnt with rxMalformed := s.cnt.rxMalformed + 1 } }
      | some recs => recs.foldl (fun u r => u.reassemble r)
          { s with cnt := { s.cnt with framesRcvd := s.cnt.framesRcvd + 1 } })

/-- 43_reassembly.md R276, one opportunity: when receiver and sender are plain instances of one family and the receiver stands
where the sender left off, passing the frame of a TXOPP to RXFRM delivers exactly the next packets owed, in order and byte
for byte, counts no defect, and leaves the receiver where the sender then stands. -/
def Obligations.LosslessOpportunityDeliversWhatIsOwed : Prop :=
  ∀ (b : BitVec 32) (f : Bytes) (left : Reg64) (a a1 r : State),
    a.configured = true → a.fatal = false → a.arq = false → cfgFirstBad a.cfg = none → TxqLegal a →
    r.configured = true → r.fatal = false → r.arq = false → r.family = a.family → Linked a r →
    exec (.txopp b) a = .next a1 → a1.out = a.out ++ [.frameOut true f left, .resp .ok 0] →
    ∃ r1 recs, exec (.rxfrm f) r = .next r1 ∧ r1.out = r.out ++ recs.map OutRec.pktOut ++ [.resp .ok 0] ∧
      owed a r = recs ++ owed a1 r1 ∧ Linked a1 r1 ∧ r1.cnt.reasmDefect = r.cnt.reasmDefect ∧
      r1.cnt.rxMalformed = r.cnt.rxMalformed

/-- 43_reassembly.md R276, the other half: a packet ENQ accepts is owed last, and the link stands as before. -/
def Obligations.AcceptedPacketsAreOwedLast : Prop :=
  ∀ (dest : BitVec 32) (data : Bytes) (a a1 r : State), a.configured = true → a.fatal = false → Linked a r →
    exec (.enq dest data) a = .next a1 → a1.out = a.out ++ [.resp .ok 1] →
    owed a1 r = owed a r ++ [data] ∧ Linked a1 r

/-- 44_arq.md R346, one opportunity without loss: when sender and receiver are ARQ instances of one family and flow id, the
receiver expects the sender's next number and stands where the sender left off, and nothing waits for retransmission, then
passing the PDU of a TXOPP to RXFRM acknowledges it, delivers exactly the next packets owed, in order, and leaves the receiver
expecting the next number; passing the ACK back releases the PDU. -/
def Obligations.LosslessArqOpportunityDeliversAndIsReleased : Prop :=
  ∀ (b : BitVec 32) (pdu : Bytes) (left : Reg64) (a a1 r : State),
    a.configured = true → a.fatal = false → a.arq = true → CfgLegal a → TxqLegal a → SenderLegal a → a.rtxq = [] →
    r.configured = true → r.fatal = false → r.arq = true → r.family = a.family → r.cfg.flowId = a.cfg.flowId →
    r.ne = a.seqNext → r.rob = [] → Linked a r →
    exec (.txoppArq b) a = .next a1 → a1.out = a.out ++ [.frameOut true pdu left, .resp .ok 0] →
    ∃ r1 a2 recs, exec (.rxfrmArq pdu) r = .next r1 ∧
      r1.out = r.out ++ [.ackOut a.seqNext r.cfg.flowId] ++ recs.map OutRec.pktOut ++ [.resp .ok 0] ∧
      owed a r = recs ++ owed a1 r1 ∧ Linked a1 r1 ∧ r1.ne = a1.seqNext ∧ r1.rob = [] ∧
      r1.cnt.reasmDefect = r.cnt.reasmDefect ∧
      exec (.rxack a.seqNext r.cfg.flowId) a1 = .next a2 ∧ a2.out = a1.out ++ [.resp .ok 1] ∧ a2.txd = a.txd ∧ a2.rtxq = []

/-! ## ARQ receiver -/

/-- R340, R343: the ARQ RXFRM's whole effect in CONFIGURED, with InOrder and Ahead as R341 and R342 give them. -/
def Obligations.ArqRxfrmAcknowledgesAndClassifies : Prop :=
  ∀ (pdu : Bytes) (s : State), s.configured = true → s.fatal = false → s.arq = true →
    (parsePdu s.family pdu = none →
      exec (.rxfrmArq pdu) s = .next { s with
        cnt := { s.cnt with rxMalformed := s.cnt.rxMalformed + 1 }, out := s.out ++ [.resp .ok 0] }) ∧
    ∀ q recs, parsePdu s.family pdu = some (q, recs) →
      let acked : State := { s with
        cnt := { s.cnt with framesRcvd := s.cnt.framesRcvd + 1, ackSent := s.cnt.ackSent + 1 }
        out := s.out ++ [.ackOut q s.cfg.flowId] }
      let info : Reg64 := BitVec.ofNat 64 (s.ne.toNat * 256 + q.toNat)
      if (q - s.ne).toNat ≥ 128 ∧ s.cfg.stalePolicy = 1 then
        exec (.rxfrmArq pdu) s = .next { s with
          status := 0x602, errInfo := info, out := s.out ++ [.resp .staleSeq info] }
      else if (q - s.ne).toNat ≥ 128 then
        exec (.rxfrmArq pdu) s = .next { acked with
          cnt := { acked.cnt with rxDup := s.cnt.rxDup + 1 }, out := acked.out ++ [.resp .ok 0] }
      else if q = s.ne then
        exec (.rxfrmArq pdu) s = .next ((inOrder recs acked).respond .ok 0)
      else exec (.rxfrmArq pdu) s = .next ((ahead q recs acked).respond .ok 0)

/-- 44_arq.md R340 (log entry 5): in an ARQ instance a PDU unit completes as the RXFRM of its bytes, but for the response
record. -/
def Obligations.PduUnitsCompleteAsTheirRxfrm : Prop :=
  ∀ (q : Seq) (frame : Bytes) (s : State), s.configured = true → s.fatal = false → s.arq = true →
    ∃ t code value, exec (.arqSeq q frame) s = .next t ∧
      exec (.rxfrmArq (q :: frame)) s = .next { t with out := t.out ++ [.resp code value] } ∧
      (parseFrame s.family frame = none →
        t = { s with cnt := { s.cnt with rxMalformed := s.cnt.rxMalformed + 1 } }) ∧
      ∀ recs, parseFrame s.family frame = some recs → q = s.ne → t = inOrder recs { s with
        cnt := { s.cnt with framesRcvd := s.cnt.framesRcvd + 1, ackSent := s.cnt.ackSent + 1 }
        out := s.out ++ [.ackOut q s.cfg.flowId] }

/-- R341: InOrder's whole effect. A placeholder at NE goes with its Rx waiting timer, the records are reassembled, NE advances,
and the buffer is drained; afterwards ROB has no entry for the number, which no Rx waiting timer guards where it had one. -/
def Obligations.InOrderPdusAreReassembledAtOnce : Prop :=
  ∀ (recs : List FragRec) (s : State),
    let s1 : State :=
      if ∃ e ∈ s.rob, e.seq = s.ne then
        { s with
          rob := s.rob.filter (fun e => e.seq != s.ne)
          tmr := s.tmr.filter (fun t => !(t.kind == .rxw && t.seq == s.ne)) }
      else s
    let s2 := recs.foldl (fun u r => u.reassemble r) s1
    inOrder recs s = State.drain { s2 with ne := s.ne + 1 } ∧
    (∀ e ∈ (inOrder recs s).rob, e.seq ≠ s.ne) ∧
    ((∃ e ∈ s.rob, e.seq = s.ne) → ∀ t ∈ (inOrder recs s).tmr, t.guards .rxw s.ne = false)

/-- R344: Drain delivers the received entries from NE on and stops at the first number that is absent or only awaited: what it
leaves has no received entry at NE, and each number it passed had a received entry. -/
def Obligations.DrainStopsAtTheFirstGap : Prop :=
  ∀ s : State, KeysRise RobEntry.seq s.rob →
    (∀ e ∈ s.drain.rob, e.seq = s.drain.ne → e.received = false) ∧
    ∃ n : Nat, ∃ passed : List RobEntry, passed.length = n ∧
      (∀ i (h : i < passed.length), passed[i] ∈ s.rob ∧ passed[i].received = true ∧ passed[i].seq = s.ne + BitVec.ofNat 8 i) ∧
      s.drain.ne = s.ne + BitVec.ofNat 8 n ∧
      ∃ t, t = (passed.flatMap RobEntry.frags).foldl (fun u r => u.reassemble r) s ∧
        s.drain = { t with ne := s.drain.ne, rob := s.drain.rob } ∧
        s.drain.rob = s.rob.filter (fun e => !passed.contains e)

/-- R342: a PDU ahead that is already received is a duplicate: counted, and the first copy kept. Otherwise it is stored, every
missing number of the gap gets a placeholder whose Rx waiting timer runs out CFG_T_RXWAIT from now, in the order of the
numbers, entries already there stay, a filled placeholder's timer is cancelled, and everything else is as it was. -/
def Obligations.PdusAheadAreStoredAndTheGapAwaited : Prop :=
  ∀ (q : Seq) (recs : List FragRec) (s : State), ReceiverLegal s → 1 ≤ seqDist s.ne q → seqDist s.ne q ≤ 127 →
    let t := ahead q recs s
    let gap := (List.range (seqDist s.ne q)).filterMap (fun i =>
      if (mapFind RobEntry.seq (s.ne + BitVec.ofNat 8 i) s.rob).isSome then none else some (s.ne + BitVec.ofNat 8 i))
    ((∃ e, mapFind RobEntry.seq q s.rob = some e ∧ e.received = true) →
      t = { s with cnt := { s.cnt with rxDup := s.cnt.rxDup + 1 } }) ∧
    ((∀ e, mapFind RobEntry.seq q s.rob = some e → e.received = false) →
      mapFind RobEntry.seq q t.rob = some ⟨q, true, recs⟩ ∧
      (∀ k, k ≠ q → mapFind RobEntry.seq k t.rob =
        if k ∈ gap then some ⟨k, false, []⟩ else mapFind RobEntry.seq k s.rob) ∧
      ((∀ u ∈ s.tmr, u.kind = .rxw → u.seq ∉ gap) → t.tmr =
        (if (mapFind RobEntry.seq q s.rob).isSome then s.tmr.filter (fun u => !u.guards .rxw q) else s.tmr) ++
          gap.mapIdx (fun j k => ⟨.rxw, k, s.now.toNat + s.cfg.tRxwait.toNat, s.stampNext + j⟩)) ∧
      t = { s with rob := t.rob, tmr := t.tmr, stampNext := s.stampNext + gap.length })

/-! ## ACKs and timers -/

/-- R330, R331: RXACK's whole effect in CONFIGURED. -/
def Obligations.RxackReleasesOrIgnores : Prop :=
  ∀ (q : Seq) (flow : BitVec 8) (s : State), s.configured = true → s.fatal = false →
    exec (.rxack q flow) s = .next
      (if s.arq = true ∧ flow = s.cfg.flowId ∧ (∃ c ∈ s.txd, c.seq = q) then
        { s with
          txd := s.txd.filter (fun c => c.seq != q)
          tmr := s.tmr.filter (fun t => !(t.kind == .rtx && t.seq == q))
          cnt := { s.cnt with ackAccepted := s.cnt.ackAccepted + 1 }, out := s.out ++ [.resp .ok 1] }
      else if s.arq = true ∧ flow = s.cfg.flowId ∧ (∃ c ∈ s.rtxq, c.seq = q) then
        { s with
          rtxq := s.rtxq.filter (fun c => c.seq != q)
          cnt := { s.cnt with ackAccepted := s.cnt.ackAccepted + 1 }, out := s.out ++ [.resp .ok 1] }
      else
        { s with cnt := { s.cnt with ackIgnored := s.cnt.ackIgnored + 1 }, out := s.out ++ [.resp .ok 0] })

/-- 44_arq.md R330 and R175 (log entry 5): an ACK control message completes as the RXACK of its two bytes, but for the response
record. -/
def Obligations.AckMessagesCompleteAsRxack : Prop :=
  ∀ (q : Seq) (flow : BitVec 8) (s : State), s.configured = true → s.fatal = false →
    ∃ t v, exec (.ackMsg q flow) s = .next t ∧ exec (.rxack q flow) s = .next { t with out := t.out ++ [.resp .ok v] } ∧
      t.out = s.out ∧
      (t = { s with cnt := { s.cnt with ackIgnored := s.cnt.ackIgnored + 1 } } ∨
        t = { s with
          txd := t.txd, rtxq := t.rtxq, tmr := t.tmr, cnt := { s.cnt with ackAccepted := s.cnt.ackAccepted + 1 } })

/-- R332: an accepted ACK releases its number exactly once: it is in no buffer and guarded by no timer afterwards, and a second
ACK for it finds nothing. -/
def Obligations.AnAckReleasesExactlyOnce : Prop :=
  ∀ (q : Seq) (flow : BitVec 8) (s t : State), s.configured = true → s.fatal = false → SenderLegal s → TimersLegal s →
    exec (.rxack q flow) s = .next t → t.out = s.out ++ [.resp .ok 1] →
    q ∈ s.inflight ∧ q ∉ t.inflight ∧ t.inflight.length + 1 = s.inflight.length ∧
      (∀ u ∈ t.tmr, u.guards .rtx q = false) ∧
      exec (.rxack q flow) t = .next { t with
        cnt := { t.cnt with ackIgnored := t.cnt.ackIgnored + 1 }, out := t.out ++ [.resp .ok 0] }

/-- R320, R321: a firing retransmission timer counts a timeout and moves its PDU to the end of RTXQ, or, when its count has
reached CFG_MAX_RTX, gives it up; without a context it does nothing (R322). -/
def Obligations.RetransmissionTimeoutsRequeueOrGiveUp : Prop :=
  ∀ (q : Seq) (s : State),
    (mapFind ArqCtx.seq q s.txd = none → onRtxExpiry q s = s) ∧
    ∀ c, mapFind ArqCtx.seq q s.txd = some c →
      onRtxExpiry q s =
        if c.count.toNat < s.cfg.maxRtx.toNat then
          { s with
            txd := s.txd.filter (fun d => d.seq != q), rtxq := s.rtxq ++ [c]
            cnt := { s.cnt with rtxTimeout := s.cnt.rtxTimeout + 1 } }
        else
          { s with
            txd := s.txd.filter (fun d => d.seq != q)
            cnt := { s.cnt with rtxTimeout := s.cnt.rtxTimeout + 1, arqGiveup := s.cnt.arqGiveup + 1 } }

/-- R345: a firing Rx waiting timer forces its placeholder through, counts it and drains; anything else than a placeholder
makes it a no-op. -/
def Obligations.RxWaitExpiryForcesTheGapThrough : Prop :=
  ∀ (k : Seq) (s : State),
    ((∀ e, mapFind RobEntry.seq k s.rob = some e → e.received = true) → onRxwExpiry k s = s) ∧
    ∀ e, mapFind RobEntry.seq k s.rob = some e → e.received = false →
      onRxwExpiry k s = State.drain { s with
        rob := mapInsert RobEntry.seq ⟨k, true, []⟩ s.rob
        cnt := { s.cnt with rxwaitExpired := s.cnt.rxwaitExpired + 1 } }

/-- 45_system.md R375: a TICK that reaches no deadline only advances NOW, and `TICK 0` changes nothing, whatever the timers. -/
def Obligations.TicksThatReachNoDeadlineOnlyAdvanceTime : Prop :=
  ∀ (n : BitVec 32) (s : State), s.configured = true → s.fatal = false → s.now.toNat + n.toNat < 2 ^ 64 →
    (n = 0 → exec (.tick n) s = .next { s with out := s.out ++ [.resp .ok 0] }) ∧
    ((∀ t ∈ s.tmr, s.now.toNat + n.toNat < t.deadline) →
      exec (.tick n) s = .next { s with now := s.now + n.setWidth 64, out := s.out ++ [.resp .ok 0] })

/-- 45_system.md R375, R423: a TICK within virtual time completes, advances NOW by exactly its operand, removes exactly
the timers whose deadline it reaches, and arms none. -/
def Obligations.TicksFireEveryDueTimer : Prop :=
  ∀ (n : BitVec 32) (s : State), s.configured = true → s.fatal = false → s.now.toNat + n.toNat < 2 ^ 64 →
    (∀ t ∈ s.tmr, s.now.toNat < t.deadline) →
    ∃ t, exec (.tick n) s = .next t ∧ t.now.toNat = s.now.toNat + n.toNat ∧
      t.tmr = s.tmr.filter (fun u => decide (s.now.toNat + n.toNat < u.deadline)) ∧ t.stampNext = s.stampNext ∧
      t.txq = s.txq ∧ t.cfg = s.cfg ∧ t.status = s.status

/-- R375, R423: TICK's loops. A tick adds 1 to NOW and fires what is due; a TICK of several ticks is those ticks one after another;
and what fires is, as long as any timer is due, the one with the least (deadline, stamp), removed before its handler runs. -/
def Obligations.TicksFireInDeadlineOrder : Prop :=
  (∀ s : State, s.configured = true → s.fatal = false → s.now.toNat + 1 < 2 ^ 64 →
    ∃ t, t = State.fireDue { s with now := s.now + 1 } ∧
      exec (.tick 1) s = .next { t with out := t.out ++ [.resp .ok 0] }) ∧
  (∀ (m n : BitVec 32) (s : State), s.configured = true → s.fatal = false → m.toNat + n.toNat < 2 ^ 32 →
    s.now.toNat + m.toNat + n.toNat < 2 ^ 64 →
    ∃ t u, exec (.tick m) s = .next { t with out := t.out ++ [.resp .ok 0] } ∧ exec (.tick n) t = .next u ∧
      exec (.tick (m + n)) s = .next u) ∧
  ∀ s : State,
    ((∀ u ∈ s.tmr, s.now.toNat < u.deadline) → s.fireDue = s) ∧
    ∀ u ∈ s.tmr, u.deadline ≤ s.now.toNat →
      ∃ t ∈ s.tmr, t.deadline ≤ s.now.toNat ∧
        (∀ v ∈ s.tmr, t.deadline < v.deadline ∨ t.deadline = v.deadline ∧ t.stamp ≤ v.stamp) ∧
        s.fireDue = State.fireDue
          ((match t.kind with | .rtx => onRtxExpiry t.seq | .rxw => onRxwExpiry t.seq)
            { s with tmr := s.tmr.filter (fun v => v != t) })

/-- 00_scope.md R17 and 93_implementation_defined.md I9 (log entry 3): a TICK that would run and take NOW past 2^64 - 1 stops. -/
def Obligations.TicksPastVirtualTimeStop : Prop :=
  ∀ (n : BitVec 32) (s : State), s.configured = true → s.fatal = false → s.now.toNat + n.toNat ≥ 2 ^ 64 →
    exec (.tick n) s = .fault .virtualTimeExhausted

/-! ## Registers -/

/-- R380, R41: RDREG answers with the register of the map, in every state, and changes nothing else; an index the map does
not list reads 0. -/
def Obligations.RdregReadsTheRegisterMap : Prop :=
  ∀ (s : State) (idx : BitVec 8), exec (.rdreg idx) s = .next { s with out := s.out ++ [.resp .ok
    (match idx.toNat with
    | 0x00 => 0x534E5333454E4331
    | 0x01 => s.cfg.variant.setWidth 64
    | 0x02 => s.cfg.flowId.setWidth 64
    | 0x03 => s.cfg.windowMode.setWidth 64
    | 0x04 => s.cfg.stalePolicy.setWidth 64
    | 0x05 => s.cfg.arqWindow.setWidth 64
    | 0x06 => s.cfg.maxRtx.setWidth 64
    | 0x07 => s.cfg.tRtx.setWidth 64
    | 0x08 => s.cfg.tRxwait.setWidth 64
    | 0x09 => s.cfg.txbufMax.setWidth 64
    | 0x0A => s.cfg.gseMaxfrag.setWidth 64
    | 0x0B => s.cfg.gsePt.setWidth 64
    | 0x10 => s.status
    | 0x11 => s.errInfo
    | 0x12 => s.now
    | 0x13 => BitVec.ofNat 64 (s.txq.map (fun e => e.data.length)).sum
    | 0x14 => BitVec.ofNat 64 s.txq.length
    | 0x15 => (match s.txq with | [] => 0 | e :: _ => s.now - e.arrival)
    | 0x16 => s.fragIdNext.setWidth 64
    | 0x17 => BitVec.ofNat 64 (s.raActive.toNat + s.raFid.toNat * 2 ^ 8 + s.raTotal.toNat * 2 ^ 16 + s.raBuf.length % 2 ^ 32 * 2 ^ 32)
    | 0x18 => BitVec.ofNat 64 (s.seqNext.toNat + s.inflight.length % 2 ^ 8 * 2 ^ 8 + s.txd.length % 2 ^ 8 * 2 ^ 16 +
        s.rtxq.length % 2 ^ 8 * 2 ^ 24)
    | 0x19 => BitVec.ofNat 64 (s.ne.toNat + s.rob.length % 2 ^ 8 * 2 ^ 8 +
        (s.rob.filter (fun e => !e.received)).length % 2 ^ 8 * 2 ^ 16)
    | 0x1A => BitVec.ofNat 64 (s.rtxq.map (fun c => c.pdu.length)).sum
    | 0x1B => BitVec.ofNat 64 s.tmr.length
    | 0x20 => s.cnt.enqAccepted
    | 0x21 => s.cnt.txbufDrop
    | 0x22 => s.cnt.framesSent
    | 0x23 => s.cnt.nullOpp
    | 0x24 => s.cnt.framesRcvd
    | 0x25 => s.cnt.rxMalformed
    | 0x26 => s.cnt.pktDelivered
    | 0x27 => s.cnt.reasmDefect
    | 0x28 => s.cnt.rtxSent
    | 0x29 => s.cnt.arqGiveup
    | 0x2A => s.cnt.ackSent
    | 0x2B => s.cnt.ackAccepted
    | 0x2C => s.cnt.ackIgnored
    | 0x2D => s.cnt.rxDup
    | 0x2E => s.cnt.rxwaitExpired
    | 0x2F => s.cnt.rtxTimeout
    | _ => 0)] }

/-! ## Step -/

/-- R80, R90, R413: when the oldest waiting command decodes to an instruction for the instance's variant, the step takes it off
the port and is that instruction's execution. -/
def Obligations.StepRunsTheDecodedCommand : Prop :=
  ∀ (s : State) (c : Bytes) (rest : List Bytes) (i : Instr), s.port = c :: rest → decode s.arq c = .ok i →
    step s = exec i { s with port := rest }

/-- R433, R450: with no command waiting the block does nothing. -/
def Obligations.AnIdleBlockDoesNothing : Prop :=
  ∀ s : State, s.port = [] → step s = .next s

/-! ## Frames: what an instruction leaves alone -/

/-- R21, R25, R29, R31, R34: only RESET writes the configuration, only TICK and RESET write NOW, and no command but TXOPP and
RESET writes FRAG_ID_NEXT or SEQ_NEXT; only RXFRM, its wire units, TICK and RESET write NE. -/
def Obligations.OnlyTheNamedCommandsWriteEachRegister : Prop :=
  ∀ (i : Instr) (s t : State), i.isReset = false → exec i s = .next t →
    t.cfg = s.cfg ∧ t.port = s.port ∧
    ((∀ n, i ≠ .tick n) → t.now = s.now) ∧
    ((∀ b, i ≠ .txopp b ∧ i ≠ .txoppArq b) → t.fragIdNext = s.fragIdNext ∧ t.seqNext = s.seqNext) ∧
    ((∀ f n, i ≠ .rxfrm f ∧ i ≠ .rxfrmArq f ∧ i ≠ .tick n) → i.isCommand = true → t.ne = s.ne)

/-- R8: the halves are independent: ENQ, TXOPP and RXACK leave the whole receive half as it is, RXFRM and the fragments, frames
and PDUs it carries leave the whole transmit half as it is. -/
def Obligations.TheHalvesAreIndependent : Prop :=
  ∀ (s t : State),
    (∀ dest data b q flow, exec (.enq dest data) s = .next t ∨ exec (.txopp b) s = .next t ∨ exec (.txoppArq b) s = .next t ∨
      exec (.rxack q flow) s = .next t ∨ exec (.ackMsg q flow) s = .next t → SameReceiveHalf s t) ∧
    (∀ i : Instr, (∃ f, i = .rxfrm f ∨ i = .rxfrmArq f) ∨ (i.isCommand = false ∧ ∀ q flow, i ≠ .ackMsg q flow) →
      exec i s = .next t → SameTransmitHalf s t)

/-! ## Invariants -/

/-- R22: STATUS is always one of its legal words. -/
def Obligations.EveryStepKeepsStatusLegal : Prop :=
  ∀ s t : State, StatusLegal s → step s = .next t → StatusLegal t

/-- R27, R28, R194: TXQ, its byte bound and FRAG_ID_NEXT stay legal. -/
def Obligations.EveryStepKeepsTheTransmissionBufferLegal : Prop :=
  ∀ s t : State, TxqLegal s → step s = .next t → TxqLegal t

/-- R30, R261: the reassembly context and the records waiting in ROB stay legal. -/
def Obligations.EveryStepKeepsTheReassemblyContextLegal : Prop :=
  ∀ s t : State, ReassemblyLegal s → step s = .next t → ReassemblyLegal t

/-- R33, R35, R37, R302: the sequence window, the reordering buffer and the timers stay legal together. -/
def Obligations.EveryStepKeepsTheArqStateLegal : Prop :=
  ∀ s t : State, ArqLegal s → step s = .next t → ArqLegal t

/-- R40: in the plain variants the ARQ state stays at its reset values. -/
def Obligations.EveryStepKeepsPlainVariantsWithoutArqState : Prop :=
  ∀ s t : State, PlainLegal s → step s = .next t → PlainLegal t

/-- The invariants hold at power-on. -/
def Obligations.PowerOnIsLegal : Prop :=
  StatusLegal State.reset ∧ TxqLegal State.reset ∧ ReassemblyLegal State.reset ∧ ArqLegal State.reset ∧
    PlainLegal State.reset

/-! ## Encoding -/

/-- Every command is read back from its bytes by the decoder of the variant whose row it is. -/
def Obligations.CommandsDecodeToThemselves : Prop :=
  ∀ (arq : Bool) (i : Instr), i.isCommand = true → i.wf = true → i.fitsVariant arq = true → decode arq (encode i) = .ok i

/-- Every wire unit is read back from its bytes, every header field of it. -/
def Obligations.WireUnitsDecodeToThemselves : Prop :=
  ∀ (u : WireUnit) (i : Instr), i.wireUnit = some u → i.wf = true → decodeUnit u (encode i) = .ok i

/-- The decoders accept no other bytes: what decodes is the encoding of a well-formed instruction of the right kind. -/
def Obligations.DecodedBytesAreTheEncoding : Prop :=
  (∀ (arq : Bool) (c : Bytes) (i : Instr), decode arq c = .ok i →
    encode i = c ∧ i.wf = true ∧ i.isCommand = true ∧ i.fitsVariant arq = true) ∧
  ∀ (u : WireUnit) (b : Bytes) (i : Instr), decodeUnit u b = .ok i →
    encode i = b ∧ i.wf = true ∧ i.wireUnit = some u

/-- R91, R99: a command is rejected exactly when its opcode is defined and its length is not the one R91 gives. -/
def Obligations.CommandsAreRejectedExactlyForLength : Prop :=
  ∀ (arq : Bool) (c : Bytes),
    (∃ e, decode arq c = .error e) ↔
      (c.headD 0 = 0x01 ∧ ¬ (7 ≤ c.length ∧ c.length = 7 + (c.getD 5 0).toNat * 256 + (c.getD 6 0).toNat)) ∨
      (c.headD 0 = 0x02 ∧ c.length ≠ 5) ∨
      (c.headD 0 = 0x03 ∧ ¬ (5 ≤ c.length ∧ c.length = 5 + (c.getD 1 0).toNat * 2 ^ 24 + (c.getD 2 0).toNat * 2 ^ 16 +
        (c.getD 3 0).toNat * 2 ^ 8 + (c.getD 4 0).toNat)) ∨
      (c.headD 0 = 0x04 ∧ c.length ≠ 3) ∨ (c.headD 0 = 0x05 ∧ c.length ≠ 5) ∨ (c.headD 0 = 0x06 ∧ c.length ≠ 2) ∨
      (c.headD 0 = 0x0F ∧ c.length ≠ 23)

/-- R178: header round trip for every kind of both families, and for frames: the record comes back, `consumed` is the
serialized size of the kind, and the payload begins right after the bytes consumed. -/
def Obligations.SerializedFragmentsDeserialize : Prop :=
  (∀ (c : CfgBlock) (fid : BitVec 8) (e : TxEntry) (p : Bytes), 1 ≤ p.length →
    fid.toNat < (cfgFamily c).fidMod → e.total.toNat ≤ cfgMaxPkt c →
    p.length < (match cfgFamily c with | .rle => 2048 | .gse => 4096) →
    deserializeSized (cfgFamily c) (serialize c .full fid e p) = some (.full p, serializedSize (cfgFamily c) .full) ∧
    deserializeSized (cfgFamily c) (serialize c .start fid e p) =
      some (.start fid e.total p, serializedSize (cfgFamily c) .start) ∧
    deserializeSized (cfgFamily c) (serialize c .cont fid e p) = some (.cont fid p, serializedSize (cfgFamily c) .cont) ∧
    deserializeSized (cfgFamily c) (serialize c .end_ fid e p) = some (.end_ fid p, serializedSize (cfgFamily c) .end_) ∧
    ∀ k, (serialize c k fid e p).length = overhead (cfgFamily c) k + p.length ∧
      ((serialize c k fid e p).drop (serializedSize (cfgFamily c) k)).take p.length = p) ∧
  ∀ fs : List Bytes, fragsFit fs = true → decodeUnit .frame (encodeFph fs ++ fs.flatten) = .ok (.fph fs)

/-- A sanity check of bits: words written out from R92 to R98, R141, R142, R152, R166 and R175 decode to what they stand for. -/
def Obligations.SampleWordsDecode : Prop :=
  decode false [0x01, 0x00, 0xAB, 0xCD, 0xEF, 0x00, 0x02, 0x41, 0x42] = .ok (.enq 0x00ABCDEF [0x41, 0x42]) ∧
  decode true [0x02, 0x00, 0x00, 0x01, 0x2C] = .ok (.txoppArq 300) ∧
  decode false [0x06, 0x1A] = .ok (.rdreg 0x1A) ∧
  decodeUnit .rleFragment [0x80, 0x25, 0x12, 0xC0, 0x41, 0x42, 0x43, 0x44] =
    .ok (.rleStart 5 300 0 [0x41, 0x42, 0x43, 0x44]) ∧
  decodeUnit .gseFragment [0xD0, 0x02, 0x08, 0x00, 0x12, 0x34, 0x56, 0x41, 0x42, 0x00, 0x00, 0x00, 0x00] =
    .ok (.gseFull 1 0x0800 0x123456 [0x41, 0x42] 0) ∧
  decodeUnit .ack [0x00, 0x07] = .ok (.ackMsg 0 7)

/-- R144, R154, R170: what Deserialize says it consumed. Of any fragment that decodes, `consumed` is the serialized size of the
kind its two indicator bits show (2 or 4 bytes in RLE; 7, 10 or 3 in GSE), the payload is the bytes right after it, and the
trailer (4 bytes on a GSE FULL or END, else none) is all that follows. The ARQ sequence header consumes the one byte it is. -/
def Obligations.ConsumedBytesAreTheLeadingHeader : Prop :=
  (∀ (f : Family) (b : Bytes) (r : FragRec) (n : Nat), deserializeSized f b = some (r, n) →
    n = (match f, (b.headD 0).getLsbD 7, (b.headD 0).getLsbD 6 with
      | .rle, true, false => 4
      | .rle, _, _ => 2
      | .gse, true, true => 7
      | .gse, true, false => 10
      | .gse, false, _ => 3) ∧
    n = serializedSize f r.kind ∧ 1 ≤ r.payload.length ∧ (b.drop n).take r.payload.length = r.payload ∧
    b.length = n + r.payload.length + (if f = .gse ∧ (r.kind = .full ∨ r.kind = .end_) then 4 else 0)) ∧
  ∀ (b : Bytes) (q : Seq) (n : Nat), deserializeSeq b = some (q, n) → n = 1 ∧ b = q :: b.drop n
end

