-- ==== Sys2Proof/Laws/Codec.lean ====
section
/-! SUPPORT. Codec: bytes and fields of the encodings, joined and taken apart. -/

namespace Sys2Proof

/-! ## Byte order -/

@[simp] theorem be2_join (v : BitVec 16) : (v.extractLsb' 8 8 ++ v.extractLsb' 0 8 : BitVec 16) = v := by grind

@[simp] theorem be3_join (v : BitVec 24) :
    (v.extractLsb' 16 8 ++ v.extractLsb' 8 8 ++ v.extractLsb' 0 8 : BitVec 24) = v := by grind

@[simp] theorem be4_join (v : BitVec 32) :
    (v.extractLsb' 24 8 ++ v.extractLsb' 16 8 ++ v.extractLsb' 8 8 ++ v.extractLsb' 0 8 : BitVec 32) = v := by grind

@[simp] theorem be2_split (a b : Byte) : be2 (a ++ b) = [a, b] := by
  simp only [be2, List.cons.injEq, and_true]; grind

@[simp] theorem be3_split (a b c : Byte) : be3 (a ++ b ++ c) = [a, b, c] := by
  simp only [be3, List.cons.injEq, and_true]; grind

@[simp] theorem be4_split (a b c d : Byte) : be4 (a ++ b ++ c ++ d) = [a, b, c, d] := by
  simp only [be4, List.cons.injEq, and_true]; grind

@[simp] theorem be2_length (v : BitVec 16) : (be2 v).length = 2 := rfl
@[simp] theorem be3_length (v : BitVec 24) : (be3 v).length = 3 := rfl
@[simp] theorem be4_length (v : BitVec 32) : (be4 v).length = 4 := rfl

/-- A length that fits its field is read back from it. -/
theorem length_field {w n : Nat} (h : n < 2 ^ w) : (BitVec.ofNat w n).toNat = n := by
  simp [Nat.mod_eq_of_lt h]

/-! ## Header fields -/

/-- The fields of the RLE two-byte header (R141). -/
theorem rleShort_fields (s e : BitVec 1) (n : BitVec 11) (f : BitVec 3) :
    (s ++ e ++ n ++ f : BitVec 16).getLsbD 15 = s.getLsbD 0 ∧ (s ++ e ++ n ++ f : BitVec 16).getLsbD 14 = e.getLsbD 0 ∧
      (s ++ e ++ n ++ f : BitVec 16).extractLsb' 3 11 = n ∧ (s ++ e ++ n ++ f : BitVec 16).extractLsb' 0 3 = f := by
  refine ⟨?_, ?_, ?_, ?_⟩ <;> grind

/-- The fields of the RLE four-byte header (R142). -/
theorem rleLong_fields (s e : BitVec 1) (n : BitVec 11) (f : BitVec 3) (t : BitVec 12) (r : BitVec 4) :
    (s ++ e ++ n ++ f ++ t ++ r : BitVec 32).getLsbD 31 = s.getLsbD 0 ∧
      (s ++ e ++ n ++ f ++ t ++ r : BitVec 32).getLsbD 30 = e.getLsbD 0 ∧
      (s ++ e ++ n ++ f ++ t ++ r : BitVec 32).extractLsb' 19 11 = n ∧
      (s ++ e ++ n ++ f ++ t ++ r : BitVec 32).extractLsb' 16 3 = f ∧
      (s ++ e ++ n ++ f ++ t ++ r : BitVec 32).extractLsb' 4 12 = t ∧
      (s ++ e ++ n ++ f ++ t ++ r : BitVec 32).extractLsb' 0 4 = r := by
  refine ⟨?_, ?_, ?_, ?_, ?_, ?_⟩ <;> grind

/-- The fields of the GSE first word (R151). -/
theorem gseWord_fields (s e : BitVec 1) (l : BitVec 2) (n : BitVec 12) :
    (s ++ e ++ l ++ n : BitVec 16).getLsbD 15 = s.getLsbD 0 ∧ (s ++ e ++ l ++ n : BitVec 16).getLsbD 14 = e.getLsbD 0 ∧
      (s ++ e ++ l ++ n : BitVec 16).extractLsb' 12 2 = l ∧ (s ++ e ++ l ++ n : BitVec 16).extractLsb' 0 12 = n := by
  refine ⟨?_, ?_, ?_, ?_⟩ <;> grind

namespace Machine

/-! ## Deserialize -/

/-- What Deserialize can do: the unit decodes, its record comes back, and `consumed` is the leading header of the kind its first
byte shows. -/
theorem deserializeSized_eq_some {f : Family} {b : Bytes} {r : FragRec} {n : Nat} :
    deserializeSized f b = some (r, n) ↔
      (∃ i, decodeUnit (fragmentUnit f) b = .ok i ∧ fragRecord i = some r) ∧ n = serializedSize f (kindOf (b.headD 0)) := by
  rcases h : decodeUnit (fragmentUnit f) b with e | i
  · simp [deserializeSized, h]
  · simp [deserializeSized, h, eq_comm]

/-- The record alone is the one of the unit that decodes. -/
theorem deserialize_eq_some {f : Family} {b : Bytes} {r : FragRec} :
    deserialize f b = some r ↔ ∃ i, decodeUnit (fragmentUnit f) b = .ok i ∧ fragRecord i = some r := by
  simp [deserialize, deserializeSized_eq_some]

/-- The sequence byte is taken off a PDU that has one. -/
@[simp] theorem deserializeSeq_cons (q : Seq) (frame : Bytes) : deserializeSeq (q :: frame) = some (q, 1) := rfl
@[simp] theorem deserializeSeq_nil : deserializeSeq [] = none := rfl

/-- A PDU is its sequence byte and a frame that parses. -/
theorem parsePdu_cons (f : Family) (q : Seq) (frame : Bytes) :
    parsePdu f (q :: frame) = (parseFrame f frame).map (fun recs => (q, recs)) := by
  simp only [parsePdu, deserializeSeq_cons, List.drop_one, List.tail_cons]
  cases parseFrame f frame <;> rfl

end Machine

end Sys2Proof
end

