-- ==== Sys2Proof/Laws/Maps.lean ====
section
/-! SUPPORT. Maps: the keyed maps TXD and ROB, what insertion, removal and lookup do, and that the canonical form (keys strictly
rising) is kept. -/

namespace Sys2Proof.Machine

variable {α : Type} {key : α → Seq}

theorem mem_mapErase {k : Seq} {l : List α} {a : α} : a ∈ mapErase key k l ↔ a ∈ l ∧ key a ≠ k := by
  simp [mapErase]

theorem length_mapErase_le (k : Seq) (l : List α) : (mapErase key k l).length ≤ l.length := List.length_filter_le _ _

/-- Removing a key keeps the canonical form. -/
theorem KeysRise.mapErase {l : List α} (h : KeysRise key l) (k : Seq) : KeysRise key (mapErase key k l) := by
  rw [KeysRise, List.pairwise_map] at h ⊢
  exact h.filter _

theorem keysRise_nil : KeysRise key ([] : List α) := List.Pairwise.nil

theorem keysRise_cons {b : α} {l : List α} :
    KeysRise key (b :: l) ↔ (∀ a ∈ l, (key b).toNat < (key a).toNat) ∧ KeysRise key l := by
  simp [KeysRise, List.pairwise_map]

/-- In canonical form a key has at most one entry. -/
theorem KeysRise.unique {l : List α} (h : KeysRise key l) {a b : α} (ha : a ∈ l) (hb : b ∈ l) (e : key a = key b) :
    a = b := by
  induction l with
  | nil => cases ha
  | cons c l ih =>
    rw [keysRise_cons] at h
    rcases List.mem_cons.1 ha with rfl | ha' <;> rcases List.mem_cons.1 hb with rfl | hb'
    · rfl
    · exact absurd (congrArg BitVec.toNat e) (h.1 b hb').ne
    · exact absurd (congrArg BitVec.toNat e) (h.1 a ha').ne'
    · exact ih h.2 ha' hb'

/-- In canonical form the entries after an insertion are the new one and the old ones of other keys. -/
theorem mem_mapInsert {l : List α} (h : KeysRise key l) {a b : α} :
    b ∈ mapInsert key a l ↔ b = a ∨ b ∈ l ∧ key b ≠ key a := by
  induction l with
  | nil => simp [mapInsert]
  | cons c l ih =>
    rw [keysRise_cons] at h
    have hlt : ∀ x ∈ l, (key c).toNat < (key x).toNat := h.1
    have other : ∀ x ∈ l, (key a).toNat ≤ (key c).toNat → key x ≠ key a := fun x hx hac e => by
      have := hlt x hx; rw [e] at this; omega
    simp only [mapInsert]
    split
    · rename_i hac
      have hc : key c ≠ key a := fun e => by rw [e] at hac; omega
      simp only [List.mem_cons]
      constructor
      · rintro (rfl | rfl | hb)
        exacts [.inl rfl, .inr ⟨.inl rfl, hc⟩, .inr ⟨.inr hb, other b hb (by omega)⟩]
      · rintro (rfl | ⟨rfl | hb, -⟩)
        exacts [.inl rfl, .inr (.inl rfl), .inr (.inr hb)]
    · split
      · rename_i hac
        simp only [List.mem_cons]
        constructor
        · rintro (rfl | hb)
          exacts [.inl rfl, .inr ⟨.inr hb, other b hb (by rw [hac])⟩]
        · rintro (rfl | ⟨rfl | hb, hn⟩)
          exacts [.inl rfl, absurd hac.symm hn, .inr hb]
      · rename_i hac
        simp only [List.mem_cons, ih h.2]
        constructor
        · rintro (rfl | rfl | ⟨hb, hn⟩)
          exacts [.inr ⟨.inl rfl, fun e => hac e.symm⟩, .inl rfl, .inr ⟨.inr hb, hn⟩]
        · rintro (rfl | ⟨rfl | hb, hn⟩)
          exacts [.inr (.inl rfl), .inl rfl, .inr (.inr ⟨hb, hn⟩)]

/-- Inserting keeps the canonical form. -/
theorem KeysRise.mapInsert {l : List α} (h : KeysRise key l) (a : α) : KeysRise key (mapInsert key a l) := by
  induction l with
  | nil => simp [Machine.mapInsert, keysRise_cons, keysRise_nil]
  | cons c l ih =>
    have h' := keysRise_cons.1 h
    rw [Machine.mapInsert]
    split
    · rename_i hac
      refine keysRise_cons.2 ⟨fun x hx => ?_, h⟩
      rcases List.mem_cons.1 hx with rfl | hx
      exacts [hac, hac.trans (h'.1 x hx)]
    · split
      · rename_i hac
        exact keysRise_cons.2 ⟨fun x hx => by rw [hac]; exact h'.1 x hx, h'.2⟩
      · rename_i h1 h2
        refine keysRise_cons.2 ⟨fun x hx => ?_, ih h'.2⟩
        rcases (mem_mapInsert h'.2).1 hx with rfl | ⟨hx, -⟩
        · have : (key x).toNat ≠ (key c).toNat := fun e => h2 (BitVec.eq_of_toNat_eq e)
          omega
        · exact h'.1 x hx

/-- What a lookup finds is an entry of that key. -/
theorem mapFind_some {l : List α} {k : Seq} {a : α} (h : mapFind key k l = some a) : a ∈ l ∧ key a = k := by
  have := List.find?_some h
  exact ⟨List.mem_of_find?_eq_some h, by simpa using this⟩

theorem mapFind_eq_none {l : List α} {k : Seq} : mapFind key k l = none ↔ ∀ a ∈ l, key a ≠ k := by
  simp [mapFind]

theorem mapFind_isSome {l : List α} {k : Seq} : (mapFind key k l).isSome = true ↔ ∃ a ∈ l, key a = k := by
  simp [mapFind]

/-- In canonical form a lookup finds exactly the entry of the key. -/
theorem mapFind_eq_some {l : List α} (h : KeysRise key l) {k : Seq} {a : α} :
    mapFind key k l = some a ↔ a ∈ l ∧ key a = k := by
  refine ⟨mapFind_some, fun ⟨ha, e⟩ => ?_⟩
  rcases hf : mapFind key k l with _ | b
  · exact absurd e (mapFind_eq_none.1 hf a ha)
  · have := mapFind_some hf
    rw [h.unique this.1 ha (this.2.trans e.symm)]

/-- Lookup after insertion (read after write). -/
theorem mapFind_mapInsert {l : List α} (h : KeysRise key l) (a : α) (k : Seq) :
    mapFind key k (mapInsert key a l) = if key a = k then some a else mapFind key k l := by
  apply Option.ext
  intro b
  rw [mapFind_eq_some (h.mapInsert a), mem_mapInsert h]
  split
  · rename_i e; subst e
    simp only [Option.some.injEq]
    constructor
    · rintro ⟨rfl | ⟨-, hn⟩, hk⟩
      exacts [rfl, absurd hk hn]
    · rintro rfl; exact ⟨.inl rfl, rfl⟩
  · rename_i hk
    rw [mapFind_eq_some h]
    constructor
    · rintro ⟨rfl | ⟨hb, -⟩, e⟩
      exacts [absurd e hk, ⟨hb, e⟩]
    · rintro ⟨hb, rfl⟩; exact ⟨.inr ⟨hb, fun e => hk e.symm⟩, rfl⟩

/-- Lookup after removal. -/
theorem mapFind_mapErase (l : List α) (k j : Seq) :
    mapFind key j (mapErase key k l) = if j = k then none else mapFind key j l := by
  induction l with
  | nil => simp [mapFind, mapErase]
  | cons a l ih => simp only [mapFind, mapErase, List.filter_cons, List.find?_cons] at ih ⊢; grind

end Sys2Proof.Machine
end

