-- ==== Sys2Proof/Laws/PerInstr.lean ====
section
/-! SUPPORT. PerInstr: per-instruction facts about encodings, one lemma per constructor. -/

namespace Sys2Proof

/-- The number of bytes the spec gives an instruction's encoding: R91 for a command, the header, payload and trailer of R140 and
R150 for a fragment, R110, R111 and R175 for the other units. -/
def Instr.encodedSize : Instr → Nat
  | .enq _ data => 7 + data.length
  | .txopp _ => 5
  | .txoppArq _ => 5
  | .rxfrm frame => 5 + frame.length
  | .rxfrmArq pdu => 5 + pdu.length
  | .rxack _ _ => 3
  | .tick _ => 5
  | .rdreg _ => 2
  | .reset _ => 23
  | .reserved00 c => c.length
  | .reserved07 c => c.length
  | .reserved08 c => c.length
  | .reserved0C c => c.length
  | .reserved0E c => c.length
  | .reserved10 c => c.length
  | .reserved20 c => c.length
  | .reserved40 c => c.length
  | .reserved80 c => c.length
  | .rleFull _ p => 2 + p.length
  | .rleStart _ _ _ p => 4 + p.length
  | .rleCont _ p => 2 + p.length
  | .rleEnd _ p => 2 + p.length
  | .gseFull _ _ _ p _ => 11 + p.length
  | .gseStart _ _ _ _ _ p => 10 + p.length
  | .gseCont _ _ p => 3 + p.length
  | .gseEnd _ _ p _ => 7 + p.length
  | .fph fs => 1 + 4 * fs.length + (fs.map List.length).sum
  | .arqSeq _ frame => 1 + frame.length
  | .ackMsg _ _ => 2

namespace Laws.EncodedLength

/-- A command is as long as R91 says, read from its own first bytes; every instruction is as long as its encoding's size. -/
def Statement (i : Instr) : Prop :=
  (encode i).length = i.encodedSize ∧ (i.isCommand = true → i.wf = true → commandLength (encode i) = i.encodedSize)

/-- For a reserved opcode any length is the length (R91). -/
theorem reserved_length {c : Bytes} {m p : Byte} (h : (OpcodeRow.mk m p).covers (opcodeOf c) = true)
    (hr : ∀ op ∈ ([0x01, 0x02, 0x03, 0x04, 0x05, 0x06, 0x0F] : List Byte), (OpcodeRow.mk m p).covers op = false) :
    commandLength c = c.length := by
  have n : ∀ op ∈ ([0x01, 0x02, 0x03, 0x04, 0x05, 0x06, 0x0F] : List Byte), opcodeOf c ≠ op := fun op ho e => by
    have := hr op ho
    rw [e, this] at h
    cases h
  simp only [List.mem_cons, List.not_mem_nil, or_false, forall_eq_or_imp, forall_eq] at n
  obtain ⟨n1, n2, n3, n4, n5, n6, n7⟩ := n
  simp only [commandLength, if_neg n1, if_neg n2, if_neg n3, if_neg n4, if_neg n5, if_neg n6, if_neg n7]

theorem enq (dest : BitVec 32) (data : Bytes) : Statement (.enq dest data) := by
  refine ⟨by simp [encode, Instr.encodedSize]; omega, fun _ h => ?_⟩
  have hl : (BitVec.ofNat 16 data.length).toNat = data.length := length_field (by simpa [Instr.wf] using h)
  simp only [commandLength, encode, opcodeOf, be4, be2, List.cons_append, List.nil_append, List.headD_cons,
    List.getD_cons_succ, List.getD_cons_zero, be2_join, hl, Instr.encodedSize]
  rfl
theorem txopp (budget : BitVec 32) : Statement (.txopp budget) := ⟨rfl, fun _ _ => rfl⟩
theorem txoppArq (budget : BitVec 32) : Statement (.txoppArq budget) := ⟨rfl, fun _ _ => rfl⟩
theorem rxfrm (frame : Bytes) : Statement (.rxfrm frame) := by
  refine ⟨by simp [encode, Instr.encodedSize]; omega, fun _ h => ?_⟩
  have hl : (BitVec.ofNat 32 frame.length).toNat = frame.length := length_field (by simpa [Instr.wf] using h)
  simp only [commandLength, encode, opcodeOf, be4, List.cons_append, List.nil_append, List.headD_cons,
    List.getD_cons_succ, List.getD_cons_zero, be4_join, hl, Instr.encodedSize]
  rfl
theorem rxfrmArq (pdu : Bytes) : Statement (.rxfrmArq pdu) := by
  refine ⟨by simp [encode, Instr.encodedSize]; omega, fun _ h => ?_⟩
  have hl : (BitVec.ofNat 32 pdu.length).toNat = pdu.length := length_field (by simpa [Instr.wf] using h)
  simp only [commandLength, encode, opcodeOf, be4, List.cons_append, List.nil_append, List.headD_cons,
    List.getD_cons_succ, List.getD_cons_zero, be4_join, hl, Instr.encodedSize]
  rfl
theorem rxack (seq : Seq) (flow : BitVec 8) : Statement (.rxack seq flow) := ⟨rfl, fun _ _ => rfl⟩
theorem tick (n : BitVec 32) : Statement (.tick n) := ⟨rfl, fun _ _ => rfl⟩
theorem rdreg (idx : BitVec 8) : Statement (.rdreg idx) := ⟨rfl, fun _ _ => rfl⟩
theorem reset (cfg : CfgBlock) : Statement (.reset cfg) := ⟨rfl, fun _ _ => rfl⟩
theorem reserved00 (c : Bytes) : Statement (.reserved00 c) := ⟨rfl, fun _ h => reserved_length h (by decide)⟩
theorem reserved07 (c : Bytes) : Statement (.reserved07 c) := ⟨rfl, fun _ h => reserved_length h (by decide)⟩
theorem reserved08 (c : Bytes) : Statement (.reserved08 c) := ⟨rfl, fun _ h => reserved_length h (by decide)⟩
theorem reserved0C (c : Bytes) : Statement (.reserved0C c) := ⟨rfl, fun _ h => reserved_length h (by decide)⟩
theorem reserved0E (c : Bytes) : Statement (.reserved0E c) := ⟨rfl, fun _ h => reserved_length h (by decide)⟩
theorem reserved10 (c : Bytes) : Statement (.reserved10 c) := ⟨rfl, fun _ h => reserved_length h (by decide)⟩
theorem reserved20 (c : Bytes) : Statement (.reserved20 c) := ⟨rfl, fun _ h => reserved_length h (by decide)⟩
theorem reserved40 (c : Bytes) : Statement (.reserved40 c) := ⟨rfl, fun _ h => reserved_length h (by decide)⟩
theorem reserved80 (c : Bytes) : Statement (.reserved80 c) := ⟨rfl, fun _ h => reserved_length h (by decide)⟩
theorem rleFull (rsv : BitVec 3) (payload : Bytes) : Statement (.rleFull rsv payload) :=
  ⟨by simp [encode, Instr.encodedSize], by simp [Instr.isCommand, Instr.wireUnit]⟩
theorem rleStart (fid : BitVec 3) (total : BitVec 12) (rsv : BitVec 4) (payload : Bytes) :
    Statement (.rleStart fid total rsv payload) :=
  ⟨by simp [encode, Instr.encodedSize], by simp [Instr.isCommand, Instr.wireUnit]⟩
theorem rleCont (fid : BitVec 3) (payload : Bytes) : Statement (.rleCont fid payload) :=
  ⟨by simp [encode, Instr.encodedSize], by simp [Instr.isCommand, Instr.wireUnit]⟩
theorem rleEnd (fid : BitVec 3) (payload : Bytes) : Statement (.rleEnd fid payload) :=
  ⟨by simp [encode, Instr.encodedSize], by simp [Instr.isCommand, Instr.wireUnit]⟩
theorem gseFull (lt : BitVec 2) (pt : BitVec 16) (label : BitVec 24) (payload : Bytes) (crc : BitVec 32) :
    Statement (.gseFull lt pt label payload crc) :=
  ⟨by simp [encode, Instr.encodedSize]; omega, by simp [Instr.isCommand, Instr.wireUnit]⟩
theorem gseStart (lt : BitVec 2) (fid : BitVec 8) (total : BitVec 16) (pt : BitVec 16) (label : BitVec 24) (payload : Bytes) :
    Statement (.gseStart lt fid total pt label payload) :=
  ⟨by simp [encode, Instr.encodedSize]; omega, by simp [Instr.isCommand, Instr.wireUnit]⟩
theorem gseCont (lt : BitVec 2) (fid : BitVec 8) (payload : Bytes) : Statement (.gseCont lt fid payload) :=
  ⟨by simp [encode, Instr.encodedSize]; omega, by simp [Instr.isCommand, Instr.wireUnit]⟩
theorem gseEnd (lt : BitVec 2) (fid : BitVec 8) (payload : Bytes) (crc : BitVec 32) :
    Statement (.gseEnd lt fid payload crc) :=
  ⟨by simp [encode, Instr.encodedSize]; omega, by simp [Instr.isCommand, Instr.wireUnit]⟩
theorem fph (frags : List Bytes) : Statement (.fph frags) := by
  refine ⟨?_, by simp [Instr.isCommand, Instr.wireUnit]⟩
  have : (frags.flatMap (fun f => be4 (BitVec.ofNat 32 f.length))).length = 4 * frags.length := by
    induction frags with
    | nil => rfl
    | cons f fs ih => simp only [List.flatMap_cons, List.length_append, be4_length, ih, List.length_cons]; omega
  simp only [encode, encodeFph, Instr.encodedSize, List.length_append, List.length_cons, this, List.length_flatten]
  omega
theorem arqSeq (seq : Seq) (frame : Bytes) : Statement (.arqSeq seq frame) :=
  ⟨by simp [encode, Instr.encodedSize]; omega, by simp [Instr.isCommand, Instr.wireUnit]⟩
theorem ackMsg (seq : Seq) (flow : BitVec 8) : Statement (.ackMsg seq flow) :=
  ⟨rfl, by simp [Instr.isCommand, Instr.wireUnit]⟩

end Laws.EncodedLength

end Sys2Proof
end

