-- ==== Sys2Proof/Laws/State.lean ====
section
/-! SUPPORT. State: each field of the state after each primitive update, and each counter after one event. -/

namespace Sys2Proof.Machine

@[simp] theorem State.emit_port (r : OutRec) (s : State) : (s.emit r).port = s.port := rfl
@[simp] theorem State.emit_cfg (r : OutRec) (s : State) : (s.emit r).cfg = s.cfg := rfl
@[simp] theorem State.emit_status (r : OutRec) (s : State) : (s.emit r).status = s.status := rfl
@[simp] theorem State.emit_errInfo (r : OutRec) (s : State) : (s.emit r).errInfo = s.errInfo := rfl
@[simp] theorem State.emit_now (r : OutRec) (s : State) : (s.emit r).now = s.now := rfl
@[simp] theorem State.emit_stampNext (r : OutRec) (s : State) : (s.emit r).stampNext = s.stampNext := rfl
@[simp] theorem State.emit_txq (r : OutRec) (s : State) : (s.emit r).txq = s.txq := rfl
@[simp] theorem State.emit_fragIdNext (r : OutRec) (s : State) : (s.emit r).fragIdNext = s.fragIdNext := rfl
@[simp] theorem State.emit_raActive (r : OutRec) (s : State) : (s.emit r).raActive = s.raActive := rfl
@[simp] theorem State.emit_raFid (r : OutRec) (s : State) : (s.emit r).raFid = s.raFid := rfl
@[simp] theorem State.emit_raTotal (r : OutRec) (s : State) : (s.emit r).raTotal = s.raTotal := rfl
@[simp] theorem State.emit_raBuf (r : OutRec) (s : State) : (s.emit r).raBuf = s.raBuf := rfl
@[simp] theorem State.emit_seqNext (r : OutRec) (s : State) : (s.emit r).seqNext = s.seqNext := rfl
@[simp] theorem State.emit_txd (r : OutRec) (s : State) : (s.emit r).txd = s.txd := rfl
@[simp] theorem State.emit_rtxq (r : OutRec) (s : State) : (s.emit r).rtxq = s.rtxq := rfl
@[simp] theorem State.emit_ne (r : OutRec) (s : State) : (s.emit r).ne = s.ne := rfl
@[simp] theorem State.emit_rob (r : OutRec) (s : State) : (s.emit r).rob = s.rob := rfl
@[simp] theorem State.emit_tmr (r : OutRec) (s : State) : (s.emit r).tmr = s.tmr := rfl
@[simp] theorem State.emit_cnt (r : OutRec) (s : State) : (s.emit r).cnt = s.cnt := rfl
@[simp] theorem State.emit_out (r : OutRec) (s : State) : (s.emit r).out = s.out ++ [r] := rfl

@[simp] theorem State.respond_port (c : Cause) (v : Reg64) (s : State) : (s.respond c v).port = s.port := rfl
@[simp] theorem State.respond_cfg (c : Cause) (v : Reg64) (s : State) : (s.respond c v).cfg = s.cfg := rfl
@[simp] theorem State.respond_status (c : Cause) (v : Reg64) (s : State) : (s.respond c v).status = s.status := rfl
@[simp] theorem State.respond_errInfo (c : Cause) (v : Reg64) (s : State) : (s.respond c v).errInfo = s.errInfo := rfl
@[simp] theorem State.respond_now (c : Cause) (v : Reg64) (s : State) : (s.respond c v).now = s.now := rfl
@[simp] theorem State.respond_stampNext (c : Cause) (v : Reg64) (s : State) : (s.respond c v).stampNext = s.stampNext := rfl
@[simp] theorem State.respond_txq (c : Cause) (v : Reg64) (s : State) : (s.respond c v).txq = s.txq := rfl
@[simp] theorem State.respond_fragIdNext (c : Cause) (v : Reg64) (s : State) : (s.respond c v).fragIdNext = s.fragIdNext := rfl
@[simp] theorem State.respond_raActive (c : Cause) (v : Reg64) (s : State) : (s.respond c v).raActive = s.raActive := rfl
@[simp] theorem State.respond_raFid (c : Cause) (v : Reg64) (s : State) : (s.respond c v).raFid = s.raFid := rfl
@[simp] theorem State.respond_raTotal (c : Cause) (v : Reg64) (s : State) : (s.respond c v).raTotal = s.raTotal := rfl
@[simp] theorem State.respond_raBuf (c : Cause) (v : Reg64) (s : State) : (s.respond c v).raBuf = s.raBuf := rfl
@[simp] theorem State.respond_seqNext (c : Cause) (v : Reg64) (s : State) : (s.respond c v).seqNext = s.seqNext := rfl
@[simp] theorem State.respond_txd (c : Cause) (v : Reg64) (s : State) : (s.respond c v).txd = s.txd := rfl
@[simp] theorem State.respond_rtxq (c : Cause) (v : Reg64) (s : State) : (s.respond c v).rtxq = s.rtxq := rfl
@[simp] theorem State.respond_ne (c : Cause) (v : Reg64) (s : State) : (s.respond c v).ne = s.ne := rfl
@[simp] theorem State.respond_rob (c : Cause) (v : Reg64) (s : State) : (s.respond c v).rob = s.rob := rfl
@[simp] theorem State.respond_tmr (c : Cause) (v : Reg64) (s : State) : (s.respond c v).tmr = s.tmr := rfl
@[simp] theorem State.respond_cnt (c : Cause) (v : Reg64) (s : State) : (s.respond c v).cnt = s.cnt := rfl
@[simp] theorem State.respond_out (c : Cause) (v : Reg64) (s : State) : (s.respond c v).out = s.out ++ [.resp c v] := rfl

@[simp] theorem State.refuse_port (c : Cause) (s : State) : (s.refuse c).port = s.port := rfl
@[simp] theorem State.refuse_cfg (c : Cause) (s : State) : (s.refuse c).cfg = s.cfg := rfl
@[simp] theorem State.refuse_status (c : Cause) (s : State) : (s.refuse c).status = s.status := rfl
@[simp] theorem State.refuse_errInfo (c : Cause) (s : State) : (s.refuse c).errInfo = s.errInfo := rfl
@[simp] theorem State.refuse_now (c : Cause) (s : State) : (s.refuse c).now = s.now := rfl
@[simp] theorem State.refuse_stampNext (c : Cause) (s : State) : (s.refuse c).stampNext = s.stampNext := rfl
@[simp] theorem State.refuse_txq (c : Cause) (s : State) : (s.refuse c).txq = s.txq := rfl
@[simp] theorem State.refuse_fragIdNext (c : Cause) (s : State) : (s.refuse c).fragIdNext = s.fragIdNext := rfl
@[simp] theorem State.refuse_raActive (c : Cause) (s : State) : (s.refuse c).raActive = s.raActive := rfl
@[simp] theorem State.refuse_raFid (c : Cause) (s : State) : (s.refuse c).raFid = s.raFid := rfl
@[simp] theorem State.refuse_raTotal (c : Cause) (s : State) : (s.refuse c).raTotal = s.raTotal := rfl
@[simp] theorem State.refuse_raBuf (c : Cause) (s : State) : (s.refuse c).raBuf = s.raBuf := rfl
@[simp] theorem State.refuse_seqNext (c : Cause) (s : State) : (s.refuse c).seqNext = s.seqNext := rfl
@[simp] theorem State.refuse_txd (c : Cause) (s : State) : (s.refuse c).txd = s.txd := rfl
@[simp] theorem State.refuse_rtxq (c : Cause) (s : State) : (s.refuse c).rtxq = s.rtxq := rfl
@[simp] theorem State.refuse_ne (c : Cause) (s : State) : (s.refuse c).ne = s.ne := rfl
@[simp] theorem State.refuse_rob (c : Cause) (s : State) : (s.refuse c).rob = s.rob := rfl
@[simp] theorem State.refuse_tmr (c : Cause) (s : State) : (s.refuse c).tmr = s.tmr := rfl
@[simp] theorem State.refuse_cnt (c : Cause) (s : State) : (s.refuse c).cnt = s.cnt := rfl
@[simp] theorem State.refuse_out (c : Cause) (s : State) : (s.refuse c).out = s.out ++ [.resp c 0] := rfl

@[simp] theorem State.bump_port (k : Counter) (s : State) : (s.bump k).port = s.port := rfl
@[simp] theorem State.bump_cfg (k : Counter) (s : State) : (s.bump k).cfg = s.cfg := rfl
@[simp] theorem State.bump_status (k : Counter) (s : State) : (s.bump k).status = s.status := rfl
@[simp] theorem State.bump_errInfo (k : Counter) (s : State) : (s.bump k).errInfo = s.errInfo := rfl
@[simp] theorem State.bump_now (k : Counter) (s : State) : (s.bump k).now = s.now := rfl
@[simp] theorem State.bump_stampNext (k : Counter) (s : State) : (s.bump k).stampNext = s.stampNext := rfl
@[simp] theorem State.bump_txq (k : Counter) (s : State) : (s.bump k).txq = s.txq := rfl
@[simp] theorem State.bump_fragIdNext (k : Counter) (s : State) : (s.bump k).fragIdNext = s.fragIdNext := rfl
@[simp] theorem State.bump_raActive (k : Counter) (s : State) : (s.bump k).raActive = s.raActive := rfl
@[simp] theorem State.bump_raFid (k : Counter) (s : State) : (s.bump k).raFid = s.raFid := rfl
@[simp] theorem State.bump_raTotal (k : Counter) (s : State) : (s.bump k).raTotal = s.raTotal := rfl
@[simp] theorem State.bump_raBuf (k : Counter) (s : State) : (s.bump k).raBuf = s.raBuf := rfl
@[simp] theorem State.bump_seqNext (k : Counter) (s : State) : (s.bump k).seqNext = s.seqNext := rfl
@[simp] theorem State.bump_txd (k : Counter) (s : State) : (s.bump k).txd = s.txd := rfl
@[simp] theorem State.bump_rtxq (k : Counter) (s : State) : (s.bump k).rtxq = s.rtxq := rfl
@[simp] theorem State.bump_ne (k : Counter) (s : State) : (s.bump k).ne = s.ne := rfl
@[simp] theorem State.bump_rob (k : Counter) (s : State) : (s.bump k).rob = s.rob := rfl
@[simp] theorem State.bump_tmr (k : Counter) (s : State) : (s.bump k).tmr = s.tmr := rfl
@[simp] theorem State.bump_cnt (k : Counter) (s : State) : (s.bump k).cnt = s.cnt.bump k := rfl
@[simp] theorem State.bump_out (k : Counter) (s : State) : (s.bump k).out = s.out := rfl

@[simp] theorem State.cancel_port (k : TimerKind) (q : Seq) (s : State) : (s.cancel k q).port = s.port := rfl
@[simp] theorem State.cancel_cfg (k : TimerKind) (q : Seq) (s : State) : (s.cancel k q).cfg = s.cfg := rfl
@[simp] theorem State.cancel_status (k : TimerKind) (q : Seq) (s : State) : (s.cancel k q).status = s.status := rfl
@[simp] theorem State.cancel_errInfo (k : TimerKind) (q : Seq) (s : State) : (s.cancel k q).errInfo = s.errInfo := rfl
@[simp] theorem State.cancel_now (k : TimerKind) (q : Seq) (s : State) : (s.cancel k q).now = s.now := rfl
@[simp] theorem State.cancel_stampNext (k : TimerKind) (q : Seq) (s : State) : (s.cancel k q).stampNext = s.stampNext := rfl
@[simp] theorem State.cancel_txq (k : TimerKind) (q : Seq) (s : State) : (s.cancel k q).txq = s.txq := rfl
@[simp] theorem State.cancel_fragIdNext (k : TimerKind) (q : Seq) (s : State) : (s.cancel k q).fragIdNext = s.fragIdNext := rfl
@[simp] theorem State.cancel_raActive (k : TimerKind) (q : Seq) (s : State) : (s.cancel k q).raActive = s.raActive := rfl
@[simp] theorem State.cancel_raFid (k : TimerKind) (q : Seq) (s : State) : (s.cancel k q).raFid = s.raFid := rfl
@[simp] theorem State.cancel_raTotal (k : TimerKind) (q : Seq) (s : State) : (s.cancel k q).raTotal = s.raTotal := rfl
@[simp] theorem State.cancel_raBuf (k : TimerKind) (q : Seq) (s : State) : (s.cancel k q).raBuf = s.raBuf := rfl
@[simp] theorem State.cancel_seqNext (k : TimerKind) (q : Seq) (s : State) : (s.cancel k q).seqNext = s.seqNext := rfl
@[simp] theorem State.cancel_txd (k : TimerKind) (q : Seq) (s : State) : (s.cancel k q).txd = s.txd := rfl
@[simp] theorem State.cancel_rtxq (k : TimerKind) (q : Seq) (s : State) : (s.cancel k q).rtxq = s.rtxq := rfl
@[simp] theorem State.cancel_ne (k : TimerKind) (q : Seq) (s : State) : (s.cancel k q).ne = s.ne := rfl
@[simp] theorem State.cancel_rob (k : TimerKind) (q : Seq) (s : State) : (s.cancel k q).rob = s.rob := rfl
@[simp] theorem State.cancel_tmr (k : TimerKind) (q : Seq) (s : State) : (s.cancel k q).tmr = s.tmr.filter (fun t => !t.guards k q) := rfl
@[simp] theorem State.cancel_cnt (k : TimerKind) (q : Seq) (s : State) : (s.cancel k q).cnt = s.cnt := rfl
@[simp] theorem State.cancel_out (k : TimerKind) (q : Seq) (s : State) : (s.cancel k q).out = s.out := rfl

@[simp] theorem State.arm_port (k : TimerKind) (q : Seq) (t : Nat) (s : State) : (s.arm k q t).port = s.port := rfl
@[simp] theorem State.arm_cfg (k : TimerKind) (q : Seq) (t : Nat) (s : State) : (s.arm k q t).cfg = s.cfg := rfl
@[simp] theorem State.arm_status (k : TimerKind) (q : Seq) (t : Nat) (s : State) : (s.arm k q t).status = s.status := rfl
@[simp] theorem State.arm_errInfo (k : TimerKind) (q : Seq) (t : Nat) (s : State) : (s.arm k q t).errInfo = s.errInfo := rfl
@[simp] theorem State.arm_now (k : TimerKind) (q : Seq) (t : Nat) (s : State) : (s.arm k q t).now = s.now := rfl
@[simp] theorem State.arm_stampNext (k : TimerKind) (q : Seq) (t : Nat) (s : State) : (s.arm k q t).stampNext = s.stampNext + 1 := rfl
@[simp] theorem State.arm_txq (k : TimerKind) (q : Seq) (t : Nat) (s : State) : (s.arm k q t).txq = s.txq := rfl
@[simp] theorem State.arm_fragIdNext (k : TimerKind) (q : Seq) (t : Nat) (s : State) : (s.arm k q t).fragIdNext = s.fragIdNext := rfl
@[simp] theorem State.arm_raActive (k : TimerKind) (q : Seq) (t : Nat) (s : State) : (s.arm k q t).raActive = s.raActive := rfl
@[simp] theorem State.arm_raFid (k : TimerKind) (q : Seq) (t : Nat) (s : State) : (s.arm k q t).raFid = s.raFid := rfl
@[simp] theorem State.arm_raTotal (k : TimerKind) (q : Seq) (t : Nat) (s : State) : (s.arm k q t).raTotal = s.raTotal := rfl
@[simp] theorem State.arm_raBuf (k : TimerKind) (q : Seq) (t : Nat) (s : State) : (s.arm k q t).raBuf = s.raBuf := rfl
@[simp] theorem State.arm_seqNext (k : TimerKind) (q : Seq) (t : Nat) (s : State) : (s.arm k q t).seqNext = s.seqNext := rfl
@[simp] theorem State.arm_txd (k : TimerKind) (q : Seq) (t : Nat) (s : State) : (s.arm k q t).txd = s.txd := rfl
@[simp] theorem State.arm_rtxq (k : TimerKind) (q : Seq) (t : Nat) (s : State) : (s.arm k q t).rtxq = s.rtxq := rfl
@[simp] theorem State.arm_ne (k : TimerKind) (q : Seq) (t : Nat) (s : State) : (s.arm k q t).ne = s.ne := rfl
@[simp] theorem State.arm_rob (k : TimerKind) (q : Seq) (t : Nat) (s : State) : (s.arm k q t).rob = s.rob := rfl
@[simp] theorem State.arm_tmr (k : TimerKind) (q : Seq) (t : Nat) (s : State) : (s.arm k q t).tmr = s.tmr.filter (fun u => !u.guards k q) ++ [⟨k, q, s.now.toNat + t, s.stampNext⟩] := rfl
@[simp] theorem State.arm_cnt (k : TimerKind) (q : Seq) (t : Nat) (s : State) : (s.arm k q t).cnt = s.cnt := rfl
@[simp] theorem State.arm_out (k : TimerKind) (q : Seq) (t : Nat) (s : State) : (s.arm k q t).out = s.out := rfl

@[simp] theorem State.enterFatal_port (c : Cause) (i : Reg64) (s : State) : (s.enterFatal c i).port = s.port := rfl
@[simp] theorem State.enterFatal_cfg (c : Cause) (i : Reg64) (s : State) : (s.enterFatal c i).cfg = s.cfg := rfl
@[simp] theorem State.enterFatal_status (c : Cause) (i : Reg64) (s : State) : (s.enterFatal c i).status = statusFatal c := rfl
@[simp] theorem State.enterFatal_errInfo (c : Cause) (i : Reg64) (s : State) : (s.enterFatal c i).errInfo = i := rfl
@[simp] theorem State.enterFatal_now (c : Cause) (i : Reg64) (s : State) : (s.enterFatal c i).now = s.now := rfl
@[simp] theorem State.enterFatal_stampNext (c : Cause) (i : Reg64) (s : State) : (s.enterFatal c i).stampNext = s.stampNext := rfl
@[simp] theorem State.enterFatal_txq (c : Cause) (i : Reg64) (s : State) : (s.enterFatal c i).txq = s.txq := rfl
@[simp] theorem State.enterFatal_fragIdNext (c : Cause) (i : Reg64) (s : State) : (s.enterFatal c i).fragIdNext = s.fragIdNext := rfl
@[simp] theorem State.enterFatal_raActive (c : Cause) (i : Reg64) (s : State) : (s.enterFatal c i).raActive = s.raActive := rfl
@[simp] theorem State.enterFatal_raFid (c : Cause) (i : Reg64) (s : State) : (s.enterFatal c i).raFid = s.raFid := rfl
@[simp] theorem State.enterFatal_raTotal (c : Cause) (i : Reg64) (s : State) : (s.enterFatal c i).raTotal = s.raTotal := rfl
@[simp] theorem State.enterFatal_raBuf (c : Cause) (i : Reg64) (s : State) : (s.enterFatal c i).raBuf = s.raBuf := rfl
@[simp] theorem State.enterFatal_seqNext (c : Cause) (i : Reg64) (s : State) : (s.enterFatal c i).seqNext = s.seqNext := rfl
@[simp] theorem State.enterFatal_txd (c : Cause) (i : Reg64) (s : State) : (s.enterFatal c i).txd = s.txd := rfl
@[simp] theorem State.enterFatal_rtxq (c : Cause) (i : Reg64) (s : State) : (s.enterFatal c i).rtxq = s.rtxq := rfl
@[simp] theorem State.enterFatal_ne (c : Cause) (i : Reg64) (s : State) : (s.enterFatal c i).ne = s.ne := rfl
@[simp] theorem State.enterFatal_rob (c : Cause) (i : Reg64) (s : State) : (s.enterFatal c i).rob = s.rob := rfl
@[simp] theorem State.enterFatal_tmr (c : Cause) (i : Reg64) (s : State) : (s.enterFatal c i).tmr = s.tmr := rfl
@[simp] theorem State.enterFatal_cnt (c : Cause) (i : Reg64) (s : State) : (s.enterFatal c i).cnt = s.cnt := rfl
@[simp] theorem State.enterFatal_out (c : Cause) (i : Reg64) (s : State) : (s.enterFatal c i).out = s.out := rfl

@[simp] theorem State.powerOn_port (s : State) : (s.powerOn).port = s.port := rfl
@[simp] theorem State.powerOn_cfg (s : State) : (s.powerOn).cfg = cfgZero := rfl
@[simp] theorem State.powerOn_status (s : State) : (s.powerOn).status = 0 := rfl
@[simp] theorem State.powerOn_errInfo (s : State) : (s.powerOn).errInfo = 0 := rfl
@[simp] theorem State.powerOn_now (s : State) : (s.powerOn).now = 0 := rfl
@[simp] theorem State.powerOn_stampNext (s : State) : (s.powerOn).stampNext = 0 := rfl
@[simp] theorem State.powerOn_txq (s : State) : (s.powerOn).txq = [] := rfl
@[simp] theorem State.powerOn_fragIdNext (s : State) : (s.powerOn).fragIdNext = 0 := rfl
@[simp] theorem State.powerOn_raActive (s : State) : (s.powerOn).raActive = false := rfl
@[simp] theorem State.powerOn_raFid (s : State) : (s.powerOn).raFid = 0 := rfl
@[simp] theorem State.powerOn_raTotal (s : State) : (s.powerOn).raTotal = 0 := rfl
@[simp] theorem State.powerOn_raBuf (s : State) : (s.powerOn).raBuf = [] := rfl
@[simp] theorem State.powerOn_seqNext (s : State) : (s.powerOn).seqNext = 0 := rfl
@[simp] theorem State.powerOn_txd (s : State) : (s.powerOn).txd = [] := rfl
@[simp] theorem State.powerOn_rtxq (s : State) : (s.powerOn).rtxq = [] := rfl
@[simp] theorem State.powerOn_ne (s : State) : (s.powerOn).ne = 0 := rfl
@[simp] theorem State.powerOn_rob (s : State) : (s.powerOn).rob = [] := rfl
@[simp] theorem State.powerOn_tmr (s : State) : (s.powerOn).tmr = [] := rfl
@[simp] theorem State.powerOn_cnt (s : State) : (s.powerOn).cnt = countersZero := rfl
@[simp] theorem State.powerOn_out (s : State) : (s.powerOn).out = s.out := rfl

@[simp] theorem State.defect_port (s : State) : (s.defect).port = s.port := rfl
@[simp] theorem State.defect_cfg (s : State) : (s.defect).cfg = s.cfg := rfl
@[simp] theorem State.defect_status (s : State) : (s.defect).status = s.status := rfl
@[simp] theorem State.defect_errInfo (s : State) : (s.defect).errInfo = s.errInfo := rfl
@[simp] theorem State.defect_now (s : State) : (s.defect).now = s.now := rfl
@[simp] theorem State.defect_stampNext (s : State) : (s.defect).stampNext = s.stampNext := rfl
@[simp] theorem State.defect_txq (s : State) : (s.defect).txq = s.txq := rfl
@[simp] theorem State.defect_fragIdNext (s : State) : (s.defect).fragIdNext = s.fragIdNext := rfl
@[simp] theorem State.defect_raActive (s : State) : (s.defect).raActive = s.raActive := rfl
@[simp] theorem State.defect_raFid (s : State) : (s.defect).raFid = s.raFid := rfl
@[simp] theorem State.defect_raTotal (s : State) : (s.defect).raTotal = s.raTotal := rfl
@[simp] theorem State.defect_raBuf (s : State) : (s.defect).raBuf = s.raBuf := rfl
@[simp] theorem State.defect_seqNext (s : State) : (s.defect).seqNext = s.seqNext := rfl
@[simp] theorem State.defect_txd (s : State) : (s.defect).txd = s.txd := rfl
@[simp] theorem State.defect_rtxq (s : State) : (s.defect).rtxq = s.rtxq := rfl
@[simp] theorem State.defect_ne (s : State) : (s.defect).ne = s.ne := rfl
@[simp] theorem State.defect_rob (s : State) : (s.defect).rob = s.rob := rfl
@[simp] theorem State.defect_tmr (s : State) : (s.defect).tmr = s.tmr := rfl
@[simp] theorem State.defect_cnt (s : State) : (s.defect).cnt = s.cnt.bump .reasmDefect := rfl
@[simp] theorem State.defect_out (s : State) : (s.defect).out = s.out := rfl

@[simp] theorem State.deliver_port (x : Bytes) (s : State) : (s.deliver x).port = s.port := rfl
@[simp] theorem State.deliver_cfg (x : Bytes) (s : State) : (s.deliver x).cfg = s.cfg := rfl
@[simp] theorem State.deliver_status (x : Bytes) (s : State) : (s.deliver x).status = s.status := rfl
@[simp] theorem State.deliver_errInfo (x : Bytes) (s : State) : (s.deliver x).errInfo = s.errInfo := rfl
@[simp] theorem State.deliver_now (x : Bytes) (s : State) : (s.deliver x).now = s.now := rfl
@[simp] theorem State.deliver_stampNext (x : Bytes) (s : State) : (s.deliver x).stampNext = s.stampNext := rfl
@[simp] theorem State.deliver_txq (x : Bytes) (s : State) : (s.deliver x).txq = s.txq := rfl
@[simp] theorem State.deliver_fragIdNext (x : Bytes) (s : State) : (s.deliver x).fragIdNext = s.fragIdNext := rfl
@[simp] theorem State.deliver_raActive (x : Bytes) (s : State) : (s.deliver x).raActive = s.raActive := rfl
@[simp] theorem State.deliver_raFid (x : Bytes) (s : State) : (s.deliver x).raFid = s.raFid := rfl
@[simp] theorem State.deliver_raTotal (x : Bytes) (s : State) : (s.deliver x).raTotal = s.raTotal := rfl
@[simp] theorem State.deliver_raBuf (x : Bytes) (s : State) : (s.deliver x).raBuf = s.raBuf := rfl
@[simp] theorem State.deliver_seqNext (x : Bytes) (s : State) : (s.deliver x).seqNext = s.seqNext := rfl
@[simp] theorem State.deliver_txd (x : Bytes) (s : State) : (s.deliver x).txd = s.txd := rfl
@[simp] theorem State.deliver_rtxq (x : Bytes) (s : State) : (s.deliver x).rtxq = s.rtxq := rfl
@[simp] theorem State.deliver_ne (x : Bytes) (s : State) : (s.deliver x).ne = s.ne := rfl
@[simp] theorem State.deliver_rob (x : Bytes) (s : State) : (s.deliver x).rob = s.rob := rfl
@[simp] theorem State.deliver_tmr (x : Bytes) (s : State) : (s.deliver x).tmr = s.tmr := rfl
@[simp] theorem State.deliver_cnt (x : Bytes) (s : State) : (s.deliver x).cnt = s.cnt.bump .pktDelivered := rfl
@[simp] theorem State.deliver_out (x : Bytes) (s : State) : (s.deliver x).out = s.out ++ [.pktOut x] := rfl

@[simp] theorem State.toIdle_port (s : State) : (s.toIdle).port = s.port := rfl
@[simp] theorem State.toIdle_cfg (s : State) : (s.toIdle).cfg = s.cfg := rfl
@[simp] theorem State.toIdle_status (s : State) : (s.toIdle).status = s.status := rfl
@[simp] theorem State.toIdle_errInfo (s : State) : (s.toIdle).errInfo = s.errInfo := rfl
@[simp] theorem State.toIdle_now (s : State) : (s.toIdle).now = s.now := rfl
@[simp] theorem State.toIdle_stampNext (s : State) : (s.toIdle).stampNext = s.stampNext := rfl
@[simp] theorem State.toIdle_txq (s : State) : (s.toIdle).txq = s.txq := rfl
@[simp] theorem State.toIdle_fragIdNext (s : State) : (s.toIdle).fragIdNext = s.fragIdNext := rfl
@[simp] theorem State.toIdle_raActive (s : State) : (s.toIdle).raActive = false := rfl
@[simp] theorem State.toIdle_raFid (s : State) : (s.toIdle).raFid = s.raFid := rfl
@[simp] theorem State.toIdle_raTotal (s : State) : (s.toIdle).raTotal = s.raTotal := rfl
@[simp] theorem State.toIdle_raBuf (s : State) : (s.toIdle).raBuf = [] := rfl
@[simp] theorem State.toIdle_seqNext (s : State) : (s.toIdle).seqNext = s.seqNext := rfl
@[simp] theorem State.toIdle_txd (s : State) : (s.toIdle).txd = s.txd := rfl
@[simp] theorem State.toIdle_rtxq (s : State) : (s.toIdle).rtxq = s.rtxq := rfl
@[simp] theorem State.toIdle_ne (s : State) : (s.toIdle).ne = s.ne := rfl
@[simp] theorem State.toIdle_rob (s : State) : (s.toIdle).rob = s.rob := rfl
@[simp] theorem State.toIdle_tmr (s : State) : (s.toIdle).tmr = s.tmr := rfl
@[simp] theorem State.toIdle_cnt (s : State) : (s.toIdle).cnt = s.cnt := rfl
@[simp] theorem State.toIdle_out (s : State) : (s.toIdle).out = s.out := rfl

@[simp] theorem State.present_port (c : Bytes) (s : State) : (s.present c).port = s.port ++ [c] := rfl
@[simp] theorem State.present_cfg (c : Bytes) (s : State) : (s.present c).cfg = s.cfg := rfl
@[simp] theorem State.present_status (c : Bytes) (s : State) : (s.present c).status = s.status := rfl
@[simp] theorem State.present_errInfo (c : Bytes) (s : State) : (s.present c).errInfo = s.errInfo := rfl
@[simp] theorem State.present_now (c : Bytes) (s : State) : (s.present c).now = s.now := rfl
@[simp] theorem State.present_stampNext (c : Bytes) (s : State) : (s.present c).stampNext = s.stampNext := rfl
@[simp] theorem State.present_txq (c : Bytes) (s : State) : (s.present c).txq = s.txq := rfl
@[simp] theorem State.present_fragIdNext (c : Bytes) (s : State) : (s.present c).fragIdNext = s.fragIdNext := rfl
@[simp] theorem State.present_raActive (c : Bytes) (s : State) : (s.present c).raActive = s.raActive := rfl
@[simp] theorem State.present_raFid (c : Bytes) (s : State) : (s.present c).raFid = s.raFid := rfl
@[simp] theorem State.present_raTotal (c : Bytes) (s : State) : (s.present c).raTotal = s.raTotal := rfl
@[simp] theorem State.present_raBuf (c : Bytes) (s : State) : (s.present c).raBuf = s.raBuf := rfl
@[simp] theorem State.present_seqNext (c : Bytes) (s : State) : (s.present c).seqNext = s.seqNext := rfl
@[simp] theorem State.present_txd (c : Bytes) (s : State) : (s.present c).txd = s.txd := rfl
@[simp] theorem State.present_rtxq (c : Bytes) (s : State) : (s.present c).rtxq = s.rtxq := rfl
@[simp] theorem State.present_ne (c : Bytes) (s : State) : (s.present c).ne = s.ne := rfl
@[simp] theorem State.present_rob (c : Bytes) (s : State) : (s.present c).rob = s.rob := rfl
@[simp] theorem State.present_tmr (c : Bytes) (s : State) : (s.present c).tmr = s.tmr := rfl
@[simp] theorem State.present_cnt (c : Bytes) (s : State) : (s.present c).cnt = s.cnt := rfl
@[simp] theorem State.present_out (c : Bytes) (s : State) : (s.present c).out = s.out := rfl

/-- One event adds one to its own counter and leaves the others. -/
theorem Counters.get_bump (j k : Counter) (c : Counters) :
    (c.bump k).get j = if j = k then c.get j + 1 else c.get j := by
  cases j <;> cases k <;> rfl

end Sys2Proof.Machine
end

