-- ==== Sys2Proof/Laws/Receive.lean ====
section
/-! SUPPORT. Receive: what the receiver's shared operations can do: the reassembly engine, the drain, and the handling of PDUs in
order and ahead. -/

namespace Sys2Proof.Machine

/-! ## Reassembly -/

/-- Reassembly writes the reassembly context, its two counters and PktOut, nothing else. -/
theorem State.reassemble_frame (r : FragRec) (s : State) :
    s.reassemble r = { s with
      raActive := (s.reassemble r).raActive, raFid := (s.reassemble r).raFid, raTotal := (s.reassemble r).raTotal
      raBuf := (s.reassemble r).raBuf, cnt := (s.reassemble r).cnt, out := (s.reassemble r).out } := by
  cases r <;> simp only [State.reassemble, State.dropChain] <;> (repeat' split) <;> rfl

@[simp] theorem State.reassemble_port (r : FragRec) (s : State) : (s.reassemble r).port = s.port := by
  rw [s.reassemble_frame r]
@[simp] theorem State.reassemble_cfg (r : FragRec) (s : State) : (s.reassemble r).cfg = s.cfg := by
  rw [s.reassemble_frame r]
@[simp] theorem State.reassemble_status (r : FragRec) (s : State) : (s.reassemble r).status = s.status := by
  rw [s.reassemble_frame r]
@[simp] theorem State.reassemble_errInfo (r : FragRec) (s : State) : (s.reassemble r).errInfo = s.errInfo := by
  rw [s.reassemble_frame r]
@[simp] theorem State.reassemble_now (r : FragRec) (s : State) : (s.reassemble r).now = s.now := by
  rw [s.reassemble_frame r]
@[simp] theorem State.reassemble_stampNext (r : FragRec) (s : State) : (s.reassemble r).stampNext = s.stampNext := by
  rw [s.reassemble_frame r]
@[simp] theorem State.reassemble_txq (r : FragRec) (s : State) : (s.reassemble r).txq = s.txq := by
  rw [s.reassemble_frame r]
@[simp] theorem State.reassemble_fragIdNext (r : FragRec) (s : State) : (s.reassemble r).fragIdNext = s.fragIdNext := by
  rw [s.reassemble_frame r]
@[simp] theorem State.reassemble_seqNext (r : FragRec) (s : State) : (s.reassemble r).seqNext = s.seqNext := by
  rw [s.reassemble_frame r]
@[simp] theorem State.reassemble_txd (r : FragRec) (s : State) : (s.reassemble r).txd = s.txd := by
  rw [s.reassemble_frame r]
@[simp] theorem State.reassemble_rtxq (r : FragRec) (s : State) : (s.reassemble r).rtxq = s.rtxq := by
  rw [s.reassemble_frame r]
@[simp] theorem State.reassemble_ne (r : FragRec) (s : State) : (s.reassemble r).ne = s.ne := by
  rw [s.reassemble_frame r]
@[simp] theorem State.reassemble_rob (r : FragRec) (s : State) : (s.reassemble r).rob = s.rob := by
  rw [s.reassemble_frame r]
@[simp] theorem State.reassemble_tmr (r : FragRec) (s : State) : (s.reassemble r).tmr = s.tmr := by
  rw [s.reassemble_frame r]

/-- The records one reassembly emits are PktOut records after those already there. -/
theorem State.reassemble_out (r : FragRec) (s : State) :
    (s.reassemble r).out = s.out ∨ ∃ p, (s.reassemble r).out = s.out ++ [.pktOut p] := by
  cases r <;> simp only [State.reassemble, State.dropChain] <;> (repeat' split) <;> simp

@[simp] theorem State.reassembleAll_nil (s : State) : s.reassembleAll [] = s := rfl
@[simp] theorem State.reassembleAll_cons (r : FragRec) (rs : List FragRec) (s : State) :
    s.reassembleAll (r :: rs) = (s.reassemble r).reassembleAll rs := rfl
theorem State.reassembleAll_append (rs qs : List FragRec) (s : State) :
    s.reassembleAll (rs ++ qs) = (s.reassembleAll rs).reassembleAll qs := by
  simp [State.reassembleAll]

@[simp] theorem State.reassembleAll_port (rs : List FragRec) (s : State) : (s.reassembleAll rs).port = s.port := by
  induction rs generalizing s with
  | nil => rfl
  | cons r rs ih => simp [ih]
@[simp] theorem State.reassembleAll_cfg (rs : List FragRec) (s : State) : (s.reassembleAll rs).cfg = s.cfg := by
  induction rs generalizing s with
  | nil => rfl
  | cons r rs ih => simp [ih]
@[simp] theorem State.reassembleAll_status (rs : List FragRec) (s : State) : (s.reassembleAll rs).status = s.status := by
  induction rs generalizing s with
  | nil => rfl
  | cons r rs ih => simp [ih]
@[simp] theorem State.reassembleAll_errInfo (rs : List FragRec) (s : State) : (s.reassembleAll rs).errInfo = s.errInfo := by
  induction rs generalizing s with
  | nil => rfl
  | cons r rs ih => simp [ih]
@[simp] theorem State.reassembleAll_now (rs : List FragRec) (s : State) : (s.reassembleAll rs).now = s.now := by
  induction rs generalizing s with
  | nil => rfl
  | cons r rs ih => simp [ih]
@[simp] theorem State.reassembleAll_stampNext (rs : List FragRec) (s : State) : (s.reassembleAll rs).stampNext = s.stampNext := by
  induction rs generalizing s with
  | nil => rfl
  | cons r rs ih => simp [ih]
@[simp] theorem State.reassembleAll_txq (rs : List FragRec) (s : State) : (s.reassembleAll rs).txq = s.txq := by
  induction rs generalizing s with
  | nil => rfl
  | cons r rs ih => simp [ih]
@[simp] theorem State.reassembleAll_fragIdNext (rs : List FragRec) (s : State) : (s.reassembleAll rs).fragIdNext = s.fragIdNext := by
  induction rs generalizing s with
  | nil => rfl
  | cons r rs ih => simp [ih]
@[simp] theorem State.reassembleAll_seqNext (rs : List FragRec) (s : State) : (s.reassembleAll rs).seqNext = s.seqNext := by
  induction rs generalizing s with
  | nil => rfl
  | cons r rs ih => simp [ih]
@[simp] theorem State.reassembleAll_txd (rs : List FragRec) (s : State) : (s.reassembleAll rs).txd = s.txd := by
  induction rs generalizing s with
  | nil => rfl
  | cons r rs ih => simp [ih]
@[simp] theorem State.reassembleAll_rtxq (rs : List FragRec) (s : State) : (s.reassembleAll rs).rtxq = s.rtxq := by
  induction rs generalizing s with
  | nil => rfl
  | cons r rs ih => simp [ih]
@[simp] theorem State.reassembleAll_ne (rs : List FragRec) (s : State) : (s.reassembleAll rs).ne = s.ne := by
  induction rs generalizing s with
  | nil => rfl
  | cons r rs ih => simp [ih]
@[simp] theorem State.reassembleAll_rob (rs : List FragRec) (s : State) : (s.reassembleAll rs).rob = s.rob := by
  induction rs generalizing s with
  | nil => rfl
  | cons r rs ih => simp [ih]
@[simp] theorem State.reassembleAll_tmr (rs : List FragRec) (s : State) : (s.reassembleAll rs).tmr = s.tmr := by
  induction rs generalizing s with
  | nil => rfl
  | cons r rs ih => simp [ih]

/-- The records a list of fragments emits are PktOut records after those already there. -/
theorem State.reassembleAll_out (rs : List FragRec) (s : State) :
    ∃ ps : List Bytes, (s.reassembleAll rs).out = s.out ++ ps.map OutRec.pktOut := by
  induction rs generalizing s with
  | nil => exact ⟨[], by simp⟩
  | cons r rs ih =>
    obtain ⟨ps, h⟩ := ih (s.reassemble r)
    rcases s.reassemble_out r with e | ⟨p, e⟩
    · exact ⟨ps, by simp [h, e]⟩
    · exact ⟨p :: ps, by simp [h, e]⟩

/-- Reassembly does not read NE, ROB or TMR: it commutes with writing them. -/
theorem State.reassemble_rob_comm (r : FragRec) (s : State) (n : Seq) (b : List RobEntry) (t : List Timer) :
    ({ s with ne := n, rob := b, tmr := t } : State).reassemble r = { s.reassemble r with ne := n, rob := b, tmr := t } := by
  cases r <;> simp only [State.reassemble, State.dropChain] <;> (repeat' split) <;> rfl

theorem State.reassembleAll_rob_comm (rs : List FragRec) (s : State) (n : Seq) (b : List RobEntry) (t : List Timer) :
    ({ s with ne := n, rob := b, tmr := t } : State).reassembleAll rs =
      { s.reassembleAll rs with ne := n, rob := b, tmr := t } := by
  induction rs generalizing s with
  | nil => rfl
  | cons r rs ih => simp only [State.reassembleAll_cons, State.reassemble_rob_comm, ih]

/-! ## Drain -/

/-- One turn of the drain. -/
theorem drainUpTo_succ (n : Nat) (s : State) :
    (drainUpTo (n + 1) s = s ∧ ∀ e, mapFind RobEntry.seq s.ne s.rob = some e → e.received = false) ∨
    ∃ e, mapFind RobEntry.seq s.ne s.rob = some e ∧ e.received = true ∧
      drainUpTo (n + 1) s =
        drainUpTo n { s.reassembleAll e.frags with ne := s.ne + 1, rob := mapErase RobEntry.seq s.ne s.rob } := by
  rcases h : mapFind RobEntry.seq s.ne s.rob with _ | e
  · exact .inl ⟨by simp [drainUpTo, h], by simp⟩
  · rcases hr : e.received with _ | _
    · exact .inl ⟨by simp [drainUpTo, h, hr], by simp [hr]⟩
    · refine .inr ⟨e, rfl, hr, ?_⟩
      have := State.reassembleAll_rob_comm e.frags s s.ne (mapErase RobEntry.seq s.ne s.rob) s.tmr
      simp only [drainUpTo, h, hr, if_true]
      congr 1
      rw [show ({ s with rob := mapErase RobEntry.seq s.ne s.rob } : State) =
        { s with ne := s.ne, rob := mapErase RobEntry.seq s.ne s.rob, tmr := s.tmr } from rfl, this]
      have ht := s.reassembleAll_tmr e.frags
      cases hs : s.reassembleAll e.frags
      simp_all

/-- An induction over the turns of a drain: what holds before and is kept by each turn holds after. -/
theorem drainUpTo_induct {P : State → Prop} (turn : ∀ (s : State) (e : RobEntry),
      mapFind RobEntry.seq s.ne s.rob = some e → e.received = true → P s →
      P { s.reassembleAll e.frags with ne := s.ne + 1, rob := mapErase RobEntry.seq s.ne s.rob }) (n : Nat) :
    ∀ s, P s → P (drainUpTo n s) := by
  induction n with
  | zero => exact fun s h => h
  | succ n ih =>
    intro s h
    rcases drainUpTo_succ n s with ⟨e, -⟩ | ⟨e, h1, h2, h3⟩
    · rwa [e]
    · rw [h3]; exact ih _ (turn s e h1 h2 h)

/-- The same for the whole drain. -/
theorem State.drain_induct {P : State → Prop} (turn : ∀ (s : State) (e : RobEntry),
      mapFind RobEntry.seq s.ne s.rob = some e → e.received = true → P s →
      P { s.reassembleAll e.frags with ne := s.ne + 1, rob := mapErase RobEntry.seq s.ne s.rob })
    {s : State} (h : P s) : P s.drain := drainUpTo_induct turn _ s h

/-- Removing the entry a lookup found makes the map shorter. -/
theorem length_mapErase_lt {α : Type} {key : α → Seq} {k : Seq} {l : List α} {a : α} (h : mapFind key k l = some a) :
    (mapErase key k l).length < l.length := by
  have := mapFind_some h
  exact List.length_filter_lt_length_iff_exists.2 ⟨a, this.1, by simp [this.2]⟩

/-- With enough turns the drain ends where NE has no received entry. -/
theorem drainUpTo_ends (n : Nat) : ∀ s : State, s.rob.length ≤ n →
    ∀ e, mapFind RobEntry.seq (drainUpTo n s).ne (drainUpTo n s).rob = some e → e.received = false := by
  induction n with
  | zero => intro s h e he; simp [drainUpTo, List.eq_nil_of_length_eq_zero (Nat.le_zero.1 h), mapFind] at he
  | succ n ih =>
    intro s h
    rcases drainUpTo_succ n s with ⟨e, h'⟩ | ⟨e, h1, h2, h3⟩
    · rwa [e]
    · rw [h3]
      refine ih _ ?_
      have := length_mapErase_lt h1
      show (mapErase RobEntry.seq s.ne s.rob).length ≤ n
      omega

theorem State.drain_ends (s : State) (e : RobEntry) (h : mapFind RobEntry.seq s.drain.ne s.drain.rob = some e) :
    e.received = false := drainUpTo_ends _ s le_rfl e h

/-- With nothing received at NE there is nothing to drain. -/
theorem State.drain_of_none (s : State) (h : mapFind RobEntry.seq s.ne s.rob = none) : s.drain = s := by
  unfold State.drain
  cases s.rob.length with
  | zero => rfl
  | succ n => simp [drainUpTo, h]

@[simp] theorem State.drain_port (s : State) : s.drain.port = s.port :=
  State.drain_induct (P := fun t => t.port = s.port) (fun t e _ _ h => by simpa using h) rfl
@[simp] theorem State.drain_cfg (s : State) : s.drain.cfg = s.cfg :=
  State.drain_induct (P := fun t => t.cfg = s.cfg) (fun t e _ _ h => by simpa using h) rfl
@[simp] theorem State.drain_status (s : State) : s.drain.status = s.status :=
  State.drain_induct (P := fun t => t.status = s.status) (fun t e _ _ h => by simpa using h) rfl
@[simp] theorem State.drain_errInfo (s : State) : s.drain.errInfo = s.errInfo :=
  State.drain_induct (P := fun t => t.errInfo = s.errInfo) (fun t e _ _ h => by simpa using h) rfl
@[simp] theorem State.drain_now (s : State) : s.drain.now = s.now :=
  State.drain_induct (P := fun t => t.now = s.now) (fun t e _ _ h => by simpa using h) rfl
@[simp] theorem State.drain_stampNext (s : State) : s.drain.stampNext = s.stampNext :=
  State.drain_induct (P := fun t => t.stampNext = s.stampNext) (fun t e _ _ h => by simpa using h) rfl
@[simp] theorem State.drain_txq (s : State) : s.drain.txq = s.txq :=
  State.drain_induct (P := fun t => t.txq = s.txq) (fun t e _ _ h => by simpa using h) rfl
@[simp] theorem State.drain_fragIdNext (s : State) : s.drain.fragIdNext = s.fragIdNext :=
  State.drain_induct (P := fun t => t.fragIdNext = s.fragIdNext) (fun t e _ _ h => by simpa using h) rfl
@[simp] theorem State.drain_seqNext (s : State) : s.drain.seqNext = s.seqNext :=
  State.drain_induct (P := fun t => t.seqNext = s.seqNext) (fun t e _ _ h => by simpa using h) rfl
@[simp] theorem State.drain_txd (s : State) : s.drain.txd = s.txd :=
  State.drain_induct (P := fun t => t.txd = s.txd) (fun t e _ _ h => by simpa using h) rfl
@[simp] theorem State.drain_rtxq (s : State) : s.drain.rtxq = s.rtxq :=
  State.drain_induct (P := fun t => t.rtxq = s.rtxq) (fun t e _ _ h => by simpa using h) rfl
@[simp] theorem State.drain_tmr (s : State) : s.drain.tmr = s.tmr :=
  State.drain_induct (P := fun t => t.tmr = s.tmr) (fun t e _ _ h => by simpa using h) rfl

/-- Draining only removes entries of ROB. -/
theorem State.drain_rob_subset (s : State) : ∀ e ∈ s.drain.rob, e ∈ s.rob :=
  State.drain_induct (P := fun t => ∀ e ∈ t.rob, e ∈ s.rob) (fun _ _ _ _ h e he => h e (mem_mapErase.1 he).1) (fun _ h => h)

/-- The records a drain emits are PktOut records after those already there. -/
theorem State.drain_out (s : State) : ∃ ps : List Bytes, s.drain.out = s.out ++ ps.map OutRec.pktOut := by
  refine State.drain_induct (P := fun t => ∃ ps : List Bytes, t.out = s.out ++ ps.map OutRec.pktOut) ?_ ⟨[], by simp⟩
  rintro t e - - ⟨ps, h⟩
  obtain ⟨qs, h'⟩ := t.reassembleAll_out e.frags
  exact ⟨ps ++ qs, by simp [h', h]⟩

/-! ## In order and ahead -/

@[simp] theorem inOrder_port (rs : List FragRec) (s : State) : (inOrder rs s).port = s.port := by
  unfold inOrder; split <;> simp
@[simp] theorem inOrder_cfg (rs : List FragRec) (s : State) : (inOrder rs s).cfg = s.cfg := by
  unfold inOrder; split <;> simp
@[simp] theorem inOrder_status (rs : List FragRec) (s : State) : (inOrder rs s).status = s.status := by
  unfold inOrder; split <;> simp
@[simp] theorem inOrder_errInfo (rs : List FragRec) (s : State) : (inOrder rs s).errInfo = s.errInfo := by
  unfold inOrder; split <;> simp
@[simp] theorem inOrder_now (rs : List FragRec) (s : State) : (inOrder rs s).now = s.now := by
  unfold inOrder; split <;> simp
@[simp] theorem inOrder_stampNext (rs : List FragRec) (s : State) : (inOrder rs s).stampNext = s.stampNext := by
  unfold inOrder; split <;> simp
@[simp] theorem inOrder_txq (rs : List FragRec) (s : State) : (inOrder rs s).txq = s.txq := by
  unfold inOrder; split <;> simp
@[simp] theorem inOrder_fragIdNext (rs : List FragRec) (s : State) : (inOrder rs s).fragIdNext = s.fragIdNext := by
  unfold inOrder; split <;> simp
@[simp] theorem inOrder_seqNext (rs : List FragRec) (s : State) : (inOrder rs s).seqNext = s.seqNext := by
  unfold inOrder; split <;> simp
@[simp] theorem inOrder_txd (rs : List FragRec) (s : State) : (inOrder rs s).txd = s.txd := by
  unfold inOrder; split <;> simp
@[simp] theorem inOrder_rtxq (rs : List FragRec) (s : State) : (inOrder rs s).rtxq = s.rtxq := by
  unfold inOrder; split <;> simp

/-- The records InOrder emits are PktOut records after those already there. -/
theorem inOrder_out (rs : List FragRec) (s : State) : ∃ ps : List Bytes, (inOrder rs s).out = s.out ++ ps.map OutRec.pktOut := by
  have key : ∀ t : State, t.out = s.out →
      ∃ ps : List Bytes, ({ t.reassembleAll rs with ne := (t.reassembleAll rs).ne + 1 } : State).drain.out =
        s.out ++ ps.map OutRec.pktOut := by
    intro t ht
    obtain ⟨ps, h⟩ := t.reassembleAll_out rs
    obtain ⟨qs, h'⟩ := State.drain_out { t.reassembleAll rs with ne := (t.reassembleAll rs).ne + 1 }
    exact ⟨ps ++ qs, by rw [h']; simp [h, ht]⟩
  unfold inOrder
  split <;> exact key _ (by simp)

/-- A placeholder step writes ROB, TMR and STAMP_NEXT only. -/
theorem placeholder_cases (s : State) (k : Seq) :
    ((mapFind RobEntry.seq k s.rob).isSome = true ∧ placeholder s k = s) ∨
    (mapFind RobEntry.seq k s.rob = none ∧ placeholder s k = { s with
      rob := mapInsert RobEntry.seq ⟨k, false, []⟩ s.rob
      tmr := s.tmr.filter (fun t => !t.guards .rxw k) ++ [⟨.rxw, k, s.now.toNat + s.cfg.tRxwait.toNat, s.stampNext⟩]
      stampNext := s.stampNext + 1 }) := by
  rcases h : mapFind RobEntry.seq k s.rob with _ | e
  · exact .inr ⟨rfl, by simp [placeholder, h, State.arm, State.cancel]⟩
  · exact .inl ⟨rfl, by simp [placeholder, h]⟩

/-- An induction over the placeholders of a gap. -/
theorem placeholders_induct {P : State → Prop} (one : ∀ s k, P s → P (placeholder s k)) (ks : List Seq) :
    ∀ s, P s → P (ks.foldl placeholder s) := by
  induction ks with
  | nil => exact fun s h => h
  | cons k ks ih => exact fun s h => ih _ (one s k h)

/-- What Ahead can do: count a duplicate, or store the PDU and make the gap's placeholders. -/
theorem ahead_cases (q : Seq) (recs : List FragRec) (s : State) :
    ((∃ e, mapFind RobEntry.seq q s.rob = some e ∧ e.received = true) ∧ ahead q recs s = s.bump .rxDup) ∨
    ((∀ e, mapFind RobEntry.seq q s.rob = some e → e.received = false) ∧
      ahead q recs s = (seqRange s.ne q).foldl placeholder (storeAhead q recs s)) := by
  rcases h : mapFind RobEntry.seq q s.rob with _ | ⟨k, r, fs⟩
  · exact .inr ⟨by simp, by simp [ahead, h]⟩
  · cases r
    · exact .inr ⟨by simp, by simp [ahead, h]⟩
    · exact .inl ⟨⟨_, rfl, rfl⟩, by simp [ahead, h]⟩

/-- Ahead writes ROB, TMR, STAMP_NEXT and a counter only. -/
theorem ahead_frame (q : Seq) (recs : List FragRec) (s : State) :
    ahead q recs s = { s with
      rob := (ahead q recs s).rob, tmr := (ahead q recs s).tmr, stampNext := (ahead q recs s).stampNext
      cnt := (ahead q recs s).cnt } := by
  rcases ahead_cases q recs s with ⟨-, h⟩ | ⟨-, h⟩
  · rw [h]; rfl
  · rw [h]
    refine placeholders_induct (P := fun t => t = { s with rob := t.rob, tmr := t.tmr, stampNext := t.stampNext, cnt := t.cnt })
      ?_ _ _ ?_
    · intro t k ht
      rcases placeholder_cases t k with ⟨-, e⟩ | ⟨-, e⟩
      · rwa [e]
      · rw [e, ht]
    · unfold storeAhead; split <;> rfl

/-- The numbers of a gap are those at a distance below the end's. -/
theorem mem_seqRange {a b k : Seq} : k ∈ seqRange a b ↔ seqDist a k < seqDist a b := by
  simp only [seqRange, List.mem_map, List.mem_range, seqDist]
  constructor
  · rintro ⟨i, hi, rfl⟩
    have := (b - a).isLt
    have e : a + BitVec.ofNat 8 i - a = BitVec.ofNat 8 i := by rw [BitVec.add_comm, BitVec.add_sub_cancel]
    rw [e, BitVec.toNat_ofNat]
    exact (Nat.mod_le _ _).trans_lt hi
  · intro h
    refine ⟨(k - a).toNat, h, ?_⟩
    rw [BitVec.ofNat_toNat, BitVec.setWidth_eq, BitVec.add_comm, BitVec.sub_add_cancel]

end Sys2Proof.Machine
end

