-- ==== Sys2Proof/Laws/Timers.lean ====
section
/-! SUPPORT. Timers: what arming, cancelling and firing timers can do. -/

namespace Sys2Proof.Machine

/-! ## Arm and cancel -/

theorem State.mem_cancel_tmr {k : TimerKind} {q : Seq} {s : State} {t : Timer} :
    t ∈ (s.cancel k q).tmr ↔ t ∈ s.tmr ∧ ¬ (t.kind = k ∧ t.seq = q) := by
  simp [State.cancel, Timer.guards, imp_iff_not_or]

theorem State.mem_arm_tmr {k : TimerKind} {q : Seq} {d : Nat} {s : State} {t : Timer} :
    t ∈ (s.arm k q d).tmr ↔
      (t ∈ s.tmr ∧ ¬ (t.kind = k ∧ t.seq = q)) ∨ t = ⟨k, q, s.now.toNat + d, s.stampNext⟩ := by
  simp [State.arm, State.cancel, Timer.guards, imp_iff_not_or]

/-! ## The earliest timer -/

theorem Timer.before_iff {a b : Timer} :
    a.before b = true ↔ a.deadline < b.deadline ∨ a.deadline = b.deadline ∧ a.stamp < b.stamp := by
  simp [Timer.before]

theorem earliest_eq_none {l : List Timer} : earliest l = none ↔ l = [] := by
  cases l with
  | nil => simp [earliest]
  | cons t l =>
    simp only [earliest]
    split
    · simp
    · split <;> simp

/-- The earliest timer is one of the set and no other comes before it (R423). -/
theorem earliest_spec {l : List Timer} : ∀ {t : Timer}, earliest l = some t →
    t ∈ l ∧ ∀ u ∈ l, u.before t = false := by
  induction l with
  | nil => simp [earliest]
  | cons a l ih =>
    intro t h
    simp only [earliest] at h
    have self : ∀ x : Timer, x.before x = false := fun x => by simp [Timer.before]
    split at h
    · rename_i hn
      obtain rfl := earliest_eq_none.1 hn
      obtain rfl := Option.some.inj h
      simp [self]
    · rename_i u hu
      obtain ⟨hm, hb⟩ := ih hu
      split at h
      · rename_i hua
        obtain rfl := Option.some.inj h
        refine ⟨List.mem_cons_of_mem _ hm, fun v hv => ?_⟩
        rcases List.mem_cons.1 hv with rfl | hv
        · simp only [Timer.before_iff, Bool.eq_false_iff, ne_eq] at hua ⊢; omega
        · exact hb v hv
      · rename_i hua
        obtain rfl := Option.some.inj h
        refine ⟨List.mem_cons_self, fun v hv => ?_⟩
        rcases List.mem_cons.1 hv with rfl | hv
        · exact self _
        · have := hb v hv
          simp only [Timer.before_iff, Bool.eq_false_iff, ne_eq] at hua this ⊢; omega

/-! ## Expiry handlers -/

/-- What a retransmission expiry can do (R320 to R322). -/
theorem onRtxExpiry_cases (q : Seq) (s : State) :
    (mapFind ArqCtx.seq q s.txd = none ∧ onRtxExpiry q s = s) ∨
    ∃ c, mapFind ArqCtx.seq q s.txd = some c ∧
      ((c.count.toNat < s.cfg.maxRtx.toNat ∧ onRtxExpiry q s =
          { s.bump .rtxTimeout with txd := mapErase ArqCtx.seq q s.txd, rtxq := s.rtxq ++ [c] }) ∨
       (¬ c.count.toNat < s.cfg.maxRtx.toNat ∧ onRtxExpiry q s =
          { (s.bump .rtxTimeout).bump .arqGiveup with txd := mapErase ArqCtx.seq q s.txd })) := by
  rcases h : mapFind ArqCtx.seq q s.txd with _ | c
  · exact .inl ⟨rfl, by simp [onRtxExpiry, h]⟩
  · refine .inr ⟨c, rfl, ?_⟩
    by_cases hc : c.count.toNat < s.cfg.maxRtx.toNat
    · exact .inl ⟨hc, by simp [onRtxExpiry, h, hc]⟩
    · exact .inr ⟨hc, by simp [onRtxExpiry, h, hc]; rfl⟩

/-- What an Rx waiting expiry can do (R345). -/
theorem onRxwExpiry_cases (k : Seq) (s : State) :
    ((∀ e, mapFind RobEntry.seq k s.rob = some e → e.received = true) ∧ onRxwExpiry k s = s) ∨
    ∃ e, mapFind RobEntry.seq k s.rob = some e ∧ e.received = false ∧ onRxwExpiry k s =
      State.drain (({ s with rob := mapInsert RobEntry.seq ⟨k, true, []⟩ s.rob } : State).bump .rxwaitExpired) := by
  rcases h : mapFind RobEntry.seq k s.rob with _ | e
  · exact .inl ⟨by simp, by simp [onRxwExpiry, h]⟩
  · rcases hr : e.received with _ | _
    · exact .inr ⟨e, rfl, hr, by simp [onRxwExpiry, h, hr]⟩
    · exact .inl ⟨by simp [hr], by simp [onRxwExpiry, h, hr]⟩

@[simp] theorem onRtxExpiry_port (q : Seq) (s : State) : (onRtxExpiry q s).port = s.port := by
  rcases onRtxExpiry_cases q s with ⟨-, h⟩ | ⟨c, -, ⟨-, h⟩ | ⟨-, h⟩⟩ <;> simp [h]
@[simp] theorem onRxwExpiry_port (q : Seq) (s : State) : (onRxwExpiry q s).port = s.port := by
  rcases onRxwExpiry_cases q s with ⟨-, h⟩ | ⟨e, -, -, h⟩ <;> simp [h]
@[simp] theorem expire_port (t : Timer) (s : State) : (expire t s).port = s.port := by
  unfold expire; split <;> simp
@[simp] theorem onRtxExpiry_cfg (q : Seq) (s : State) : (onRtxExpiry q s).cfg = s.cfg := by
  rcases onRtxExpiry_cases q s with ⟨-, h⟩ | ⟨c, -, ⟨-, h⟩ | ⟨-, h⟩⟩ <;> simp [h]
@[simp] theorem onRxwExpiry_cfg (q : Seq) (s : State) : (onRxwExpiry q s).cfg = s.cfg := by
  rcases onRxwExpiry_cases q s with ⟨-, h⟩ | ⟨e, -, -, h⟩ <;> simp [h]
@[simp] theorem expire_cfg (t : Timer) (s : State) : (expire t s).cfg = s.cfg := by
  unfold expire; split <;> simp
@[simp] theorem onRtxExpiry_status (q : Seq) (s : State) : (onRtxExpiry q s).status = s.status := by
  rcases onRtxExpiry_cases q s with ⟨-, h⟩ | ⟨c, -, ⟨-, h⟩ | ⟨-, h⟩⟩ <;> simp [h]
@[simp] theorem onRxwExpiry_status (q : Seq) (s : State) : (onRxwExpiry q s).status = s.status := by
  rcases onRxwExpiry_cases q s with ⟨-, h⟩ | ⟨e, -, -, h⟩ <;> simp [h]
@[simp] theorem expire_status (t : Timer) (s : State) : (expire t s).status = s.status := by
  unfold expire; split <;> simp
@[simp] theorem onRtxExpiry_errInfo (q : Seq) (s : State) : (onRtxExpiry q s).errInfo = s.errInfo := by
  rcases onRtxExpiry_cases q s with ⟨-, h⟩ | ⟨c, -, ⟨-, h⟩ | ⟨-, h⟩⟩ <;> simp [h]
@[simp] theorem onRxwExpiry_errInfo (q : Seq) (s : State) : (onRxwExpiry q s).errInfo = s.errInfo := by
  rcases onRxwExpiry_cases q s with ⟨-, h⟩ | ⟨e, -, -, h⟩ <;> simp [h]
@[simp] theorem expire_errInfo (t : Timer) (s : State) : (expire t s).errInfo = s.errInfo := by
  unfold expire; split <;> simp
@[simp] theorem onRtxExpiry_now (q : Seq) (s : State) : (onRtxExpiry q s).now = s.now := by
  rcases onRtxExpiry_cases q s with ⟨-, h⟩ | ⟨c, -, ⟨-, h⟩ | ⟨-, h⟩⟩ <;> simp [h]
@[simp] theorem onRxwExpiry_now (q : Seq) (s : State) : (onRxwExpiry q s).now = s.now := by
  rcases onRxwExpiry_cases q s with ⟨-, h⟩ | ⟨e, -, -, h⟩ <;> simp [h]
@[simp] theorem expire_now (t : Timer) (s : State) : (expire t s).now = s.now := by
  unfold expire; split <;> simp
@[simp] theorem onRtxExpiry_stampNext (q : Seq) (s : State) : (onRtxExpiry q s).stampNext = s.stampNext := by
  rcases onRtxExpiry_cases q s with ⟨-, h⟩ | ⟨c, -, ⟨-, h⟩ | ⟨-, h⟩⟩ <;> simp [h]
@[simp] theorem onRxwExpiry_stampNext (q : Seq) (s : State) : (onRxwExpiry q s).stampNext = s.stampNext := by
  rcases onRxwExpiry_cases q s with ⟨-, h⟩ | ⟨e, -, -, h⟩ <;> simp [h]
@[simp] theorem expire_stampNext (t : Timer) (s : State) : (expire t s).stampNext = s.stampNext := by
  unfold expire; split <;> simp
@[simp] theorem onRtxExpiry_txq (q : Seq) (s : State) : (onRtxExpiry q s).txq = s.txq := by
  rcases onRtxExpiry_cases q s with ⟨-, h⟩ | ⟨c, -, ⟨-, h⟩ | ⟨-, h⟩⟩ <;> simp [h]
@[simp] theorem onRxwExpiry_txq (q : Seq) (s : State) : (onRxwExpiry q s).txq = s.txq := by
  rcases onRxwExpiry_cases q s with ⟨-, h⟩ | ⟨e, -, -, h⟩ <;> simp [h]
@[simp] theorem expire_txq (t : Timer) (s : State) : (expire t s).txq = s.txq := by
  unfold expire; split <;> simp
@[simp] theorem onRtxExpiry_fragIdNext (q : Seq) (s : State) : (onRtxExpiry q s).fragIdNext = s.fragIdNext := by
  rcases onRtxExpiry_cases q s with ⟨-, h⟩ | ⟨c, -, ⟨-, h⟩ | ⟨-, h⟩⟩ <;> simp [h]
@[simp] theorem onRxwExpiry_fragIdNext (q : Seq) (s : State) : (onRxwExpiry q s).fragIdNext = s.fragIdNext := by
  rcases onRxwExpiry_cases q s with ⟨-, h⟩ | ⟨e, -, -, h⟩ <;> simp [h]
@[simp] theorem expire_fragIdNext (t : Timer) (s : State) : (expire t s).fragIdNext = s.fragIdNext := by
  unfold expire; split <;> simp
@[simp] theorem onRtxExpiry_seqNext (q : Seq) (s : State) : (onRtxExpiry q s).seqNext = s.seqNext := by
  rcases onRtxExpiry_cases q s with ⟨-, h⟩ | ⟨c, -, ⟨-, h⟩ | ⟨-, h⟩⟩ <;> simp [h]
@[simp] theorem onRxwExpiry_seqNext (q : Seq) (s : State) : (onRxwExpiry q s).seqNext = s.seqNext := by
  rcases onRxwExpiry_cases q s with ⟨-, h⟩ | ⟨e, -, -, h⟩ <;> simp [h]
@[simp] theorem expire_seqNext (t : Timer) (s : State) : (expire t s).seqNext = s.seqNext := by
  unfold expire; split <;> simp
@[simp] theorem onRtxExpiry_tmr (q : Seq) (s : State) : (onRtxExpiry q s).tmr = s.tmr := by
  rcases onRtxExpiry_cases q s with ⟨-, h⟩ | ⟨c, -, ⟨-, h⟩ | ⟨-, h⟩⟩ <;> simp [h]
@[simp] theorem onRxwExpiry_tmr (q : Seq) (s : State) : (onRxwExpiry q s).tmr = s.tmr := by
  rcases onRxwExpiry_cases q s with ⟨-, h⟩ | ⟨e, -, -, h⟩ <;> simp [h]
@[simp] theorem expire_tmr (t : Timer) (s : State) : (expire t s).tmr = s.tmr := by
  unfold expire; split <;> simp

/-- The records an expiry emits are PktOut records after those already there. -/
theorem expire_out (t : Timer) (s : State) : ∃ ps : List Bytes, (expire t s).out = s.out ++ ps.map OutRec.pktOut := by
  unfold expire
  split
  · rcases onRtxExpiry_cases t.seq s with ⟨-, h⟩ | ⟨c, -, ⟨-, h⟩ | ⟨-, h⟩⟩ <;> exact ⟨[], by simp [h]⟩
  · rcases onRxwExpiry_cases t.seq s with ⟨-, h⟩ | ⟨e, -, -, h⟩
    · exact ⟨[], by simp [h]⟩
    · obtain ⟨ps, h'⟩ := State.drain_out (({ s with rob := mapInsert RobEntry.seq ⟨t.seq, true, []⟩ s.rob } : State).bump .rxwaitExpired)
      exact ⟨ps, by rw [h, h']; simp⟩

/-! ## Firing -/

/-- What one turn of TICK's inner loop can do. -/
theorem fireUpTo_succ (n : Nat) (s : State) :
    (fireUpTo (n + 1) s = s ∧ ∀ u ∈ s.tmr, s.now.toNat < u.deadline) ∨
    ∃ t ∈ s.tmr, t.deadline ≤ s.now.toNat ∧ earliest s.tmr = some t ∧
      fireUpTo (n + 1) s = fireUpTo n (expire t { s with tmr := s.tmr.filter (fun u => u != t) }) := by
  rcases h : earliest s.tmr with _ | t
  · exact .inl ⟨by simp [fireUpTo, h], by simp [earliest_eq_none.1 h]⟩
  · obtain ⟨hm, hb⟩ := earliest_spec h
    by_cases hd : t.deadline ≤ s.now.toNat
    · exact .inr ⟨t, hm, hd, rfl, by simp [fireUpTo, h, hd]⟩
    · refine .inl ⟨by simp [fireUpTo, h, hd], fun u hu => ?_⟩
      have := hb u hu
      simp only [Timer.before_iff, Bool.eq_false_iff, ne_eq] at this
      omega

/-- An induction over the firings of a tick: what holds before and is kept by each firing holds after. -/
theorem fireUpTo_induct {P : State → Prop} (fire : ∀ (s : State) (t : Timer), t ∈ s.tmr → t.deadline ≤ s.now.toNat →
      earliest s.tmr = some t → P s → P (expire t { s with tmr := s.tmr.filter (fun u => u != t) })) (n : Nat) :
    ∀ s, P s → P (fireUpTo n s) := by
  induction n with
  | zero => exact fun s h => h
  | succ n ih =>
    intro s h
    rcases fireUpTo_succ n s with ⟨e, -⟩ | ⟨t, h1, h2, h3, h4⟩
    · rwa [e]
    · rw [h4]; exact ih _ (fire s t h1 h2 h3 h)

theorem State.fireDue_induct {P : State → Prop} (fire : ∀ (s : State) (t : Timer), t ∈ s.tmr → t.deadline ≤ s.now.toNat →
      earliest s.tmr = some t → P s → P (expire t { s with tmr := s.tmr.filter (fun u => u != t) }))
    {s : State} (h : P s) : P s.fireDue := fireUpTo_induct fire _ s h

/-- More turns than there are timers change nothing. -/
theorem fireUpTo_enough (n : Nat) : ∀ (m : Nat) (s : State), s.tmr.length ≤ n → s.tmr.length ≤ m →
    fireUpTo n s = fireUpTo m s := by
  have nil : ∀ (k : Nat) (s : State), s.tmr = [] → fireUpTo k s = s := by
    intro k s h; cases k <;> simp [fireUpTo, h, earliest]
  induction n with
  | zero => intro m s h _; rw [nil _ s (List.eq_nil_of_length_eq_zero (Nat.le_zero.1 h)), nil _ s (List.eq_nil_of_length_eq_zero (Nat.le_zero.1 h))]
  | succ n ih =>
    intro m s hn hm
    cases m with
    | zero => rw [nil _ s (List.eq_nil_of_length_eq_zero (Nat.le_zero.1 hm)), nil _ s (List.eq_nil_of_length_eq_zero (Nat.le_zero.1 hm))]
    | succ m =>
      simp only [fireUpTo]
      split
      · rfl
      · rename_i t ht
        split
        · have hl : (s.tmr.filter (fun u => u != t)).length < s.tmr.length :=
            List.length_filter_lt_length_iff_exists.2 ⟨t, (earliest_spec ht).1, by simp⟩
          exact ih m _ (by simp; omega) (by simp; omega)
        · rfl

/-- After the firings of a tick no timer is due. -/
theorem State.fireDue_none_due (s : State) : ∀ u ∈ s.fireDue.tmr, s.now.toNat < u.deadline := by
  have key : ∀ (n : Nat) (t : State), t.tmr.length ≤ n → t.now = s.now →
      ∀ u ∈ (fireUpTo n t).tmr, s.now.toNat < u.deadline := by
    intro n
    induction n with
    | zero => intro t h _; simp [fireUpTo, List.eq_nil_of_length_eq_zero (Nat.le_zero.1 h)]
    | succ n ih =>
      intro t h hnow
      rcases fireUpTo_succ n t with ⟨e, hd⟩ | ⟨x, hx, -, -, e⟩
      · rw [e, ← hnow]; exact hd
      · rw [e]
        have hl : (t.tmr.filter (fun u => u != x)).length < t.tmr.length :=
          List.length_filter_lt_length_iff_exists.2 ⟨x, hx, by simp⟩
        exact ih _ (by simp; omega) (by simpa using hnow)
  exact key _ s le_rfl rfl

@[simp] theorem State.fireDue_port (s : State) : s.fireDue.port = s.port :=
  State.fireDue_induct (P := fun t => t.port = s.port) (fun t u _ _ _ h => by simpa using h) rfl
@[simp] theorem State.fireDue_cfg (s : State) : s.fireDue.cfg = s.cfg :=
  State.fireDue_induct (P := fun t => t.cfg = s.cfg) (fun t u _ _ _ h => by simpa using h) rfl
@[simp] theorem State.fireDue_status (s : State) : s.fireDue.status = s.status :=
  State.fireDue_induct (P := fun t => t.status = s.status) (fun t u _ _ _ h => by simpa using h) rfl
@[simp] theorem State.fireDue_errInfo (s : State) : s.fireDue.errInfo = s.errInfo :=
  State.fireDue_induct (P := fun t => t.errInfo = s.errInfo) (fun t u _ _ _ h => by simpa using h) rfl
@[simp] theorem State.fireDue_now (s : State) : s.fireDue.now = s.now :=
  State.fireDue_induct (P := fun t => t.now = s.now) (fun t u _ _ _ h => by simpa using h) rfl
@[simp] theorem State.fireDue_stampNext (s : State) : s.fireDue.stampNext = s.stampNext :=
  State.fireDue_induct (P := fun t => t.stampNext = s.stampNext) (fun t u _ _ _ h => by simpa using h) rfl
@[simp] theorem State.fireDue_txq (s : State) : s.fireDue.txq = s.txq :=
  State.fireDue_induct (P := fun t => t.txq = s.txq) (fun t u _ _ _ h => by simpa using h) rfl
@[simp] theorem State.fireDue_fragIdNext (s : State) : s.fireDue.fragIdNext = s.fragIdNext :=
  State.fireDue_induct (P := fun t => t.fragIdNext = s.fragIdNext) (fun t u _ _ _ h => by simpa using h) rfl
@[simp] theorem State.fireDue_seqNext (s : State) : s.fireDue.seqNext = s.seqNext :=
  State.fireDue_induct (P := fun t => t.seqNext = s.seqNext) (fun t u _ _ _ h => by simpa using h) rfl

theorem State.fireDue_out (s : State) : ∃ ps : List Bytes, s.fireDue.out = s.out ++ ps.map OutRec.pktOut := by
  refine State.fireDue_induct (P := fun t => ∃ ps : List Bytes, t.out = s.out ++ ps.map OutRec.pktOut) ?_ ⟨[], by simp⟩
  rintro t u - - - ⟨ps, h⟩
  obtain ⟨qs, h'⟩ := expire_out u { t with tmr := t.tmr.filter (fun v => v != u) }
  exact ⟨ps ++ qs, by rw [h']; simp [h]⟩

/-! ## Ticks -/

theorem ticks_succ (n : Nat) (s : State) : ticks (n + 1) s = ticks n s.tickOnce := rfl

theorem ticks_add (m n : Nat) (s : State) : ticks (m + n) s = ticks n (ticks m s) := by
  induction m generalizing s with
  | zero => simp [ticks]
  | succ m ih => rw [Nat.add_right_comm, ticks_succ, ticks_succ, ih]

/-- An induction over the ticks of a TICK. -/
theorem ticks_induct {P : State → Prop} (one : ∀ s, P s → P s.tickOnce) (n : Nat) : ∀ s, P s → P (ticks n s) := by
  induction n with
  | zero => exact fun s h => h
  | succ n ih => exact fun s h => ih _ (one s h)

@[simp] theorem State.tickOnce_now (s : State) : s.tickOnce.now = s.now + 1 := by simp [State.tickOnce]

@[simp] theorem State.tickOnce_port (s : State) : s.tickOnce.port = s.port := by simp [State.tickOnce]
@[simp] theorem ticks_port (n : Nat) (s : State) : (ticks n s).port = s.port :=
  ticks_induct (P := fun t => t.port = s.port) (fun t h => by simpa using h) n s rfl
@[simp] theorem State.tickOnce_cfg (s : State) : s.tickOnce.cfg = s.cfg := by simp [State.tickOnce]
@[simp] theorem ticks_cfg (n : Nat) (s : State) : (ticks n s).cfg = s.cfg :=
  ticks_induct (P := fun t => t.cfg = s.cfg) (fun t h => by simpa using h) n s rfl
@[simp] theorem State.tickOnce_status (s : State) : s.tickOnce.status = s.status := by simp [State.tickOnce]
@[simp] theorem ticks_status (n : Nat) (s : State) : (ticks n s).status = s.status :=
  ticks_induct (P := fun t => t.status = s.status) (fun t h => by simpa using h) n s rfl
@[simp] theorem State.tickOnce_errInfo (s : State) : s.tickOnce.errInfo = s.errInfo := by simp [State.tickOnce]
@[simp] theorem ticks_errInfo (n : Nat) (s : State) : (ticks n s).errInfo = s.errInfo :=
  ticks_induct (P := fun t => t.errInfo = s.errInfo) (fun t h => by simpa using h) n s rfl
@[simp] theorem State.tickOnce_stampNext (s : State) : s.tickOnce.stampNext = s.stampNext := by simp [State.tickOnce]
@[simp] theorem ticks_stampNext (n : Nat) (s : State) : (ticks n s).stampNext = s.stampNext :=
  ticks_induct (P := fun t => t.stampNext = s.stampNext) (fun t h => by simpa using h) n s rfl
@[simp] theorem State.tickOnce_txq (s : State) : s.tickOnce.txq = s.txq := by simp [State.tickOnce]
@[simp] theorem ticks_txq (n : Nat) (s : State) : (ticks n s).txq = s.txq :=
  ticks_induct (P := fun t => t.txq = s.txq) (fun t h => by simpa using h) n s rfl
@[simp] theorem State.tickOnce_fragIdNext (s : State) : s.tickOnce.fragIdNext = s.fragIdNext := by simp [State.tickOnce]
@[simp] theorem ticks_fragIdNext (n : Nat) (s : State) : (ticks n s).fragIdNext = s.fragIdNext :=
  ticks_induct (P := fun t => t.fragIdNext = s.fragIdNext) (fun t h => by simpa using h) n s rfl
@[simp] theorem State.tickOnce_seqNext (s : State) : s.tickOnce.seqNext = s.seqNext := by simp [State.tickOnce]
@[simp] theorem ticks_seqNext (n : Nat) (s : State) : (ticks n s).seqNext = s.seqNext :=
  ticks_induct (P := fun t => t.seqNext = s.seqNext) (fun t h => by simpa using h) n s rfl

theorem ticks_now (n : Nat) (s : State) : (ticks n s).now = s.now + BitVec.ofNat 64 n := by
  induction n generalizing s with
  | zero => simp [ticks]
  | succ n ih =>
    rw [ticks_succ, ih, State.tickOnce_now]
    apply BitVec.eq_of_toNat_eq
    simp [BitVec.toNat_add, BitVec.toNat_ofNat]
    omega

theorem ticks_out (n : Nat) (s : State) : ∃ ps : List Bytes, (ticks n s).out = s.out ++ ps.map OutRec.pktOut := by
  refine ticks_induct (P := fun t => ∃ ps : List Bytes, t.out = s.out ++ ps.map OutRec.pktOut) ?_ n s ⟨[], by simp⟩
  rintro t ⟨ps, h⟩
  obtain ⟨qs, h'⟩ := State.fireDue_out { t with now := t.now + 1 }
  exact ⟨ps ++ qs, by rw [State.tickOnce, h']; simp [h]⟩

end Sys2Proof.Machine
end

