-- ==== Sys2Proof/Laws/Transmit.lean ====
section
/-! SUPPORT. Transmit: what the sender's shared operations can do: the packing loop, BuildFrame, and the moves of a PDU. -/

namespace Sys2Proof.Machine

/-! ## Fragments -/

/-- A serialized fragment is its payload and the overhead of its kind. -/
theorem serialize_length (c : CfgBlock) (k : Kind) (fid : BitVec 8) (e : TxEntry) (p : Bytes) :
    (serialize c k fid e p).length = overhead (cfgFamily c) k + p.length := by
  unfold serialize wireFragment
  cases cfgFamily c <;> cases k <;> simp [encode, overhead, serializedSize, trailerSize, rleSize, gseSize, gseTrailer] <;> omega

/-! ## The packing loop -/

/-- What one turn of the packing loop can do: stop, take the front entry whole, or split it. -/
theorem packLoop_cons (c : CfgBlock) (e : TxEntry) (rest : List TxEntry) (avail n : Nat) (fidNext : BitVec 8) :
    ((fphMaxN ≤ n ∨ wholeFits c avail e = false ∧ splitSize c avail e = 0) ∧
      packLoop c (e :: rest) avail n fidNext = { frags := [], txq := e :: rest, fragIdNext := fidNext }) ∨
    (n < fphMaxN ∧ wholeFits c avail e = true ∧
      ∃ p, p = packLoop c rest (avail - (4 + overhead (cfgFamily c) e.wholeKind + e.data.length)) (n + 1) fidNext ∧
        packLoop c (e :: rest) avail n fidNext =
          { p with frags := serialize c e.wholeKind e.fid e e.data :: p.frags }) ∨
    (n < fphMaxN ∧ wholeFits c avail e = false ∧ 1 ≤ splitSize c avail e ∧
      packLoop c (e :: rest) avail n fidNext = packSplit c (splitSize c avail e) e rest fidNext) := by
  simp only [packLoop]
  split
  · exact .inl ⟨.inl (by omega), rfl⟩
  · split
    · rename_i hn hw; exact .inr (.inl ⟨by omega, hw, _, rfl, rfl⟩)
    · rename_i hn hw
      split
      · exact .inl ⟨.inr ⟨by simpa using hw, by omega⟩, rfl⟩
      · exact .inr (.inr ⟨by omega, by simpa using hw, by omega, rfl⟩)

theorem wholeFits_iff {c : CfgBlock} {avail : Nat} {e : TxEntry} :
    wholeFits c avail e = true ↔ e.data.length + overhead (cfgFamily c) e.wholeKind ≤ cfgMaxFrag c ∧
      4 + overhead (cfgFamily c) e.wholeKind + e.data.length ≤ avail := by
  simp [wholeFits]

/-- The payload of a split as one formula of truncated subtraction (R224). -/
theorem splitSize_eq (c : CfgBlock) (avail : Nat) (e : TxEntry) :
    splitSize c avail e =
      min (min (avail - 4) (cfgMaxFrag c) - overhead (cfgFamily c) e.splitKind) (e.data.length - 1) := by
  unfold splitSize
  split
  · omega
  · dsimp only
    split <;> omega

/-- A split leaves the cap, the budget and at least one byte for later (R224). -/
theorem splitSize_bounds {c : CfgBlock} {avail : Nat} {e : TxEntry} (h : 1 ≤ splitSize c avail e) :
    4 + overhead (cfgFamily c) e.splitKind + splitSize c avail e ≤ avail ∧
      overhead (cfgFamily c) e.splitKind + splitSize c avail e ≤ cfgMaxFrag c ∧ splitSize c avail e < e.data.length := by
  rw [splitSize_eq] at h ⊢
  omega

/-! ## BuildFrame -/

/-- What BuildFrame can do (R220, R229). -/
theorem State.buildFrame_cases (b : Nat) (s : State) :
    (s.buildFrame b = none ∧ (b < 1 ∨ (packLoop s.cfg s.txq (b - 1) 0 s.fragIdNext).frags = [])) ∨
    ∃ p, p = packLoop s.cfg s.txq (b - 1) 0 s.fragIdNext ∧ 1 ≤ b ∧ p.frags ≠ [] ∧
      s.buildFrame b = some (frameOf p.frags, { s with txq := p.txq, fragIdNext := p.fragIdNext }) := by
  simp only [State.buildFrame]
  split
  · exact .inl ⟨rfl, .inl ‹_›⟩
  · split
    · exact .inl ⟨rfl, .inr ‹_›⟩
    · exact .inr ⟨_, rfl, by omega, ‹_›, rfl⟩

/-- What a returned frame is made of. -/
theorem State.buildFrame_some {b : Nat} {s s1 : State} {f : Bytes} (h : s.buildFrame b = some (f, s1)) :
    ∃ p, p = packLoop s.cfg s.txq (b - 1) 0 s.fragIdNext ∧ 1 ≤ b ∧ p.frags ≠ [] ∧ f = frameOf p.frags ∧
      s1 = { s with txq := p.txq, fragIdNext := p.fragIdNext } := by
  rcases s.buildFrame_cases b with ⟨e, -⟩ | ⟨p, hp, hb, hf, e⟩
  · rw [e] at h; cases h
  · rw [e] at h; cases h; exact ⟨p, hp, hb, hf, rfl, rfl⟩

/-- An empty queue gives no frame. -/
theorem State.buildFrame_of_empty {b : Nat} {s : State} (h : s.txq = []) : s.buildFrame b = none := by
  simp [State.buildFrame, h, packLoop]

/-- The loop's fragments and what is left of the queue are bounded by what was there. -/
theorem txqBytes_packLoop_le (c : CfgBlock) (q : List TxEntry) :
    ∀ (avail n : Nat) (fidNext : BitVec 8), txqBytes (packLoop c q avail n fidNext).txq ≤ txqBytes q := by
  induction q with
  | nil => simp [packLoop, txqBytes]
  | cons e rest ih =>
    intro avail n fidNext
    rcases packLoop_cons c e rest avail n fidNext with ⟨-, h⟩ | ⟨-, -, p, rfl, h⟩ | ⟨-, -, -, h⟩
    · rw [h]
    · rw [h]
      refine (ih _ _ _).trans ?_
      simp [txqBytes]
    · rw [h]
      simp [packSplit, txqBytes]

/-! ## The ARQ sender -/

/-- What RXACK can do (R330): ignore, release from TXD, or release from RTXQ. -/
theorem rxackRule_cases (q : Seq) (flow : BitVec 8) (s : State) :
    ((s.arq = false ∨ flow ≠ s.cfg.flowId ∨ (∀ c ∈ s.txd, c.seq ≠ q) ∧ ∀ c ∈ s.rtxq, c.seq ≠ q) ∧
      rxackRule q flow s = .done (s.bump .ackIgnored) 0) ∨
    (s.arq = true ∧ flow = s.cfg.flowId ∧ (∃ c ∈ s.txd, c.seq = q) ∧ rxackRule q flow s =
      .done (({ s.cancel .rtx q with txd := mapErase ArqCtx.seq q s.txd } : State).bump .ackAccepted) 1) ∨
    (s.arq = true ∧ flow = s.cfg.flowId ∧ (∀ c ∈ s.txd, c.seq ≠ q) ∧ (∃ c ∈ s.rtxq, c.seq = q) ∧ rxackRule q flow s =
      .done (({ s with rtxq := mapErase ArqCtx.seq q s.rtxq } : State).bump .ackAccepted) 1) := by
  unfold rxackRule
  split
  · rename_i h
    rcases h with h | h
    · exact .inl ⟨.inl (by simpa using h), rfl⟩
    · exact .inl ⟨.inr (.inl h), rfl⟩
  · rename_i h
    simp only [Bool.not_eq_true', not_or, Bool.not_eq_false, ne_eq, Decidable.not_not] at h
    split
    · rename_i h1; exact .inr (.inl ⟨h.1, h.2, mapFind_isSome.1 h1, rfl⟩)
    · rename_i h1
      have h1' : ∀ c ∈ s.txd, c.seq ≠ q := mapFind_eq_none.1 (by simpa using h1)
      split
      · rename_i h2; exact .inr (.inr ⟨h.1, h.2, h1', by simpa using h2, rfl⟩)
      · rename_i h2; exact .inl ⟨.inr (.inr ⟨h1', by simpa using h2⟩), rfl⟩

/-- What TXOPP of an ARQ variant can do (R309): resend the head, send new data, or nothing. -/
theorem txoppArqRule_cases (b : Nat) (s : State) :
    (∃ c rest, s.rtxq = c :: rest ∧ c.pdu.length ≤ b ∧ txoppArqRule b s = resend c rest s) ∨
    ((∀ c rest, s.rtxq = c :: rest → ¬ c.pdu.length ≤ b) ∧ s.available = true ∧ 1 ≤ b ∧
      ∃ f s1, s.buildFrame (b - 1) = some (f, s1) ∧ txoppArqRule b s =
        sendFrame (s.seqNext :: f)
          (({ s1 with seqNext := s.seqNext + 1 } : State).transmit ⟨s.seqNext, s.seqNext :: f, 0⟩)) ∨
    ((∀ c rest, s.rtxq = c :: rest → ¬ c.pdu.length ≤ b) ∧
      (s.available = false ∨ b < 1 ∨ s.buildFrame (b - 1) = none) ∧ txoppArqRule b s = nullOpportunity s) := by
  have new : txoppArqRule b s = sendNew b s → (∀ c rest, s.rtxq = c :: rest → ¬ c.pdu.length ≤ b) →
      ((∀ c rest, s.rtxq = c :: rest → ¬ c.pdu.length ≤ b) ∧ s.available = true ∧ 1 ≤ b ∧
        ∃ f s1, s.buildFrame (b - 1) = some (f, s1) ∧ txoppArqRule b s =
          sendFrame (s.seqNext :: f)
            (({ s1 with seqNext := s.seqNext + 1 } : State).transmit ⟨s.seqNext, s.seqNext :: f, 0⟩)) ∨
      ((∀ c rest, s.rtxq = c :: rest → ¬ c.pdu.length ≤ b) ∧
        (s.available = false ∨ b < 1 ∨ s.buildFrame (b - 1) = none) ∧ txoppArqRule b s = nullOpportunity s) := by
    intro e hh
    rw [e]
    unfold sendNew
    split
    · rename_i ha
      split
      · rename_i f s1 hf
        exact .inl ⟨hh, ha.1, ha.2, f, s1, hf, rfl⟩
      · rename_i hf
        exact .inr ⟨hh, .inr (.inr hf), rfl⟩
    · rename_i ha
      refine .inr ⟨hh, ?_, rfl⟩
      by_cases h1 : s.available = true
      · exact .inr (.inl (Nat.lt_of_not_le fun hb => ha ⟨h1, hb⟩))
      · exact .inl (by simpa using h1)
  rcases h : s.rtxq with _ | ⟨c, rest⟩
  · exact .inr (by simpa only [h] using new (by simp [txoppArqRule, h]) (by simp [h]))
  · by_cases hc : c.pdu.length ≤ b
    · exact .inl ⟨c, rest, rfl, hc, by simp [txoppArqRule, h, hc]⟩
    · refine .inr ?_
      have := new (by simp [txoppArqRule, h, hc]) (by rw [h]; rintro _ _ ⟨⟩; exact hc)
      simpa only [h] using this

/-- What TXOPP of a plain variant can do (R230). -/
theorem txoppPlainRule_cases (b : Nat) (s : State) :
    (s.buildFrame b = none ∧ txoppPlainRule b s = nullOpportunity s) ∨
    ∃ f s1, s.buildFrame b = some (f, s1) ∧ txoppPlainRule b s = sendFrame f s1 := by
  rcases h : s.buildFrame b with _ | ⟨f, s1⟩
  · exact .inl ⟨rfl, by simp [txoppPlainRule, h]⟩
  · exact .inr ⟨f, s1, rfl, by simp [txoppPlainRule, h]⟩

end Sys2Proof.Machine
end

