-- ==== Sys2Proof/Laws/Pipeline.lean ====
section
/-! SUPPORT. Pipeline: what the command pipeline, the rules it runs and a step can do, and the principle that a property kept by
each rule is kept by every step. -/

namespace Sys2Proof.Machine

/-! ## The pipeline -/

/-- What a command of R413 can do: be refused, or run its rule. -/
theorem runCommand_cases (rule : State → Effect) (s : State) :
    (s.fatal = true ∧ runCommand rule s = s.refuse .inFatal) ∨
    (s.fatal = false ∧ s.configured = false ∧ runCommand rule s = s.refuse .notConfigured) ∨
    (s.fatal = false ∧ s.configured = true ∧ runCommand rule s = finish s (rule s)) := by
  rcases hf : s.fatal with _ | _ <;> rcases hc : s.configured with _ | _ <;> simp [runCommand, hf, hc]

/-- What an illegal command can do (R385). -/
theorem illegalCommand_cases (c : Bytes) (s : State) :
    (s.fatal = true ∧ illegalCommand c s = s.refuse .inFatal) ∨
    (s.fatal = false ∧ illegalCommand c s =
      (s.enterFatal .illegalCmd (illegalInfo c)).respond .illegalCmd (illegalInfo c)) := by
  rcases hf : s.fatal with _ | _ <;> simp [illegalCommand, hf, finish]

/-- What a wire unit can do (log entry 5). -/
theorem runUnit_cases (rule : State → Effect) (s : State) :
    (s.running = false ∧ runUnit rule s = s) ∨ (s.running = true ∧ runUnit rule s = finishUnit s (rule s)) := by
  rcases h : s.running with _ | _ <;> simp [runUnit, h]

theorem State.running_iff {s : State} : s.running = true ↔ s.configured = true ∧ s.fatal = false := by
  simp [State.running]

/-! ## The rules -/

/-- What ENQ can do (R190). -/
theorem enqRule_cases (dest : BitVec 32) (data : Bytes) (s : State) :
    (data.length = 0 ∧ enqRule dest data s = .fatal .pktEmpty 0) ∨
    (cfgMaxPkt s.cfg < data.length ∧ enqRule dest data s = .fatal .pktTooLarge (BitVec.ofNat 64 data.length)) ∨
    (1 ≤ data.length ∧ data.length ≤ cfgMaxPkt s.cfg ∧ s.cfg.txbufMax.toNat < s.txbufBytes + data.length ∧
      enqRule dest data s = .done (s.bump .txbufDrop) 0) ∨
    (1 ≤ data.length ∧ data.length ≤ cfgMaxPkt s.cfg ∧ s.txbufBytes + data.length ≤ s.cfg.txbufMax.toNat ∧
      enqRule dest data s = .done (({ s with
        txq := s.txq ++ [⟨data, .full, s.now, dest, 0, BitVec.ofNat 16 data.length⟩] } : State).bump .enqAccepted) 1) := by
  unfold enqRule
  split
  · exact .inl ⟨‹_›, rfl⟩
  · split
    · exact .inr (.inl ⟨‹_›, rfl⟩)
    · split
      · exact .inr (.inr (.inl ⟨by omega, by omega, ‹_›, rfl⟩))
      · exact .inr (.inr (.inr ⟨by omega, by omega, by omega, rfl⟩))

/-- What RXFRM of a plain variant can do (R275). -/
theorem rxfrmPlainRule_cases (f : Bytes) (s : State) :
    (parseFrame s.family f = none ∧ rxfrmPlainRule f s = .done (s.bump .rxMalformed) 0) ∨
    ∃ recs, parseFrame s.family f = some recs ∧
      rxfrmPlainRule f s = .done ((s.bump .framesRcvd).reassembleAll recs) 0 := by
  rcases h : parseFrame s.family f with _ | recs
  · exact .inl ⟨rfl, by simp [rxfrmPlainRule, h]⟩
  · exact .inr ⟨recs, rfl, by simp [rxfrmPlainRule, h]⟩

/-- What RXFRM of an ARQ variant can do (R340, R343). -/
theorem rxfrmArqRule_cases (pdu : Bytes) (s : State) :
    (parsePdu s.family pdu = none ∧ rxfrmArqRule pdu s = .done (s.bump .rxMalformed) 0) ∨
    ∃ q recs, parsePdu s.family pdu = some (q, recs) ∧
      ((128 ≤ seqDist s.ne q ∧ s.staleFatal = true ∧ rxfrmArqRule pdu s = .fatal .staleSeq (staleInfo s.ne q)) ∨
       (128 ≤ seqDist s.ne q ∧ s.staleFatal = false ∧
          rxfrmArqRule pdu s = .done ((acknowledge q s).bump .rxDup) 0) ∨
       (q = s.ne ∧ rxfrmArqRule pdu s = .done (inOrder recs (acknowledge q s)) 0) ∨
       (1 ≤ seqDist s.ne q ∧ seqDist s.ne q ≤ 127 ∧ rxfrmArqRule pdu s = .done (ahead q recs (acknowledge q s)) 0)) := by
  rcases h : parsePdu s.family pdu with _ | ⟨q, recs⟩
  · exact .inl ⟨rfl, by simp [rxfrmArqRule, h]⟩
  · refine .inr ⟨q, recs, rfl, ?_⟩
    simp only [rxfrmArqRule, h]
    split
    · rename_i h1; exact .inl ⟨h1.1, h1.2, rfl⟩
    · rename_i h1
      split
      · rename_i h0
        have e : q = s.ne := by
          have : q - s.ne = 0 := BitVec.eq_of_toNat_eq (by simpa [seqDist] using h0)
          have := BitVec.sub_add_cancel q s.ne
          simp_all
        exact .inr (.inr (.inl ⟨e, rfl⟩))
      · split
        · exact .inr (.inr (.inr ⟨by omega, by omega, rfl⟩))
        · refine .inr (.inl ⟨by omega, ?_, rfl⟩)
          by_contra hs
          exact h1 ⟨by omega, by simpa using hs⟩

/-- What a received fragment can do. -/
theorem fragmentRule_cases (b : Bytes) (s : State) :
    (deserialize s.family b = none ∧ fragmentRule b s = .done s 0) ∨
    ∃ r, deserialize s.family b = some r ∧ fragmentRule b s = .done (s.reassemble r) 0 := by
  rcases h : deserialize s.family b with _ | r
  · exact .inl ⟨rfl, by simp [fragmentRule, h]⟩
  · exact .inr ⟨r, rfl, by simp [fragmentRule, h]⟩

/-- What RESET does (R370): the two outcomes from the power-on state. -/
theorem execReset_cases (c : CfgBlock) (s : State) :
    (cfgFirstBad c = none ∧ execReset c s =
      .next (({ s.powerOn with cfg := c, status := statusConfigured } : State).respond .ok 0)) ∨
    ∃ i, cfgFirstBad c = some i ∧ execReset c s =
      .next ((s.powerOn.enterFatal .cfgInvalid (BitVec.ofNat 64 i)).respond .cfgInvalid (BitVec.ofNat 64 i)) := by
  rcases h : cfgFirstBad c with _ | i
  · exact .inl ⟨rfl, by simp [execReset, resetRule, h, finish]⟩
  · exact .inr ⟨i, rfl, by simp [execReset, resetRule, h, finish]⟩

/-- What TICK does (R375, I9). -/
theorem execTick_cases (n : BitVec 32) (s : State) :
    (s.running = true ∧ 2 ^ 64 ≤ s.now.toNat + n.toNat ∧ execTick n s = .fault .virtualTimeExhausted) ∨
    ((s.running = true → s.now.toNat + n.toNat < 2 ^ 64) ∧ execTick n s = .next (runCommand (tickRule n.toNat) s)) := by
  unfold execTick
  split
  · rename_i h; exact .inl ⟨h.1, h.2, rfl⟩
  · rename_i h; exact .inr ⟨fun hr => Nat.lt_of_not_le fun hn => h ⟨hr, hn⟩, rfl⟩

/-! ## Fatal causes -/

/-- A cause that makes an instance FATAL (R400). -/
def Cause.isFatal (c : Cause) : Prop := c ≠ .ok ∧ c ≠ .notConfigured ∧ c ≠ .inFatal

theorem enqRule_fatal {dest : BitVec 32} {data : Bytes} {s : State} {c : Cause} {i : Reg64}
    (h : enqRule dest data s = .fatal c i) : c.isFatal := by
  rcases enqRule_cases dest data s with ⟨-, e⟩ | ⟨-, e⟩ | ⟨-, -, -, e⟩ | ⟨-, -, -, e⟩ <;> rw [e] at h <;> cases h <;>
    simp [Cause.isFatal]

theorem rxfrmRule_fatal {f : Bytes} {s : State} {c : Cause} {i : Reg64} (h : rxfrmRule f s = .fatal c i) : c.isFatal := by
  unfold rxfrmRule at h
  split at h
  · rcases rxfrmArqRule_cases f s with
      ⟨-, e⟩ | ⟨q, recs, -, ⟨-, -, e⟩ | ⟨-, -, e⟩ | ⟨-, e⟩ | ⟨-, -, e⟩⟩ <;> rw [e] at h <;> cases h
    simp [Cause.isFatal]
  · rcases rxfrmPlainRule_cases f s with ⟨-, e⟩ | ⟨recs, -, e⟩ <;> rw [e] at h <;> cases h

theorem txoppRule_done (b : BitVec 32) (s : State) : ∃ t v, txoppRule b s = .done t v := by
  unfold txoppRule
  split
  · rcases txoppArqRule_cases b.toNat s with ⟨c, rest, -, -, e⟩ | ⟨-, -, -, f, s1, -, e⟩ | ⟨-, -, e⟩ <;>
      exact ⟨_, _, e⟩
  · rcases txoppPlainRule_cases b.toNat s with ⟨-, e⟩ | ⟨f, s1, -, e⟩ <;> exact ⟨_, _, e⟩

theorem rxackRule_done (q : Seq) (flow : BitVec 8) (s : State) : ∃ t v, rxackRule q flow s = .done t v := by
  rcases rxackRule_cases q flow s with ⟨-, e⟩ | ⟨-, -, -, e⟩ | ⟨-, -, -, -, e⟩ <;> exact ⟨_, _, e⟩

theorem fragmentRule_done (b : Bytes) (s : State) : ∃ t v, fragmentRule b s = .done t v := by
  rcases fragmentRule_cases b s with ⟨-, e⟩ | ⟨r, -, e⟩ <;> exact ⟨_, _, e⟩

/-! ## Invariants -/

/-- What a property must survive to be kept by every step: taking a command, the response, fatal entry, RESET, and each rule where
it runs. -/
structure Kept (P : State → Prop) : Prop where
  port : ∀ s q, P s → P { s with port := q }
  resp : ∀ s c v, P s → P (s.respond c v)
  fatal : ∀ s c i, Cause.isFatal c → P s → P (s.enterFatal c i)
  zero : ∀ s, P s → P s.powerOn
  config : ∀ s c, cfgFirstBad c = none → P s → P { s.powerOn with cfg := c, status := statusConfigured }
  enq : ∀ d x s t v, s.running = true → enqRule d x s = .done t v → P s → P t
  txopp : ∀ b s t v, s.running = true → txoppRule b s = .done t v → P s → P t
  rxfrm : ∀ f s t v, s.running = true → rxfrmRule f s = .done t v → P s → P t
  rxack : ∀ q w s t v, s.running = true → rxackRule q w s = .done t v → P s → P t
  tick : ∀ n s, s.running = true → s.now.toNat + n < 2 ^ 64 → P s → P (ticks n s)
  fragment : ∀ b s t v, s.running = true → fragmentRule b s = .done t v → P s → P t

namespace Kept

variable {P : State → Prop}

theorem finish (k : Kept P) {s : State} {e : Effect} (h : P s) (hd : ∀ t v, e = .done t v → P t)
    (hf : ∀ c i, e = .fatal c i → c.isFatal) : P (Machine.finish s e) := by
  cases e with
  | done t v => exact k.resp _ _ _ (hd t v rfl)
  | fatal c i => exact k.resp _ _ _ (k.fatal _ _ _ (hf c i rfl) h)

theorem command (k : Kept P) {rule : State → Effect} {s : State} (h : P s)
    (hd : s.running = true → ∀ t v, rule s = .done t v → P t)
    (hf : ∀ c i, rule s = .fatal c i → c.isFatal) : P (runCommand rule s) := by
  rcases runCommand_cases rule s with ⟨-, e⟩ | ⟨-, -, e⟩ | ⟨h1, h2, e⟩ <;> rw [e]
  · exact k.resp _ _ _ h
  · exact k.resp _ _ _ h
  · exact k.finish h (hd (State.running_iff.2 ⟨h2, h1⟩)) hf

theorem unit (k : Kept P) {rule : State → Effect} {s : State} (h : P s)
    (hd : s.running = true → ∀ t v, rule s = .done t v → P t)
    (hf : ∀ c i, rule s = .fatal c i → c.isFatal) : P (runUnit rule s) := by
  rcases runUnit_cases rule s with ⟨-, e⟩ | ⟨hr, e⟩ <;> rw [e]
  · exact h
  · cases he : rule s with
    | done t v => exact hd hr t v he
    | fatal c i => exact k.fatal _ _ _ (hf c i he) h

theorem illegal (k : Kept P) {s : State} (c : Bytes) (h : P s) : P (illegalCommand c s) := by
  rcases illegalCommand_cases c s with ⟨-, e⟩ | ⟨-, e⟩ <;> rw [e]
  · exact k.resp _ _ _ h
  · exact k.resp _ _ _ (k.fatal _ _ _ (by simp [Cause.isFatal]) h)

/-- Every instruction keeps the property. -/
theorem exec (k : Kept P) {i : Instr} {s t : State} (h : P s) (he : Machine.exec i s = .next t) : P t := by
  have next : ∀ {x : State}, (.next x : Host.Outcome State Fault Refusal) = .next t → P x → P t := by
    intro x hx hp; cases hx; exact hp
  have tx : ∀ b, P (runCommand (txoppRule b) s) := fun b =>
    k.command h (fun hr t v e => k.txopp b s t v hr e h)
      (fun c i e => by obtain ⟨t, v, e'⟩ := txoppRule_done b s; rw [e'] at e; cases e)
  have rx : ∀ f, P (runCommand (rxfrmRule f) s) := fun f =>
    k.command h (fun hr t v e => k.rxfrm f s t v hr e h) (fun c i e => rxfrmRule_fatal e)
  have rxu : ∀ f, P (runUnit (rxfrmRule f) s) := fun f =>
    k.unit h (fun hr t v e => k.rxfrm f s t v hr e h) (fun c i e => rxfrmRule_fatal e)
  have fr : ∀ b, P (runUnit (fragmentRule b) s) := fun b =>
    k.unit h (fun hr t v e => k.fragment b s t v hr e h)
      (fun c i e => by obtain ⟨t, v, e'⟩ := fragmentRule_done b s; rw [e'] at e; cases e)
  have ackf : ∀ q w c i, rxackRule q w s = .fatal c i → c.isFatal := fun q w c i e => by
    obtain ⟨t, v, e'⟩ := rxackRule_done q w s; rw [e'] at e; cases e
  have il : ∀ c, P (illegalCommand c s) := fun c => k.illegal c h
  cases i with
  | enq d x =>
    exact next he (k.command h (fun hr t v e => k.enq d x s t v hr e h) (fun c i e => enqRule_fatal e))
  | txopp b => exact next he (tx b)
  | txoppArq b => exact next he (tx b)
  | rxfrm f => exact next he (rx f)
  | rxfrmArq f => exact next he (rx f)
  | rxack q w => exact next he (k.command h (fun hr t v e => k.rxack q w s t v hr e h) (ackf q w))
  | tick n =>
    rcases execTick_cases n s with ⟨-, -, e⟩ | ⟨hn, e⟩
    · rw [show Machine.exec (.tick n) s = execTick n s from rfl, e] at he; cases he
    · rw [show Machine.exec (.tick n) s = execTick n s from rfl, e] at he
      exact next he (k.command h (fun hr t v e => by cases e; exact k.tick _ s hr (hn hr) h) (fun c i e => by cases e))
  | rdreg x => exact next he (k.resp _ _ _ h)
  | reset c =>
    rcases execReset_cases c s with ⟨hc, e⟩ | ⟨i, -, e⟩ <;> rw [show Machine.exec (.reset c) s = execReset c s from rfl, e] at he
    · exact next he (k.resp _ _ _ (k.config s c hc h))
    · exact next he (k.resp _ _ _ (k.fatal _ _ _ (by simp [Cause.isFatal]) (k.zero s h)))
  | reserved00 c => exact next he (il c)
  | reserved07 c => exact next he (il c)
  | reserved08 c => exact next he (il c)
  | reserved0C c => exact next he (il c)
  | reserved0E c => exact next he (il c)
  | reserved10 c => exact next he (il c)
  | reserved20 c => exact next he (il c)
  | reserved40 c => exact next he (il c)
  | reserved80 c => exact next he (il c)
  | rleFull r p => exact next he (fr _)
  | rleStart f n r p => exact next he (fr _)
  | rleCont f p => exact next he (fr _)
  | rleEnd f p => exact next he (fr _)
  | gseFull l p a x c => exact next he (fr _)
  | gseStart l f n p a x => exact next he (fr _)
  | gseCont l f x => exact next he (fr _)
  | gseEnd l f x c => exact next he (fr _)
  | fph fs => exact next he (rxu _)
  | arqSeq q f => exact next he (rxu _)
  | ackMsg q w => exact next he (k.unit h (fun hr t v e => k.rxack q w s t v hr e h) (ackf q w))

/-- Every step keeps the property. -/
theorem step (k : Kept P) {s t : State} (h : P s) (he : Machine.step s = .next t) : P t := by
  unfold Machine.step fetch at he
  rcases hp : s.port with _ | ⟨c, rest⟩
  · rw [hp] at he; cases he; exact h
  · rw [hp] at he
    rcases hd : decode s.arq c with _ | i
    · simp only [hd] at he; cases he; exact k.illegal c (k.port s rest h)
    · simp only [hd] at he; exact k.exec (k.port s rest h) he

end Kept

end Sys2Proof.Machine
end

