-- ==== Sys2Proof/Laws/Window.lean ====
section
/-! SUPPORT. Window: arithmetic of sequence numbers modulo 256 (R16, R300). -/

namespace Sys2Proof.Machine

@[simp] theorem seqDist_self (n : Seq) : seqDist n n = 0 := by simp [seqDist]

theorem seqDist_lt (a b : Seq) : seqDist a b < 256 := (b - a).isLt

/-- Moving the lower end up by one brings every other number one nearer. -/
theorem seqDist_succ_left {n k : Seq} (h : k ≠ n) : seqDist (n + 1) k + 1 = seqDist n k := by
  have h0 : k.toNat ≠ n.toNat := fun e => h (BitVec.eq_of_toNat_eq e)
  simp only [seqDist, BitVec.toNat_sub, BitVec.toNat_add, BitVec.ofNat_eq_ofNat, BitVec.toNat_ofNat]
  omega

/-- Moving the upper end up by one takes every number but the one below it one further. -/
theorem seqDist_succ_right {x n : Seq} (h : seqDist x n < 255) : seqDist x (n + 1) = seqDist x n + 1 := by
  simp only [seqDist, BitVec.toNat_sub, BitVec.toNat_add, BitVec.ofNat_eq_ofNat, BitVec.toNat_ofNat] at *
  omega

theorem eq_of_seqDist_eq_zero {n k : Seq} (h : seqDist n k = 0) : k = n := by
  by_contra hk
  have := seqDist_succ_left hk
  omega

/-- Two numbers at the same distance below a third are equal. -/
theorem eq_of_seqDist_eq {x y n : Seq} (h : seqDist x n = seqDist y n) : x = y := by
  have : n - x = n - y := BitVec.eq_of_toNat_eq h
  grind

/-- Distinct numbers at distances 1 to `w - 1` below a number are at most `w - 1`. -/
theorem length_le_of_seqDist {l : List Seq} {n : Seq} {w : Nat} (hn : l.Nodup)
    (h : ∀ x ∈ l, 1 ≤ seqDist x n ∧ seqDist x n < w) : l.length ≤ w - 1 := by
  have nd : (l.map (fun x => seqDist x n - 1)).Nodup := by
    refine (List.nodup_map_iff_inj_on hn).2 fun x hx y hy e => eq_of_seqDist_eq (n := n) ?_
    have := h x hx
    have := h y hy
    omega
  have sub := nd.subperm (l₂ := List.range (w - 1)) fun a ha => by
    obtain ⟨x, hx, rfl⟩ := List.mem_map.1 ha
    have := h x hx
    rw [List.mem_range]
    omega
  simpa using sub.length_le

end Sys2Proof.Machine
end

