-- ==== Sys2Proof/Tests/Slice0.lean ====
section
/-! SUPPORT. Slice0: tests of one decoding or one instruction each, with expected results from 95_test_vectors.md (V-…) or worked
out by hand from the rule named, and a witness for the premises of each statement. -/

namespace Sys2Proof.Tests

open Sys2Proof Sys2Proof.Machine

/-! ## Start states (95_test_vectors.md 2.0) and readers -/

/-- S_RLE. -/
def rle : State := { State.reset with
  cfg := { cfgZero with txbufMax := 10000, gseMaxfrag := 4095 }, status := 1 }

/-- S_GSE. -/
def gse : State := { State.reset with
  cfg := { cfgZero with variant := 2, txbufMax := 100000, gseMaxfrag := 4095, gsePt := 0x800 }, status := 1 }

/-- S_RARQ. -/
def rarq : State := { State.reset with
  cfg := { cfgZero with
    variant := 1, flowId := 7, arqWindow := 4, maxRtx := 2, tRtx := 10, tRxwait := 50, txbufMax := 10000, gseMaxfrag := 4095 }
  status := 1 }

/-- S_RARQF: S_RARQ with STALE_POLICY = FATAL. -/
def rarqf : State := { rarq with cfg := { rarq.cfg with stalePolicy := 1 } }

/-- An instance made FATAL by an illegal command. -/
def dead : State := { rle with status := 0x502, errInfo := 0x100000007 }

/-- An entry of TXQ. -/
def entry (d : Bytes) (tag : Kind) (fid : BitVec 8) (total : BitVec 16) : TxEntry :=
  { data := d, tag := tag, arrival := 0, dest := 0xABCDEF, fid := fid, total := total }

/-- The state of an outcome, power-on where there is none. -/
def after (o : Host.Outcome State Fault Refusal) : State :=
  match o with
  | .next t => t
  | .fault _ => State.reset
  | .refused _ => State.reset

/-- Whether an outcome is a next state. -/
def completes (o : Host.Outcome State Fault Refusal) : Bool :=
  match o with
  | .next _ => true
  | .fault _ => false
  | .refused _ => false

theorem next_after {o : Host.Outcome State Fault Refusal} (h : completes o = true) : o = .next (after o) := by
  cases o <;> first | rfl | cases h

/-- The records of an outcome's state. -/
def recs (o : Host.Outcome State Fault Refusal) : List OutRec := (after o).out

/-! ## WellFormed refuses the ill-formed -/

theorem test_wf_enq (d : Bytes) (h : d.length = 65536) : (Instr.enq 0 d).wf = false := by simp [Instr.wf, h]
theorem test_wf_rxfrm (f : Bytes) (h : f.length = 2 ^ 32) : (Instr.rxfrm f).wf = false := by simp [Instr.wf, h]
theorem test_wf_rxfrmArq (f : Bytes) (h : f.length = 2 ^ 32) : (Instr.rxfrmArq f).wf = false := by simp [Instr.wf, h]
theorem test_wf_reserved00 : (Instr.reserved00 [0x01]).wf = false ∧ (Instr.reserved00 []).wf = true := by decide
theorem test_wf_reserved07 : (Instr.reserved07 [0x08]).wf = false := by decide
theorem test_wf_reserved08 : (Instr.reserved08 [0x0C]).wf = false := by decide
theorem test_wf_reserved0C : (Instr.reserved0C [0x0E]).wf = false := by decide
theorem test_wf_reserved0E : (Instr.reserved0E [0x0F]).wf = false := by decide
theorem test_wf_reserved10 : (Instr.reserved10 [0x20]).wf = false := by decide
theorem test_wf_reserved20 : (Instr.reserved20 [0x40]).wf = false := by decide
theorem test_wf_reserved40 : (Instr.reserved40 [0x80]).wf = false := by decide
theorem test_wf_reserved80 : (Instr.reserved80 [0x7F]).wf = false := by decide
theorem test_wf_rle_empty : (Instr.rleFull 0 []).wf = false ∧ (Instr.rleStart 0 1 0 []).wf = false ∧
    (Instr.rleCont 0 []).wf = false ∧ (Instr.rleEnd 0 []).wf = false := by decide
theorem test_wf_rle_long (p : Bytes) (h : p.length = 2048) : (Instr.rleFull 0 p).wf = false ∧
    (Instr.rleStart 0 1 0 p).wf = false ∧ (Instr.rleCont 0 p).wf = false ∧ (Instr.rleEnd 0 p).wf = false := by
  simp [Instr.wf, payloadFits, h]
theorem test_wf_gse_empty : (Instr.gseFull 1 0 0 [] 0).wf = false ∧ (Instr.gseStart 1 0 1 0 0 []).wf = false ∧
    (Instr.gseCont 0 0 []).wf = false ∧ (Instr.gseEnd 0 0 [] 0).wf = false := by decide
theorem test_wf_gse_long (p : Bytes) (h : p.length = 4096) : (Instr.gseFull 1 0 0 p 0).wf = false ∧
    (Instr.gseStart 1 0 1 0 0 p).wf = false ∧ (Instr.gseCont 0 0 p).wf = false ∧ (Instr.gseEnd 0 0 p 0).wf = false := by
  simp [Instr.wf, payloadFits, h]
theorem test_wf_fph : (Instr.fph []).wf = false ∧ (Instr.fph [[]]).wf = false := by decide
theorem test_wf_fph_long (fs : List Bytes) (f : Bytes) (h : fs.length = 256) (h' : f.length = 2 ^ 32) :
    (Instr.fph fs).wf = false ∧ (Instr.fph [f]).wf = false := by simp [Instr.wf, fragsFit, fphMaxN, h, h']

/-! ## Decoding of written-out words -/

/-- V-ENQ-1. -/
theorem test_decode_enq : decode false [0x01, 0x00, 0xAB, 0xCD, 0xEF, 0x00, 0x0A, 0, 1, 2, 3, 4, 5, 6, 7, 8, 9] =
    .ok (.enq 0x00ABCDEF [0, 1, 2, 3, 4, 5, 6, 7, 8, 9]) := by decide
/-- V-TX-1's format with R93's big-endian budget: 0x01020304. -/
theorem test_decode_txopp : decode false [0x02, 0x01, 0x02, 0x03, 0x04] = .ok (.txopp 0x01020304) := by decide
/-- V-ARQ-1: TXOPP 100. -/
theorem test_decode_txoppArq : decode true [0x02, 0x00, 0x00, 0x00, 0x64] = .ok (.txoppArq 100) := by decide
/-- V-RX-1. -/
theorem test_decode_rxfrm : decode false [0x03, 0, 0, 0, 0x0A, 1, 0, 0, 0, 5, 0xC0, 0x18, 0x41, 0x42, 0x43] =
    .ok (.rxfrm [1, 0, 0, 0, 5, 0xC0, 0x18, 0x41, 0x42, 0x43]) := by decide
/-- R94 in an ARQ variant. -/
theorem test_decode_rxfrmArq : decode true [0x03, 0, 0, 0, 2, 0x07, 0x01] = .ok (.rxfrmArq [0x07, 0x01]) := by decide
/-- R95. -/
theorem test_decode_rxack : decode true [0x04, 0x05, 0x07] = .ok (.rxack 5 7) := by decide
/-- R96. -/
theorem test_decode_tick : decode false [0x05, 0x00, 0x01, 0x00, 0x02] = .ok (.tick 0x00010002) := by decide
/-- R98. -/
theorem test_decode_rdreg : decode false [0x06, 0x2F] = .ok (.rdreg 0x2F) := by decide
/-- S_GARQ's RESET. -/
theorem test_decode_reset :
    decode false [0x0F, 0x03, 0x07, 0, 0, 4, 2, 0, 0, 0, 0x0A, 0, 0, 0, 0x32, 0, 0, 0x27, 0x10, 0x0F, 0xFF, 0x08, 0x00] =
      .ok (.reset ⟨3, 7, 0, 0, 4, 2, 10, 50, 10000, 4095, 0x800⟩) := by decide
/-- R91, R99: the ends of each reserved range. -/
theorem test_decode_reserved00 : decode false [] = .ok (.reserved00 []) ∧ decode true [0x00, 0x05] = .ok (.reserved00 [0x00, 0x05]) := by
  decide
theorem test_decode_reserved07 : decode false [0x07] = .ok (.reserved07 [0x07]) := by decide
theorem test_decode_reserved08 : decode false [0x08] = .ok (.reserved08 [0x08]) ∧ decode false [0x0B, 1] = .ok (.reserved08 [0x0B, 1]) := by
  decide
theorem test_decode_reserved0C : decode false [0x0C] = .ok (.reserved0C [0x0C]) ∧ decode false [0x0D] = .ok (.reserved0C [0x0D]) := by
  decide
theorem test_decode_reserved0E : decode false [0x0E] = .ok (.reserved0E [0x0E]) := by decide
theorem test_decode_reserved10 : decode false [0x10] = .ok (.reserved10 [0x10]) ∧ decode false [0x1F] = .ok (.reserved10 [0x1F]) := by
  decide
theorem test_decode_reserved20 : decode false [0x20] = .ok (.reserved20 [0x20]) ∧ decode false [0x3F] = .ok (.reserved20 [0x3F]) := by
  decide
theorem test_decode_reserved40 : decode false [0x40] = .ok (.reserved40 [0x40]) ∧ decode false [0x7F] = .ok (.reserved40 [0x7F]) := by
  decide
theorem test_decode_reserved80 : decode false [0x80] = .ok (.reserved80 [0x80]) ∧ decode false [0xFF] = .ok (.reserved80 [0xFF]) := by
  decide
/-- R99: a defined opcode of a wrong length, and an ENQ and RXFRM short of and past their length operand. -/
theorem test_decode_wrong_length : decode false [0x02, 0, 0] = .error .wrongLength ∧
    decode false [0x01, 0, 0, 0, 0, 0, 2, 0x41] = .error .wrongLength ∧
    decode true [0x03, 0, 0, 0, 1, 0x41, 0x42] = .error .wrongLength ∧ decode false [0x06] = .error .wrongLength := by decide
/-- V-COD-13: reserved bits 111. -/
theorem test_decode_rleFull : decodeUnit .rleFragment [0xC0, 0x1F, 0x41, 0x42, 0x43] = .ok (.rleFull 7 [0x41, 0x42, 0x43]) := by
  decide
/-- V-COD-2. -/
theorem test_decode_rleStart : decodeUnit .rleFragment [0x80, 0x25, 0x12, 0xC0, 0x41, 0x42, 0x43, 0x44] =
    .ok (.rleStart 5 300 0 [0x41, 0x42, 0x43, 0x44]) := by decide
/-- V-COD-3. -/
theorem test_decode_rleCont : decodeUnit .rleFragment [0x00, 0x15, 0x00, 0x01] = .ok (.rleCont 5 [0, 1]) := by decide
/-- V-COD-4. -/
theorem test_decode_rleEnd : decodeUnit .rleFragment [0x40, 0x0F, 0xEE] = .ok (.rleEnd 7 [0xEE]) := by decide
/-- V-COD-25. -/
theorem test_decode_gseFull :
    decodeUnit .gseFragment [0xD0, 0x02, 0x08, 0x00, 0x12, 0x34, 0x56, 0x41, 0x42, 0xDE, 0xAD, 0xBE, 0xEF] =
      .ok (.gseFull 1 0x0800 0x123456 [0x41, 0x42] 0xDEADBEEF) := by decide
/-- V-COD-9. -/
theorem test_decode_gseStart : decodeUnit .gseFragment [0x90, 0x01, 0xFF, 0xFF, 0xFF, 0x86, 0xDD, 0xAB, 0xCD, 0xEF, 0x00] =
    .ok (.gseStart 1 255 65535 0x86DD 0xABCDEF [0]) := by decide
/-- V-COD-10. -/
theorem test_decode_gseCont : decodeUnit .gseFragment [0x00, 0x02, 0x80, 0x00, 0x01] = .ok (.gseCont 0 128 [0, 1]) := by decide
/-- V-COD-11. -/
theorem test_decode_gseEnd : decodeUnit .gseFragment [0x40, 0x01, 0x01, 0x00, 0, 0, 0, 0] = .ok (.gseEnd 0 1 [0] 0) := by decide
/-- V-COD-12 to V-COD-14, V-COD-17, V-COD-18: Deserialize with `consumed`. -/
theorem test_deserialize_rle_consumed : deserializeSized .rle [0xC0, 0x1F, 0x41, 0x42, 0x43] = some (.full [0x41, 0x42, 0x43], 2) ∧
    deserializeSized .rle [0x80, 0x10, 0x01, 0x40, 0xAA, 0xBB] = some (.start 0 20 [0xAA, 0xBB], 4) ∧
    deserializeSized .rle [0x00, 0x13, 0xAA, 0xAA] = some (.cont 3 [0xAA, 0xAA], 2) ∧
    deserializeSized .rle [0x40, 0x0F, 0xEE] = some (.end_ 7 [0xEE], 2) := by decide
/-- V-COD-24, V-COD-27 to V-COD-29: the same in GSE, where the trailer is not consumed. -/
theorem test_deserialize_gse_consumed :
    deserializeSized .gse [0xD0, 0x02, 0x08, 0x00, 0x12, 0x34, 0x56, 0x41, 0x42, 0, 0, 0, 0] = some (.full [0x41, 0x42], 7) ∧
    deserializeSized .gse [0x90, 0x01, 0xFF, 0xFF, 0xFF, 0x86, 0xDD, 0xAB, 0xCD, 0xEF, 0x00] = some (.start 255 65535 [0], 10) ∧
    deserializeSized .gse [0x00, 0x02, 0x80, 0x00, 0x01] = some (.cont 128 [0, 1], 3) ∧
    deserializeSized .gse [0x40, 0x01, 0x01, 0x00, 0, 0, 0, 0] = some (.end_ 1 [0], 3) := by decide
/-- R170: sequence number 5 is `05`, consuming 1 byte; no byte is malformed. -/
theorem test_deserialize_seq_consumed : deserializeSeq [0x05, 0x01] = some (5, 1) ∧ deserializeSeq [] = none := by decide
/-- V-COD-36. -/
theorem test_decode_fph :
    decodeUnit .frame [2, 0, 0, 0, 3, 0, 0, 0, 3, 0xC0, 0x08, 0xAA, 0xC0, 0x08, 0xBB] =
      .ok (.fph [[0xC0, 0x08, 0xAA], [0xC0, 0x08, 0xBB]]) := by decide
/-- R170. -/
theorem test_decode_arqSeq : decodeUnit .pdu [0xFE, 0x01, 0x02] = .ok (.arqSeq 0xFE [0x01, 0x02]) := by decide
/-- R175. -/
theorem test_decode_ackMsg : decodeUnit .ack [0x09, 0x07] = .ok (.ackMsg 9 7) := by decide
/-- V-COD-16, 20, 22, 30, 31, 38, 40, 41, 42: malformed units. -/
theorem test_decode_malformed :
    decodeUnit .rleFragment [0x80, 0x20, 0x01, 0x40, 0xAA, 0xBB] = .error .badFragmentLength ∧
    decodeUnit .rleFragment [0xC0, 0x00] = .error .badFragmentLength ∧
    decodeUnit .rleFragment [0x80, 0x08, 0x00] = .error .shortFragment ∧
    decodeUnit .gseFragment [0x40, 0x01, 0x01, 0x00] = .error .shortFragment ∧
    decodeUnit .gseFragment [0xD0, 0x00, 0x08, 0x00, 0x12, 0x34, 0x56, 0, 0, 0, 0] = .error .badFragmentLength ∧
    decodeUnit .frame [0x00] = .error .zeroCount ∧ decodeUnit .frame [1, 0, 0, 0, 0] = .error .zeroEntry ∧
    decodeUnit .frame [1, 0, 0, 0, 3, 0xC0, 0x08] = .error .badFrameLength ∧
    decodeUnit .frame [1, 0, 0, 0, 3, 0xC0, 0x08, 0xAA, 0xBB] = .error .badFrameLength := by decide

/-! ## One step of each instruction -/

/-- V-ENQ-1. -/
theorem test_enq_accepts : recs (exec (.enq 0xABCDEF [0, 1, 2, 3, 4, 5, 6, 7, 8, 9]) rle) = [.resp .ok 1] ∧
    (after (exec (.enq 0xABCDEF [0, 1, 2, 3, 4, 5, 6, 7, 8, 9]) rle)).readReg 0x13 = 10 := by decide
/-- R404: an empty packet. -/
theorem test_enq_empty_is_fatal : recs (exec (.enq 0 []) rle) = [.resp .pktEmpty 0] ∧
    (after (exec (.enq 0 []) rle)).status = 0x402 := by decide
/-- R230's example. -/
theorem test_txopp_whole :
    recs (exec (.txopp 100) { rle with txq := [entry [0, 1, 2, 3, 4, 5, 6, 7, 8, 9] .full 0 10] }) =
      [.frameOut true [1, 0, 0, 0, 0x0C, 0xC0, 0x50, 0, 1, 2, 3, 4, 5, 6, 7, 8, 9] 0, .resp .ok 0] := by decide
/-- R195's example: 6 bytes split off a 10-byte packet leave 24 with a 20-byte packet behind it (B = 1 + 4 + 4 + 6). -/
theorem test_txopp_split :
    recs (exec (.txopp 15) { rle with
        txq := [entry [0, 1, 2, 3, 4, 5, 6, 7, 8, 9] .full 0 10, entry (List.replicate 20 9) .full 0 20] }) =
      [.frameOut true [1, 0, 0, 0, 0x0A, 0x80, 0x30, 0x00, 0xA0, 0, 1, 2, 3, 4, 5] 24, .resp .ok 0] := by decide
/-- V-ARQ-1. -/
theorem test_txoppArq_new : recs (exec (.txoppArq 100) { rarq with txq := [entry [0, 1, 2] .full 0 3] }) =
    [.frameOut true [0, 1, 0, 0, 0, 5, 0xC0, 0x18, 0, 1, 2] 0, .resp .ok 0] ∧
    (after (exec (.txoppArq 100) { rarq with txq := [entry [0, 1, 2] .full 0 3] })).tmr = [⟨.rtx, 0, 10, 0⟩] := by decide
/-- R310: the head of RTXQ goes first, byte for byte, and its count rises. -/
theorem test_txoppArq_resend :
    recs (exec (.txoppArq 3) { rarq with rtxq := [⟨2, [2, 8, 9], 1⟩] }) = [.frameOut true [2, 8, 9] 0, .resp .ok 0] ∧
    (after (exec (.txoppArq 3) { rarq with rtxq := [⟨2, [2, 8, 9], 1⟩] })).txd = [⟨2, [2, 8, 9], 2⟩] := by decide
/-- V-RX-1. -/
theorem test_rxfrm_full : recs (exec (.rxfrm [1, 0, 0, 0, 5, 0xC0, 0x18, 0x41, 0x42, 0x43]) rle) =
    [.pktOut [0x41, 0x42, 0x43], .resp .ok 0] := by decide
/-- R260: a frame whose second fragment is malformed is dropped whole. -/
theorem test_rxfrm_malformed_whole :
    recs (exec (.rxfrm [2, 0, 0, 0, 3, 0, 0, 0, 2, 0xC0, 0x08, 0xAA, 0xC0, 0x00]) rle) = [.resp .ok 0] ∧
    (after (exec (.rxfrm [2, 0, 0, 0, 3, 0, 0, 0, 2, 0xC0, 0x08, 0xAA, 0xC0, 0x00]) rle)).cnt.rxMalformed = 1 := by decide
/-- R340: the ACK precedes the packet. -/
theorem test_rxfrmArq_in_order : recs (exec (.rxfrmArq [0, 1, 0, 0, 0, 3, 0xC0, 0x08, 0xAA]) rarq) =
    [.ackOut 0 7, .pktOut [0xAA], .resp .ok 0] ∧ (after (exec (.rxfrmArq [0, 1, 0, 0, 0, 3, 0xC0, 0x08, 0xAA]) rarq)).ne = 1 := by
  decide
/-- R406's example: NE = 5, q = 3. -/
theorem test_rxfrmArq_stale : recs (exec (.rxfrmArq [3, 1, 0, 0, 0, 3, 0xC0, 0x08, 0xAA]) { rarqf with ne := 5 }) =
    [.resp .staleSeq 0x0503] := by decide
/-- R330's example. -/
theorem test_rxack_releases :
    recs (exec (.rxack 0 7) { rarq with txd := [⟨0, [0, 1], 0⟩], tmr := [⟨.rtx, 0, 10, 0⟩] }) = [.resp .ok 1] ∧
    (after (exec (.rxack 0 7) { rarq with txd := [⟨0, [0, 1], 0⟩], tmr := [⟨.rtx, 0, 10, 0⟩] })).tmr = [] := by decide
/-- R331: another flow's ACK. -/
theorem test_rxack_other_flow : recs (exec (.rxack 0 8) { rarq with txd := [⟨0, [0, 1], 0⟩] }) = [.resp .ok 0] := by decide
/-- R375: a timer of deadline 2 fires in the second tick, and TICK 1 does not reach it. -/
theorem test_tick_fires : (after (exec (.tick 2) { rarq with txd := [⟨0, [0, 1], 0⟩], tmr := [⟨.rtx, 0, 2, 0⟩] })).rtxq = [⟨0, [0, 1], 0⟩] ∧
    (after (exec (.tick 1) { rarq with txd := [⟨0, [0, 1], 0⟩], tmr := [⟨.rtx, 0, 2, 0⟩] })).rtxq = [] := by decide
/-- R345: two gaps that run out in one tick are forced through in stamp order, and the PDU behind them comes out. -/
theorem test_tick_drains :
    (after (exec (.tick 1) { rarq with
        rob := [⟨0, false, []⟩, ⟨1, false, []⟩, ⟨2, true, [.full [7]]⟩], tmr := [⟨.rxw, 0, 1, 0⟩, ⟨.rxw, 1, 1, 1⟩] })).ne = 3 ∧
    recs (exec (.tick 1) { rarq with
        rob := [⟨0, false, []⟩, ⟨1, false, []⟩, ⟨2, true, [.full [7]]⟩], tmr := [⟨.rxw, 0, 1, 0⟩, ⟨.rxw, 1, 1, 1⟩] }) =
      [.pktOut [7], .resp .ok 0] := by decide
/-- R380's example, and a reserved index. -/
theorem test_rdreg : recs (exec (.rdreg 0x00) rle) = [.resp .ok 0x534E5333454E4331] ∧
    recs (exec (.rdreg 0x1C) dead) = [.resp .ok 0] := by decide
/-- R264's example: RA_STATE. -/
theorem test_rdreg_raState :
    { rle with raActive := true, raFid := 1, raTotal := 20, raBuf := [1, 2, 3, 4, 5, 6] }.readReg 0x17 = 0x0000000600140101 := by
  decide
/-- R370's examples. -/
theorem test_reset_valid : recs (exec (.reset { cfgZero with txbufMax := 1000 }) dead) = [.resp .ok 0] ∧
    (after (exec (.reset { cfgZero with txbufMax := 1000 }) dead)).status = 1 := by decide
theorem test_reset_invalid :
    recs (exec (.reset { cfgZero with variant := 1, maxRtx := 3, tRtx := 50, tRxwait := 100, txbufMax := 1000 }) rle) =
      [.resp .cfgInvalid 5] := by decide
/-- R405's example, and R99 for the empty command. -/
theorem test_reserved07 : recs (exec (.reserved07 [0x07]) rle) = [.resp .illegalCmd 0x0000000100000007] := by decide
theorem test_reserved00 : recs (exec (.reserved00 []) State.reset) = [.resp .illegalCmd 0] := by decide
theorem test_reserved_rows : recs (exec (.reserved08 [0x0B, 1]) rle) = [.resp .illegalCmd 0x000000020000000B] ∧
    recs (exec (.reserved0C [0x0D]) rle) = [.resp .illegalCmd 0x000000010000000D] ∧
    recs (exec (.reserved0E [0x0E]) dead) = [.resp .inFatal 0] ∧
    recs (exec (.reserved10 [0x1F]) rle) = [.resp .illegalCmd 0x000000010000001F] ∧
    recs (exec (.reserved20 [0x20]) rle) = [.resp .illegalCmd 0x0000000100000020] ∧
    recs (exec (.reserved40 [0x7F]) rle) = [.resp .illegalCmd 0x000000010000007F] ∧
    recs (exec (.reserved80 [0xFF, 1, 2]) rle) = [.resp .illegalCmd 0x00000003000000FF] := by decide
/-- R405's other example, through step: TXOPP of three bytes. -/
theorem test_step_wrong_length : recs (step { rle with port := [[0x02, 0, 0]] }) = [.resp .illegalCmd 0x0000000300000102] := by
  decide
/-- R264, R269 on RLE units: a START opens, the END completes. -/
theorem test_rleStart : (after (exec (.rleStart 1 3 0 [8, 9]) rle)).raBuf = [8, 9] := by decide
theorem test_rleFull : recs (exec (.rleFull 5 [8, 9]) rle) = [.pktOut [8, 9]] := by decide
theorem test_rleCont : (after (exec (.rleCont 1 [7]) { rle with raActive := true, raFid := 1, raTotal := 9, raBuf := [8] })).raBuf = [8, 7] := by
  decide
theorem test_rleEnd : recs (exec (.rleEnd 1 [7]) { rle with raActive := true, raFid := 1, raTotal := 2, raBuf := [8] }) = [.pktOut [8, 7]] := by
  decide
/-- The same on GSE units; the CRC and the label are ignored (R158). -/
theorem test_gseStart : (after (exec (.gseStart 3 200 3 1 2 [8, 9]) gse)).raFid = 200 := by decide
theorem test_gseFull : recs (exec (.gseFull 1 0 0 [8, 9] 0xDEADBEEF) gse) = [.pktOut [8, 9]] := by decide
/-- R267: a wrong fragment id discards the chain. -/
theorem test_gseCont_wrong_fid :
    (after (exec (.gseCont 0 2 [7]) { gse with raActive := true, raFid := 1, raTotal := 9, raBuf := [8] })).raActive = false := by
  decide
/-- R269: a length mismatch at END is a defect. -/
theorem test_gseEnd_mismatch :
    (after (exec (.gseEnd 0 1 [7] 0) { gse with raActive := true, raFid := 1, raTotal := 9, raBuf := [8] })).cnt.reasmDefect = 1 := by
  decide
/-- R272: records in the order packed. -/
theorem test_fph : recs (exec (.fph [[0xC0, 0x08, 0xAA], [0xC0, 0x08, 0xBB]]) rle) = [.pktOut [0xAA], .pktOut [0xBB]] := by decide
/-- R342: a PDU two ahead is stored and the two numbers below it are awaited. -/
theorem test_arqSeq_ahead : (after (exec (.arqSeq 2 [1, 0, 0, 0, 3, 0xC0, 0x08, 0xAA]) rarq)).rob =
    [⟨0, false, []⟩, ⟨1, false, []⟩, ⟨2, true, [.full [0xAA]]⟩] := by decide
/-- R330 on the ACK message. -/
theorem test_ackMsg : (after (exec (.ackMsg 5 7) { rarq with rtxq := [⟨5, [5], 1⟩] })).rtxq = [] := by decide
/-- R233: the least RLE budgets: 8 bytes for a one-byte packet, 10 for a split. -/
theorem test_least_budgets : (State.buildFrame 7 { rle with txq := [entry [1] .full 0 1] }).isNone = true ∧
    (State.buildFrame 8 { rle with txq := [entry [1] .full 0 1] }).isSome = true ∧
    (State.buildFrame 9 { rle with txq := [entry (List.replicate 30 1) .full 0 30] }).isNone = true ∧
    (State.buildFrame 10 { rle with txq := [entry (List.replicate 30 1) .full 0 30] }).isSome = true := by decide
/-- The table's numbering: bit 0 is the least significant bit of the first byte, operand words of zeros. -/
theorem test_table_words : decodeTableWord 8 0x06 = some (.rdreg 0) ∧ decodeTableWord 16 0x2F06 = some (.rdreg 0x2F) ∧
    decodeTableWord 8 0x01 = some (.enq 0 []) ∧ recs (step (State.reset.withFetchWord 16 0x1006)) = [.resp .ok 0] := by decide

/-! ## Witnesses: concrete states and operands that meet the premises of a statement -/

/-- A sender with a chain in progress: 2 of 5 bytes sent as fragment 3. -/
def midSender : State := { rle with txq := [entry [3, 4, 5] .end_ 3 5, entry [9] .full 0 1], fragIdNext := 4 }

/-- The receiver that stands where `midSender` left off. -/
def midReceiver : State := { rle with raActive := true, raFid := 3, raTotal := 5, raBuf := [1, 2] }

/-- An ARQ sender with number 0 waiting for its ACK and number 1 queued for retransmission. -/
def arqSender : State := { rarq with
  seqNext := 2, txd := [⟨0, [0, 1], 0⟩], rtxq := [⟨1, [1, 1], 1⟩], tmr := [⟨.rtx, 0, 10, 0⟩], stampNext := 1 }

/-- An ARQ receiver that expects 254, awaits it and holds 255. -/
def arqReceiver : State := { rarq with
  ne := 254, rob := [⟨254, false, []⟩, ⟨255, true, [.full [7]]⟩], tmr := [⟨.rxw, 254, 50, 0⟩], stampNext := 1 }

/-- A frame with one FULL fragment of one byte. -/
def frameAA : Bytes := [1, 0, 0, 0, 3, 0xC0, 0x08, 0xAA]

theorem witness_EveryResetLeavesTheListedValues :
    cfgFirstBad rarq.cfg = none ∧ cfgFirstBad { rarq.cfg with gseMaxfrag := 11, variant := 3 } = some 10 := by decide
/-- R10's ranges at both ends, in an ARQ GSE variant: each end accepted, and one past it rejected with its field number. -/
theorem witness_ResetAcceptsExactlyTheLegalRanges :
    cfgFirstBad { rarq.cfg with variant := 3, windowMode := 1, stalePolicy := 1, arqWindow := 1, maxRtx := 1, tRtx := 1,
                                tRxwait := 1, txbufMax := 1, gseMaxfrag := 12 } = none ∧
    cfgFirstBad { rarq.cfg with variant := 3, arqWindow := 128, maxRtx := 255, tRtx := 0xFFFFFFFF, tRxwait := 0xFFFFFFFF,
                                txbufMax := 0xFFFFFFFF, gseMaxfrag := 4095 } = none ∧
    cfgFirstBad { rarq.cfg with variant := 4, arqWindow := 0 } = some 1 ∧
    cfgFirstBad { rarq.cfg with windowMode := 2, stalePolicy := 2 } = some 3 ∧
    cfgFirstBad { rarq.cfg with stalePolicy := 2 } = some 4 ∧ cfgFirstBad { rarq.cfg with arqWindow := 0 } = some 5 ∧
    cfgFirstBad { rarq.cfg with arqWindow := 129 } = some 5 ∧ cfgFirstBad { rarq.cfg with maxRtx := 0 } = some 6 ∧
    cfgFirstBad { rarq.cfg with tRtx := 0 } = some 7 ∧ cfgFirstBad { rarq.cfg with tRxwait := 0 } = some 8 ∧
    cfgFirstBad { rarq.cfg with txbufMax := 0 } = some 9 ∧
    cfgFirstBad { rarq.cfg with variant := 3, gseMaxfrag := 11 } = some 10 ∧
    cfgFirstBad { rarq.cfg with variant := 3, gseMaxfrag := 4096 } = some 10 := by decide
theorem witness_RefusedCommandsChangeNothing : (Instr.tick 0).needsConfig = true ∧ (Instr.reserved80 [0xFF]).reservedBytes.isSome = true ∧
    dead.fatal = true ∧ State.reset.fatal = false ∧ State.reset.configured = false ∧
    { dead with port := [[0x06]] }.port = [0x06] :: [] ∧ decode { dead with port := [[0x06]] }.arq [0x06] = .error .wrongLength ∧
    { dead with port := [[0x06]] }.fatal = true := by decide
theorem witness_ReservedOpcodesAreIllegal : (Instr.reserved08 [0x0B, 1]).reservedBytes = some [0x0B, 1] ∧
    (Instr.reserved08 [0x0B, 1]).wf = true ∧ (Instr.reserved00 []).reservedBytes = some [] ∧ (Instr.reserved00 []).wf = true ∧
    dead.fatal = true ∧ rle.fatal = false := by decide
theorem witness_WrongLengthIsIllegal : { rle with port := [[0x0F]] }.port = [0x0F] :: [] ∧
    [0x0F].headD (0 : Byte) ∈ ([0x01, 0x02, 0x03, 0x04, 0x05, 0x06, 0x0F] : List Byte) ∧ [0x0F].length ≠ commandLength [0x0F] ∧
    [0x01, 0, 0, 0, 0, 0, 0, 0x41].length ≠ commandLength [0x01, 0, 0, 0, 0, 0, 0, 0x41] ∧
    { rle with port := [[0x0F]] }.fatal = false ∧ { dead with port := [[0x0F]] }.fatal = true := by decide
theorem witness_FatalEntryIsPrecise : (Instr.enq 0 []).isReset = false ∧ (Instr.enq 0 []).isCommand = true ∧ rle.fatal = false ∧
    exec (.enq 0 []) rle = .next (after (exec (.enq 0 []) rle)) ∧ (after (exec (.enq 0 []) rle)).fatal = true :=
  ⟨by decide, by decide, by decide, next_after (by decide), by decide⟩
theorem witness_FatalIsStickyUntilReset : dead.fatal = true ∧ (Instr.ackMsg 0 0).isReset = false ∧
    exec (.ackMsg 0 0) dead = .next dead ∧ exec (.tick 1) dead = .next (after (exec (.tick 1) dead)) :=
  ⟨by decide, by decide, rfl, next_after (by decide)⟩
theorem witness_EveryCommandRespondsOnceAndLast : (Instr.txopp 9).isCommand = true ∧
    exec (.txopp 9) midSender = .next (after (exec (.txopp 9) midSender)) := ⟨by decide, next_after (by decide)⟩
theorem witness_WireUnitsActOnlyInConfiguredAndNeverRespond : (Instr.fph [[1]]).isCommand = false ∧ dead.fatal = true ∧
    State.reset.configured = false := by decide
theorem witness_WireUnitsAreProcessedAsTheirBytes : rle.configured = true ∧ rle.fatal = false ∧
    (Instr.fph [[1]]).wireUnit = some .frame ∧ (Instr.arqSeq 0 []).wireUnit = some .pdu ∧
    (Instr.rleCont 0 [1]).wireUnit = some .rleFragment ∧ (Instr.gseCont 0 0 [1]).wireUnit = some .gseFragment := by decide
theorem witness_EnqChecksDropsOrAppends : rle.configured = true ∧ rle.fatal = false ∧ gse.configured = true ∧ gse.fatal = false := by
  decide
theorem witness_PlainTxoppSendsTheBuiltFrameOrNothing : midSender.configured = true ∧ midSender.fatal = false ∧
    midSender.arq = false ∧ (midSender.buildFrame 8).isSome = true ∧ (midSender.buildFrame 7).isNone = true := by decide
theorem witness_ArqTxoppResendsFirstThenSendsNew : arqSender.configured = true ∧ arqSender.fatal = false ∧ arqSender.arq = true ∧
    arqSender.rtxq = ⟨1, [1, 1], 1⟩ :: [] ∧ [1, 1].length ≤ (2 : BitVec 32).toNat := by decide
theorem witness_ArqTxoppResendsFirstThenSendsNew_new :
    ({ arqSender with txq := [entry [1] .full 0 1], rtxq := [⟨1, List.replicate 40 1, 1⟩] } : State).available = true ∧
    (State.buildFrame 8 { arqSender with txq := [entry [1] .full 0 1], rtxq := [⟨1, List.replicate 40 1, 1⟩] }).isSome = true ∧
    (9 : BitVec 32).toNat < [1, 1, 1, 1, 1, 1, 1, 1, 1, 1].length ∧ (9 : BitVec 32).toNat - 1 = 8 := by decide
theorem witness_ArqTxoppResendsFirstThenSendsNew_null :
    ({ arqSender with cfg := { rarq.cfg with arqWindow := 2 } } : State).available = false ∧
    (1 : BitVec 32).toNat < [1, 1].length ∧ (arqSender.buildFrame 0).isNone = true := by decide
theorem witness_FramesStayWithinBudgetAndFragmentCap :
    midSender.buildFrame 11 = some ([1, 0, 0, 0, 5, 0x40, 0x1B, 3, 4, 5], { midSender with txq := [entry [9] .full 0 1] }) := by
  decide
theorem witness_BuildFrameTakesWholeEntriesThenOneSplit :
    (midSender.buildFrame 9).map Prod.fst = some [1, 0, 0, 0, 4, 0x00, 0x13, 3, 4] ∧ (midSender.buildFrame 6).isNone = true ∧
    (State.buildFrame 10 { midSender with txq := [entry [6, 7] .full 0 2] }).map (fun r => r.2.fragIdNext) = some 4 ∧
    (State.buildFrame 12 { midSender with txq := [entry (List.replicate 9 6) .full 0 9] }).map (fun r => r.2.fragIdNext) = some 5 := by
  decide
theorem witness_TheLeastOpportunityIsExact : cfgFirstBad midSender.cfg = none ∧ 1 ≤ (entry [3, 4, 5] .end_ 3 5).data.length ∧
    (entry [3, 4, 5] .end_ 3 5).data.length + overhead midSender.family (entry [3, 4, 5] .end_ 3 5).wholeKind ≤
      cfgMaxFrag midSender.cfg ∧ 1 + overhead .rle .full ≤ rleMaxFrag := by decide

theorem midSender_txqLegal : TxqLegal midSender := by
  refine ⟨?_, ?_, by decide, by decide⟩
  · intro e he
    rcases List.mem_cons.1 he with rfl | he
    · exact ⟨by decide, by decide, by decide, .inr ⟨.inr rfl, by decide⟩⟩
    · obtain rfl := List.mem_singleton.1 he
      exact ⟨by decide, by decide, by decide, .inl ⟨rfl, by decide⟩⟩
  · intro e he
    obtain rfl := List.mem_singleton.1 he
    rfl

theorem witness_FramesParseAndLoseNoByte : cfgFirstBad midSender.cfg = none ∧ TxqLegal midSender ∧
    (midSender.buildFrame 9).isSome = true := ⟨by decide, midSender_txqLegal, by decide⟩
theorem witness_PlainRxfrmParsesThenReassembles : rle.configured = true ∧ rle.fatal = false ∧ rle.arq = false ∧
    parseFrame rle.family [0] = none ∧ parseFrame rle.family frameAA = some [.full [0xAA]] := by decide
theorem witness_RleFragmentsReassembleAsTheirRecords (p : Bytes) (h : p.length = 2047) : rle.configured = true ∧
    rle.fatal = false ∧ rle.family = .rle ∧ 1 ≤ [(0 : Byte)].length ∧ 1 ≤ p.length ∧ p.length < 2048 := by
  refine ⟨by decide, by decide, by decide, by decide, by omega, by omega⟩
theorem witness_GseFragmentsReassembleAsTheirRecords (p : Bytes) (h : p.length = 4095) : gse.configured = true ∧
    gse.fatal = false ∧ gse.family = .gse ∧ 1 ≤ [(0 : Byte)].length ∧ 1 ≤ p.length ∧ p.length < 4096 := by
  refine ⟨by decide, by decide, by decide, by decide, by omega, by omega⟩
theorem witness_RxfrmRunsItsFragmentsInOrder : rle.configured = true ∧ rle.fatal = false ∧ rle.arq = false ∧
    [Instr.rleStart 1 2 0 [8], .rleEnd 1 [9]] ≠ [] ∧ [Instr.rleStart 1 2 0 [8], .rleEnd 1 [9]].length ≤ 255 ∧
    ∀ i ∈ [Instr.rleStart 1 2 0 [8], .rleEnd 1 [9]], i.wireUnit = some (fragmentUnit rle.family) ∧ i.wf = true := by decide
theorem witness_FrameUnitsReassembleOrCountMalformed : rle.configured = true ∧ rle.fatal = false ∧ rle.arq = false ∧
    fragsFit [[0xC0, 0x08, 0xAA]] = true ∧ fragsFit [[0xC0]] = true ∧ deserializeAll rle.family [[0xC0]] = none := by decide
theorem witness_LosslessOpportunityDeliversWhatIsOwed : midSender.configured = true ∧ midSender.fatal = false ∧
    midSender.arq = false ∧ cfgFirstBad midSender.cfg = none ∧ TxqLegal midSender ∧ midReceiver.configured = true ∧
    midReceiver.fatal = false ∧ midReceiver.arq = false ∧ midReceiver.family = midSender.family ∧ Linked midSender midReceiver ∧
    exec (.txopp 10) midSender = .next (after (exec (.txopp 10) midSender)) ∧
    recs (exec (.txopp 10) midSender) =
      midSender.out ++ [.frameOut true [1, 0, 0, 0, 5, 0x40, 0x1B, 3, 4, 5] 1, .resp .ok 0] :=
  ⟨by decide, by decide, by decide, by decide, midSender_txqLegal, by decide, by decide, by decide, by decide,
    ⟨rfl, rfl, rfl, by decide⟩, next_after (by decide), by decide⟩
theorem witness_AcceptedPacketsAreOwedLast : midSender.configured = true ∧ midSender.fatal = false ∧ Linked midSender midReceiver ∧
    exec (.enq 0 [1]) midSender = .next (after (exec (.enq 0 [1]) midSender)) ∧
    recs (exec (.enq 0 [1]) midSender) = midSender.out ++ [.resp .ok 1] :=
  ⟨by decide, by decide, ⟨rfl, rfl, rfl, by decide⟩, next_after (by decide), by decide⟩

/-- `midSender` and `midReceiver` as ARQ instances, the receiver at the sender's number 255. -/
def arqMidSender : State := { midSender with cfg := rarq.cfg, seqNext := 255 }
def arqMidReceiver : State := { midReceiver with cfg := rarq.cfg, ne := 255 }

theorem rarq_senderLegal (s : State) (h1 : s.txd = []) (h2 : s.rtxq = []) : SenderLegal s := by
  refine ⟨?_, ?_, ?_, ?_, ?_, ?_⟩ <;> simp [h1, h2, KeysRise]

theorem witness_LosslessArqOpportunityDeliversAndIsReleased : arqMidSender.configured = true ∧ arqMidSender.fatal = false ∧
    arqMidSender.arq = true ∧ CfgLegal arqMidSender ∧ TxqLegal arqMidSender ∧ SenderLegal arqMidSender ∧ arqMidSender.rtxq = [] ∧
    arqMidReceiver.configured = true ∧ arqMidReceiver.fatal = false ∧ arqMidReceiver.arq = true ∧
    arqMidReceiver.family = arqMidSender.family ∧ arqMidReceiver.cfg.flowId = arqMidSender.cfg.flowId ∧
    arqMidReceiver.ne = arqMidSender.seqNext ∧ arqMidReceiver.rob = [] ∧ Linked arqMidSender arqMidReceiver ∧
    exec (.txoppArq 11) arqMidSender = .next (after (exec (.txoppArq 11) arqMidSender)) ∧
    recs (exec (.txoppArq 11) arqMidSender) =
      arqMidSender.out ++ [.frameOut true [255, 1, 0, 0, 0, 5, 0x40, 0x1B, 3, 4, 5] 1, .resp .ok 0] :=
  ⟨by decide, by decide, by decide, fun _ => by decide, midSender_txqLegal, rarq_senderLegal _ rfl rfl, by decide, by decide,
    by decide, by decide, by decide, by decide, by decide, by decide, ⟨rfl, rfl, rfl, by decide⟩, next_after (by decide), by decide⟩
theorem witness_ArqRxfrmAcknowledgesAndClassifies : rarq.configured = true ∧ rarq.fatal = false ∧ rarq.arq = true ∧
    rarqf.configured = true ∧ rarqf.fatal = false ∧ rarqf.arq = true ∧ rarqf.cfg.stalePolicy = 1 ∧
    parsePdu rarq.family [] = none ∧ parsePdu rarq.family (128 :: frameAA) = some (128, [.full [0xAA]]) ∧
    parsePdu rarq.family (127 :: frameAA) = some (127, [.full [0xAA]]) ∧
    parsePdu rarq.family (0 :: frameAA) = some (0, [.full [0xAA]]) ∧ ((128 : Seq) - rarq.ne).toNat ≥ 128 ∧
    ¬ ((127 : Seq) - rarq.ne).toNat ≥ 128 ∧ (0 : Seq) = rarq.ne := by decide
theorem witness_PduUnitsCompleteAsTheirRxfrm : rarq.configured = true ∧ rarq.fatal = false ∧ rarq.arq = true ∧
    parseFrame rarq.family [] = none ∧ parseFrame rarq.family frameAA = some [.full [0xAA]] ∧ (0 : Seq) = rarq.ne := by decide
theorem witness_InOrderPdusAreReassembledAtOnce : ∃ e ∈ arqReceiver.rob, e.seq = arqReceiver.ne := by decide
theorem witness_DrainStopsAtTheFirstGap :
    KeysRise RobEntry.seq { arqReceiver with ne := 255 }.rob ∧ ({ arqReceiver with ne := 255 } : State).drain.ne = 0 ∧
    arqReceiver.drain.ne = 254 := by
  refine ⟨?_, by decide, by decide⟩
  unfold KeysRise
  decide

theorem arqReceiver_legal : ReceiverLegal arqReceiver := by
  unfold ReceiverLegal KeysRise
  decide

theorem witness_PdusAheadAreStoredAndTheGapAwaited : ReceiverLegal arqReceiver ∧ 1 ≤ seqDist arqReceiver.ne 255 ∧
    seqDist arqReceiver.ne 255 ≤ 127 ∧
    mapFind RobEntry.seq 255 arqReceiver.rob = some ⟨255, true, [.full [7]]⟩ ∧
    seqDist arqReceiver.ne 125 = 127 ∧ mapFind RobEntry.seq 125 arqReceiver.rob = none :=
  ⟨arqReceiver_legal, by decide, by decide, by decide, by decide, by decide⟩
theorem witness_RxackReleasesOrIgnores : arqSender.configured = true ∧ arqSender.fatal = false ∧ arqSender.arq = true ∧
    (7 : BitVec 8) = arqSender.cfg.flowId ∧ (∃ c ∈ arqSender.txd, c.seq = 0) ∧ (∃ c ∈ arqSender.rtxq, c.seq = 1) := by decide
theorem witness_AckMessagesCompleteAsRxack : arqSender.configured = true ∧ arqSender.fatal = false := by decide

theorem arqSender_legal : SenderLegal arqSender := by
  unfold SenderLegal KeysRise
  decide

theorem arqSender_timers : TimersLegal arqSender := by
  refine ⟨by decide, by decide, by decide, ?_, ?_, by decide⟩ <;> intro q <;> simp [arqSender, rarq, State.reset]

theorem witness_AnAckReleasesExactlyOnce : arqSender.configured = true ∧ arqSender.fatal = false ∧ SenderLegal arqSender ∧
    TimersLegal arqSender ∧ exec (.rxack 1 7) arqSender = .next (after (exec (.rxack 1 7) arqSender)) ∧
    recs (exec (.rxack 1 7) arqSender) = arqSender.out ++ [.resp .ok 1] ∧
    recs (exec (.rxack 0 7) arqSender) = arqSender.out ++ [.resp .ok 1] :=
  ⟨by decide, by decide, arqSender_legal, arqSender_timers, next_after (by decide), by decide, by decide⟩
theorem witness_RetransmissionTimeoutsRequeueOrGiveUp : mapFind ArqCtx.seq 5 arqSender.txd = none ∧
    mapFind ArqCtx.seq 0 arqSender.txd = some ⟨0, [0, 1], 0⟩ ∧ (0 : BitVec 8).toNat < arqSender.cfg.maxRtx.toNat ∧
    mapFind ArqCtx.seq 0 { arqSender with txd := [⟨0, [0, 1], 2⟩] }.txd = some ⟨0, [0, 1], 2⟩ ∧
    ¬ (2 : BitVec 8).toNat < arqSender.cfg.maxRtx.toNat := by decide
theorem witness_RxWaitExpiryForcesTheGapThrough : mapFind RobEntry.seq 254 arqReceiver.rob = some ⟨254, false, []⟩ ∧
    mapFind RobEntry.seq 255 arqReceiver.rob = some ⟨255, true, [.full [7]]⟩ := by decide
theorem witness_TicksThatReachNoDeadlineOnlyAdvanceTime : arqSender.configured = true ∧ arqSender.fatal = false ∧
    arqSender.now.toNat + (9 : BitVec 32).toNat < 2 ^ 64 ∧
    (∀ t ∈ arqSender.tmr, arqSender.now.toNat + (9 : BitVec 32).toNat < t.deadline) ∧
    arqSender.now.toNat + (0 : BitVec 32).toNat < 2 ^ 64 := by decide
theorem witness_TicksFireEveryDueTimer : arqSender.configured = true ∧ arqSender.fatal = false ∧
    arqSender.now.toNat + (10 : BitVec 32).toNat < 2 ^ 64 ∧ (∀ t ∈ arqSender.tmr, arqSender.now.toNat < t.deadline) ∧
    ¬ ∀ t ∈ arqSender.tmr, arqSender.now.toNat + (10 : BitVec 32).toNat < t.deadline := by decide
theorem witness_TicksFireInDeadlineOrder : arqSender.configured = true ∧ arqSender.fatal = false ∧
    arqSender.now.toNat + 1 < 2 ^ 64 ∧ (4 : BitVec 32).toNat + (6 : BitVec 32).toNat < 2 ^ 32 ∧
    arqSender.now.toNat + (4 : BitVec 32).toNat + (6 : BitVec 32).toNat < 2 ^ 64 ∧
    (∀ u ∈ arqSender.tmr, arqSender.now.toNat < u.deadline) ∧
    (∃ u ∈ { arqSender with now := 10 }.tmr, u.deadline ≤ { arqSender with now := 10 }.now.toNat) := by decide
theorem witness_TicksPastVirtualTimeStop : { rle with now := 0xFFFFFFFFFFFFFFFF }.configured = true ∧
    { rle with now := 0xFFFFFFFFFFFFFFFF }.fatal = false ∧
    { rle with now := 0xFFFFFFFFFFFFFFFF }.now.toNat + (1 : BitVec 32).toNat ≥ 2 ^ 64 := by decide
theorem witness_StepRunsTheDecodedCommand : { rarq with port := [[0x02, 0, 0, 0, 9], [0x06, 0]] }.port = [0x02, 0, 0, 0, 9] :: [[0x06, 0]] ∧
    decode { rarq with port := [[0x02, 0, 0, 0, 9], [0x06, 0]] }.arq [0x02, 0, 0, 0, 9] = .ok (.txoppArq 9) := by decide
theorem witness_AnIdleBlockDoesNothing : rle.port = [] := by decide
theorem witness_OnlyTheNamedCommandsWriteEachRegister : (Instr.rdreg 5).isReset = false ∧
    exec (.rdreg 5) arqSender = .next (after (exec (.rdreg 5) arqSender)) ∧ (Instr.rdreg 5).isCommand = true ∧
    (∀ n, Instr.rdreg 5 ≠ .tick n) ∧ (∀ b, Instr.rdreg 5 ≠ .txopp b ∧ Instr.rdreg 5 ≠ .txoppArq b) ∧
    ∀ f n, Instr.rdreg 5 ≠ .rxfrm f ∧ Instr.rdreg 5 ≠ .rxfrmArq f ∧ Instr.rdreg 5 ≠ .tick n := by
  refine ⟨by decide, next_after (by decide), by decide, ?_, ?_, ?_⟩ <;> intros <;> simp
theorem witness_TheHalvesAreIndependent : exec (.rxack 1 7) arqSender = .next (after (exec (.rxack 1 7) arqSender)) ∧
    exec (.rxfrm frameAA) rle = .next (after (exec (.rxfrm frameAA) rle)) ∧ (Instr.fph [[1]]).isCommand = false ∧
    (∀ q flow, Instr.fph [[1]] ≠ .ackMsg q flow) ∧ exec (.fph [[1]]) rle = .next (after (exec (.fph [[1]]) rle)) := by
  refine ⟨next_after (by decide), next_after (by decide), by decide, ?_, next_after (by decide)⟩
  intros; simp
/-- States with one command waiting. -/
def rleIllegal : State := { rle with port := [[0x07]] }
def midSenderTxopp : State := { midSender with port := [[0x02, 0, 0, 0, 9]] }
def midReceiverRxfrm : State := { midReceiver with port := [[0x03, 0, 0, 0, 8] ++ frameAA] }
def arqSenderTick : State := { arqSender with port := [[0x05, 0, 0, 0, 10]] }
def rleRxack : State := { rle with port := [[0x04, 0, 0]] }

theorem witness_EveryStepKeepsStatusLegal : StatusLegal rleIllegal ∧ step rleIllegal = .next (after (step rleIllegal)) :=
  ⟨.inr (.inl rfl), next_after (by decide)⟩
theorem witness_EveryStepKeepsTheTransmissionBufferLegal : TxqLegal midSenderTxopp ∧
    step midSenderTxopp = .next (after (step midSenderTxopp)) := ⟨midSender_txqLegal, next_after (by decide)⟩
theorem witness_EveryStepKeepsTheReassemblyContextLegal : ReassemblyLegal midReceiverRxfrm ∧
    step midReceiverRxfrm = .next (after (step midReceiverRxfrm)) :=
  ⟨⟨by decide, by decide, by decide, by decide, by simp [midReceiverRxfrm, midReceiver, rle, State.reset]⟩,
    next_after (by decide)⟩
theorem witness_EveryStepKeepsTheArqStateLegal : ArqLegal arqSenderTick ∧
    step arqSenderTick = .next (after (step arqSenderTick)) :=
  ⟨⟨fun _ => by decide, arqSender_legal, by unfold ReceiverLegal KeysRise; decide, arqSender_timers⟩, next_after (by decide)⟩
theorem witness_EveryStepKeepsPlainVariantsWithoutArqState : PlainLegal rleRxack ∧ rleRxack.arq = false ∧
    step rleRxack = .next (after (step rleRxack)) := ⟨fun _ => by decide, by decide, next_after (by decide)⟩
theorem witness_CommandsDecodeToThemselves : (Instr.rxfrmArq [1]).isCommand = true ∧ (Instr.rxfrmArq [1]).wf = true ∧
    (Instr.rxfrmArq [1]).fitsVariant true = true ∧ (Instr.reserved20 [0x3F]).wf = true := by decide
theorem witness_WireUnitsDecodeToThemselves : (Instr.gseEnd 0 255 [1] 0xFFFFFFFF).wireUnit = some .gseFragment ∧
    (Instr.gseEnd 0 255 [1] 0xFFFFFFFF).wf = true := by decide
theorem witness_DecodedBytesAreTheEncoding : decode true [0x04, 1, 2] = .ok (.rxack 1 2) ∧
    decodeUnit .rleFragment [0x40, 0x0F, 0xEE] = .ok (.rleEnd 7 [0xEE]) := by decide
theorem witness_SerializedFragmentsDeserialize : 1 ≤ [(9 : Byte)].length ∧ (7 : BitVec 8).toNat < (cfgFamily rle.cfg).fidMod ∧
    (entry [9] .full 0 4095).total.toNat ≤ cfgMaxPkt rle.cfg ∧ (255 : BitVec 8).toNat < (cfgFamily gse.cfg).fidMod ∧
    (entry [9] .full 0 65535).total.toNat ≤ cfgMaxPkt gse.cfg ∧ fragsFit [[0]] = true := by decide

theorem witness_ConsumedBytesAreTheLeadingHeader : deserializeSized .rle [0x80, 0x08, 0x00, 0x20, 0x00] = some (.start 0 2 [0], 4) ∧
    deserializeSized .gse [0x40, 0x01, 0x01, 0x00, 0, 0, 0, 0] = some (.end_ 1 [0], 3) ∧ deserializeSeq [0xFF] = some (255, 1) := by
  decide

end Sys2Proof.Tests
end

section
/-! PROOFS. Scope (00_scope.md): virtual time ends at 2^64 - 1 (R17, I9), and the halves of the block are independent (R8). -/

namespace Sys2Proof.Machine

/-! ## Virtual time -/

/-- Settles O42: TICK's range check is the first thing a running block does. -/
theorem ticksPastVirtualTimeStop : Obligations.TicksPastVirtualTimeStop := by
  intro n s hconf hfatal hlate
  change execTick n s = _
  rcases execTick_cases n s with ⟨-, -, stops⟩ | ⟨inRange, -⟩
  · exact stops
  · exact absurd (inRange (State.running_iff.2 ⟨hconf, hfatal⟩)) (Nat.not_lt.2 hlate)

/-! ## Properties that no report touches

What the pipeline adds to a rule are reports: output records, counters, STATUS and ERR_INFO. A property that ignores them
holds after a command as soon as it holds before and wherever the rule itself ends. -/

/-- The property reads no output record, counter, STATUS or ERR_INFO. -/
structure IgnoresReports (P : State → Prop) : Prop where
  emit : ∀ s r, P s → P (s.emit r)
  bump : ∀ s k, P s → P (s.bump k)
  enterFatal : ∀ s c info, P s → P (s.enterFatal c info)

/-- The state a rule ends in has the property; a rule that raises FATAL ends in none (R410). -/
def Effect.Ends (P : State → Prop) : Effect → Prop
  | .done t _ => P t
  | .fatal _ _ => True

@[simp] theorem Effect.ends_done {P : State → Prop} {t : State} {v : Reg64} : (Effect.done t v).Ends P ↔ P t := Iff.rfl
@[simp] theorem Effect.ends_fatal {P : State → Prop} {c : Cause} {info : Reg64} : (Effect.fatal c info).Ends P := trivial

namespace IgnoresReports

variable {P : State → Prop} {s : State}

theorem runCommand (hP : IgnoresReports P) {rule : State → Effect} (hs : P s) (hrule : (rule s).Ends P) :
    P (Machine.runCommand rule s) := by
  rcases runCommand_cases rule s with ⟨-, e⟩ | ⟨-, -, e⟩ | ⟨-, -, e⟩ <;> rw [e]
  · exact hP.emit _ _ hs
  · exact hP.emit _ _ hs
  · cases hr : rule s with
    | done t v => exact hP.emit _ _ (by rwa [hr] at hrule)
    | fatal c info => exact hP.emit _ _ (hP.enterFatal _ _ _ hs)

theorem runUnit (hP : IgnoresReports P) {rule : State → Effect} (hs : P s) (hrule : (rule s).Ends P) :
    P (Machine.runUnit rule s) := by
  rcases runUnit_cases rule s with ⟨-, e⟩ | ⟨-, e⟩ <;> rw [e]
  · exact hs
  · cases hr : rule s with
    | done t v => rwa [hr] at hrule
    | fatal c info => exact hP.enterFatal _ _ _ hs

theorem sendFrame (hP : IgnoresReports P) (hs : P s) (frame : Bytes) : (Machine.sendFrame frame s).Ends P :=
  hP.emit _ _ (hP.bump _ _ hs)

theorem nullOpportunity (hP : IgnoresReports P) (hs : P s) : (Machine.nullOpportunity s).Ends P :=
  hP.emit _ _ (hP.bump _ _ hs)

end IgnoresReports

/-! ## Sending leaves the receive half alone -/

theorem SameReceiveHalf.refl (s : State) : SameReceiveHalf s s := ⟨rfl, rfl, rfl, rfl, rfl, rfl⟩

theorem SameReceiveHalf.ignoresReports (s : State) : IgnoresReports (SameReceiveHalf s) where
  emit _ _ h := h
  bump _ _ h := h
  enterFatal _ _ _ h := h

theorem State.buildFrame_sameReceiveHalf {b : Nat} {s t : State} {f : Bytes} (h : s.buildFrame b = some (f, t)) :
    SameReceiveHalf s t := by
  obtain ⟨p, -, -, -, -, rfl⟩ := State.buildFrame_some h
  exact .refl s

theorem State.transmit_sameReceiveHalf {s t : State} (h : SameReceiveHalf s t) (c : ArqCtx) :
    SameReceiveHalf s (t.transmit c) := h

theorem resend_sameReceiveHalf (c : ArqCtx) (rest : List ArqCtx) (s : State) :
    (resend c rest s).Ends (SameReceiveHalf s) := by
  have hP := SameReceiveHalf.ignoresReports s
  have popped : SameReceiveHalf s { s with rtxq := rest } := .refl s
  exact hP.sendFrame (hP.bump _ _ (State.transmit_sameReceiveHalf popped _)) c.pdu

theorem enqRule_sameReceiveHalf (dest : BitVec 32) (data : Bytes) (s : State) :
    (enqRule dest data s).Ends (SameReceiveHalf s) := by
  rcases enqRule_cases dest data s with ⟨-, e⟩ | ⟨-, e⟩ | ⟨-, -, -, e⟩ | ⟨-, -, -, e⟩ <;> rw [e]
  · exact Effect.ends_fatal
  · exact Effect.ends_fatal
  · exact SameReceiveHalf.refl s
  · exact SameReceiveHalf.refl s

theorem txoppPlainRule_sameReceiveHalf (b : Nat) (s : State) : (txoppPlainRule b s).Ends (SameReceiveHalf s) := by
  have hP := SameReceiveHalf.ignoresReports s
  rcases txoppPlainRule_cases b s with ⟨-, e⟩ | ⟨f, t, built, e⟩ <;> rw [e]
  · exact hP.nullOpportunity (.refl s)
  · exact hP.sendFrame (State.buildFrame_sameReceiveHalf built) f

theorem txoppArqRule_sameReceiveHalf (b : Nat) (s : State) : (txoppArqRule b s).Ends (SameReceiveHalf s) := by
  have hP := SameReceiveHalf.ignoresReports s
  rcases txoppArqRule_cases b s with ⟨c, rest, -, -, e⟩ | ⟨-, -, -, f, t, built, e⟩ | ⟨-, -, e⟩ <;> rw [e]
  · exact resend_sameReceiveHalf c rest s
  · have kept := State.buildFrame_sameReceiveHalf built
    have numbered : SameReceiveHalf s { t with seqNext := s.seqNext + 1 } := kept
    exact hP.sendFrame (State.transmit_sameReceiveHalf numbered _) _
  · exact hP.nullOpportunity (.refl s)

theorem txoppRule_sameReceiveHalf (b : BitVec 32) (s : State) : (txoppRule b s).Ends (SameReceiveHalf s) := by
  unfold txoppRule
  split
  · exact txoppArqRule_sameReceiveHalf _ s
  · exact txoppPlainRule_sameReceiveHalf _ s

theorem rxackRule_sameReceiveHalf (q : Seq) (flow : BitVec 8) (s : State) :
    (rxackRule q flow s).Ends (SameReceiveHalf s) := by
  rcases rxackRule_cases q flow s with ⟨-, e⟩ | ⟨-, -, -, e⟩ | ⟨-, -, -, -, e⟩ <;> rw [e] <;>
    exact SameReceiveHalf.refl s

/-! ## Receiving leaves the transmit half alone -/

theorem SameTransmitHalf.refl (s : State) : SameTransmitHalf s s := ⟨rfl, rfl, rfl, rfl, rfl⟩

theorem SameTransmitHalf.trans {s t u : State} (h : SameTransmitHalf s t) (h' : SameTransmitHalf t u) :
    SameTransmitHalf s u := by
  simp_all [SameTransmitHalf]

theorem SameTransmitHalf.ignoresReports (s : State) : IgnoresReports (SameTransmitHalf s) where
  emit _ _ h := h
  bump _ _ h := h
  enterFatal _ _ _ h := h

theorem State.reassemble_sameTransmitHalf (r : FragRec) (s : State) : SameTransmitHalf s (s.reassemble r) := by
  simp [SameTransmitHalf]

theorem State.reassembleAll_sameTransmitHalf (recs : List FragRec) (s : State) :
    SameTransmitHalf s (s.reassembleAll recs) := by
  simp [SameTransmitHalf]

theorem inOrder_sameTransmitHalf (recs : List FragRec) (s : State) : SameTransmitHalf s (inOrder recs s) := by
  simp [SameTransmitHalf]

theorem ahead_sameTransmitHalf (q : Seq) (recs : List FragRec) (s : State) : SameTransmitHalf s (ahead q recs s) := by
  rw [ahead_frame]
  exact .refl s

theorem acknowledge_sameTransmitHalf (q : Seq) (s : State) : SameTransmitHalf s (acknowledge q s) := by
  simp [SameTransmitHalf, acknowledge]

theorem fragmentRule_sameTransmitHalf (b : Bytes) (s : State) : (fragmentRule b s).Ends (SameTransmitHalf s) := by
  rcases fragmentRule_cases b s with ⟨-, e⟩ | ⟨r, -, e⟩ <;> rw [e]
  · exact SameTransmitHalf.refl s
  · exact s.reassemble_sameTransmitHalf r

theorem rxfrmPlainRule_sameTransmitHalf (f : Bytes) (s : State) : (rxfrmPlainRule f s).Ends (SameTransmitHalf s) := by
  rcases rxfrmPlainRule_cases f s with ⟨-, e⟩ | ⟨recs, -, e⟩ <;> rw [e]
  · exact SameTransmitHalf.refl s
  · exact (s.bump .framesRcvd).reassembleAll_sameTransmitHalf recs

theorem rxfrmArqRule_sameTransmitHalf (pdu : Bytes) (s : State) : (rxfrmArqRule pdu s).Ends (SameTransmitHalf s) := by
  have acked := fun q => acknowledge_sameTransmitHalf q s
  rcases rxfrmArqRule_cases pdu s with
    ⟨-, e⟩ | ⟨q, recs, -, ⟨-, -, e⟩ | ⟨-, -, e⟩ | ⟨-, e⟩ | ⟨-, -, e⟩⟩ <;> rw [e]
  case inl => exact SameTransmitHalf.refl s
  case inr.inl => exact Effect.ends_fatal
  case inr.inr.inl => exact (SameTransmitHalf.ignoresReports s).bump _ _ (acked q)
  case inr.inr.inr.inl => exact Effect.ends_done.2 ((acked q).trans (inOrder_sameTransmitHalf recs _))
  case inr.inr.inr.inr => exact Effect.ends_done.2 ((acked q).trans (ahead_sameTransmitHalf q recs _))

theorem rxfrmRule_sameTransmitHalf (f : Bytes) (s : State) : (rxfrmRule f s).Ends (SameTransmitHalf s) := by
  unfold rxfrmRule
  split
  · exact rxfrmArqRule_sameTransmitHalf f s
  · exact rxfrmPlainRule_sameTransmitHalf f s

/-! ## The instructions of the two halves -/

/-- Every wire unit but an ACK message is a fragment or is read as RXFRM reads its bytes (log entry 5). -/
theorem exec_receivedUnit {i : Instr} (hunit : i.isCommand = false) (hack : ∀ q flow, i ≠ .ackMsg q flow) (s : State) :
    exec i s = .next (runUnit (fragmentRule (encode i)) s) ∨ exec i s = .next (runUnit (rxfrmRule (encode i)) s) := by
  cases i with
  | rleFull | rleStart | rleCont | rleEnd | gseFull | gseStart | gseCont | gseEnd => exact .inl rfl
  | fph | arqSeq => exact .inr rfl
  | ackMsg q flow => exact absurd rfl (hack q flow)
  | _ => cases hunit

theorem exec_sending_sameReceiveHalf {s t : State} {dest : BitVec 32} {data : Bytes} {b : BitVec 32} {q : Seq}
    {flow : BitVec 8}
    (h : exec (.enq dest data) s = .next t ∨ exec (.txopp b) s = .next t ∨ exec (.txoppArq b) s = .next t ∨
      exec (.rxack q flow) s = .next t ∨ exec (.ackMsg q flow) s = .next t) : SameReceiveHalf s t := by
  have hP := SameReceiveHalf.ignoresReports s
  have hs := SameReceiveHalf.refl s
  rcases h with h | h | h | h | h <;> cases h
  · exact hP.runCommand hs (enqRule_sameReceiveHalf dest data s)
  · exact hP.runCommand hs (txoppRule_sameReceiveHalf b s)
  · exact hP.runCommand hs (txoppRule_sameReceiveHalf b s)
  · exact hP.runCommand hs (rxackRule_sameReceiveHalf q flow s)
  · exact hP.runUnit hs (rxackRule_sameReceiveHalf q flow s)

theorem exec_receiving_sameTransmitHalf {i : Instr} {s t : State}
    (hi : (∃ f, i = .rxfrm f ∨ i = .rxfrmArq f) ∨ (i.isCommand = false ∧ ∀ q flow, i ≠ .ackMsg q flow))
    (h : exec i s = .next t) : SameTransmitHalf s t := by
  have hP := SameTransmitHalf.ignoresReports s
  have hs := SameTransmitHalf.refl s
  rcases hi with ⟨f, rfl | rfl⟩ | ⟨hunit, hack⟩
  · cases h; exact hP.runCommand hs (rxfrmRule_sameTransmitHalf f s)
  · cases h; exact hP.runCommand hs (rxfrmRule_sameTransmitHalf f s)
  · rcases exec_receivedUnit hunit hack s with e | e <;> rw [e] at h <;> cases h
    · exact hP.runUnit hs (fragmentRule_sameTransmitHalf _ s)
    · exact hP.runUnit hs (rxfrmRule_sameTransmitHalf _ s)

/-- Settles O47: each half's rules keep the other half, and the pipeline around them adds reports only. -/
theorem theHalvesAreIndependent : Obligations.TheHalvesAreIndependent :=
  fun _ _ => ⟨fun _ _ _ _ _ h => exec_sending_sameReceiveHalf h, fun _ hi h => exec_receiving_sameTransmitHalf hi h⟩

end Sys2Proof.Machine
end

section
/-! PROOFS. State (10_state.md): who writes the registers (R21, R25, R29, R31, R34), what the resets leave (R49), and STATUS as
every step keeps it (R22). -/

namespace Sys2Proof.Machine

/-! ## Where a rule ends -/

/-- What holds wherever a rule ends holds in the state it is done with. -/
theorem Effect.Ends.of_done {P : State → Prop} {e : Effect} {t : State} {v : Reg64} (h : e.Ends P) (he : e = .done t v) :
    P t := by
  subst he; exact h

theorem Effect.Ends.imp {P Q : State → Prop} {e : Effect} (h : e.Ends P) (hpq : ∀ t, P t → Q t) : e.Ends Q := by
  cases e with
  | done t v => exact hpq t h
  | fatal c info => trivial

theorem Effect.Ends.and {P Q : State → Prop} {e : Effect} (h : e.Ends P) (h' : e.Ends Q) :
    e.Ends (fun t => P t ∧ Q t) := by
  cases e with
  | done t v => exact ⟨h, h'⟩
  | fatal c info => trivial

/-- The ACK of a well-formed PDU is a report: a record and two counters (R340). -/
theorem IgnoresReports.acknowledge {P : State → Prop} (hP : IgnoresReports P) {s : State} (h : P s) (q : Seq) :
    P (Machine.acknowledge q s) :=
  hP.bump _ _ (hP.emit _ _ (hP.bump _ _ h))

/-- A property that ENQ may store under holds wherever ENQ ends: the rest of its rule are reports (R190). -/
theorem IgnoresReports.enqRule {P : State → Prop} (hP : IgnoresReports P) {s : State} (h : P s)
    (hstore : ∀ entry, P { s with txq := s.txq ++ [entry] }) (dest : BitVec 32) (data : Bytes) :
    (Machine.enqRule dest data s).Ends P := by
  rcases enqRule_cases dest data s with ⟨-, e⟩ | ⟨-, e⟩ | ⟨-, -, -, e⟩ | ⟨-, -, -, e⟩ <;> rw [e]
  · exact Effect.ends_fatal
  · exact Effect.ends_fatal
  · exact hP.bump _ _ h
  · exact hP.bump _ _ (hstore _)

/-! ## The setting: configuration, port, STATUS and NOW

No rule of 41 to 44 writes them: the configuration and the port are RESET's and the host's, NOW is TICK's, and STATUS changes by
RESET and fatal entry only (R21, R22, R25, R90). -/

/-- The two states agree on the configuration, the command port, STATUS and NOW. -/
def SameSetting (s t : State) : Prop := t.cfg = s.cfg ∧ t.port = s.port ∧ t.status = s.status ∧ t.now = s.now

theorem SameSetting.refl (s : State) : SameSetting s s := ⟨rfl, rfl, rfl, rfl⟩

theorem SameSetting.trans {s t u : State} (h : SameSetting s t) (h' : SameSetting t u) : SameSetting s u := by
  simp_all [SameSetting]

theorem State.reassembleAll_sameSetting (recs : List FragRec) (s : State) : SameSetting s (s.reassembleAll recs) := by
  simp [SameSetting]

theorem acknowledge_sameSetting (q : Seq) (s : State) : SameSetting s (acknowledge q s) := by
  simp [SameSetting, acknowledge]

theorem inOrder_sameSetting (recs : List FragRec) (s : State) : SameSetting s (inOrder recs s) := by
  simp [SameSetting]

theorem ahead_sameSetting (q : Seq) (recs : List FragRec) (s : State) : SameSetting s (ahead q recs s) := by
  rw [ahead_frame]
  exact .refl s

theorem onRtxExpiry_sameSetting (q : Seq) (s : State) : SameSetting s (onRtxExpiry q s) := by
  simp [SameSetting]

theorem State.buildFrame_sameSetting {b : Nat} {s t : State} {f : Bytes} (h : s.buildFrame b = some (f, t)) :
    SameSetting s t := by
  obtain ⟨p, -, -, -, -, rfl⟩ := State.buildFrame_some h
  exact .refl s

theorem enqRule_sameSetting (dest : BitVec 32) (data : Bytes) (s : State) : (enqRule dest data s).Ends (SameSetting s) := by
  rcases enqRule_cases dest data s with ⟨-, e⟩ | ⟨-, e⟩ | ⟨-, -, -, e⟩ | ⟨-, -, -, e⟩ <;> rw [e]
  · exact Effect.ends_fatal
  · exact Effect.ends_fatal
  · exact SameSetting.refl s
  · exact SameSetting.refl s

theorem txoppRule_sameSetting (b : BitVec 32) (s : State) : (txoppRule b s).Ends (SameSetting s) := by
  unfold txoppRule
  split
  · rcases txoppArqRule_cases b.toNat s with ⟨c, rest, -, -, e⟩ | ⟨-, -, -, f, t, built, e⟩ | ⟨-, -, e⟩ <;> rw [e]
    · exact SameSetting.refl s
    · have kept := State.buildFrame_sameSetting built
      exact Effect.ends_done.2 kept
    · exact SameSetting.refl s
  · rcases txoppPlainRule_cases b.toNat s with ⟨-, e⟩ | ⟨f, t, built, e⟩ <;> rw [e]
    · exact SameSetting.refl s
    · have kept := State.buildFrame_sameSetting built
      exact Effect.ends_done.2 kept

theorem rxackRule_sameSetting (q : Seq) (flow : BitVec 8) (s : State) : (rxackRule q flow s).Ends (SameSetting s) := by
  rcases rxackRule_cases q flow s with ⟨-, e⟩ | ⟨-, -, -, e⟩ | ⟨-, -, -, -, e⟩ <;> rw [e] <;> exact SameSetting.refl s

theorem fragmentRule_sameSetting (b : Bytes) (s : State) : (fragmentRule b s).Ends (SameSetting s) := by
  rcases fragmentRule_cases b s with ⟨-, e⟩ | ⟨r, -, e⟩ <;> rw [e]
  · exact SameSetting.refl s
  · exact s.reassembleAll_sameSetting [r]

theorem rxfrmRule_sameSetting (f : Bytes) (s : State) : (rxfrmRule f s).Ends (SameSetting s) := by
  unfold rxfrmRule
  split
  · rcases rxfrmArqRule_cases f s with
      ⟨-, e⟩ | ⟨q, recs, -, ⟨-, -, e⟩ | ⟨-, -, e⟩ | ⟨-, e⟩ | ⟨-, -, e⟩⟩ <;> rw [e]
    case inl => exact SameSetting.refl s
    case inr.inl => exact Effect.ends_fatal
    case inr.inr.inl => exact Effect.ends_done.2 (acknowledge_sameSetting q s)
    case inr.inr.inr.inl => exact Effect.ends_done.2 ((acknowledge_sameSetting q s).trans (inOrder_sameSetting recs _))
    case inr.inr.inr.inr => exact Effect.ends_done.2 ((acknowledge_sameSetting q s).trans (ahead_sameSetting q recs _))
  · rcases rxfrmPlainRule_cases f s with ⟨-, e⟩ | ⟨recs, -, e⟩ <;> rw [e]
    · exact SameSetting.refl s
    · exact Effect.ends_done.2 ((s.bump .framesRcvd).reassembleAll_sameSetting recs)

/-! ## Who writes the registers -/

/-- What an instruction other than RESET leaves alone on the way from `s` to `t` (R21, R25, R29, R31, R34). -/
def KeepsRegisters (i : Instr) (s t : State) : Prop :=
  t.cfg = s.cfg ∧ t.port = s.port ∧ ((∀ n, i ≠ .tick n) → t.now = s.now) ∧
    ((∀ b, i ≠ .txopp b ∧ i ≠ .txoppArq b) → t.fragIdNext = s.fragIdNext ∧ t.seqNext = s.seqNext) ∧
    ((∀ f n, i ≠ .rxfrm f ∧ i ≠ .rxfrmArq f ∧ i ≠ .tick n) → i.isCommand = true → t.ne = s.ne)

namespace KeepsRegisters

variable {i : Instr} {s t : State}

theorem refl (i : Instr) (s : State) : KeepsRegisters i s s :=
  ⟨rfl, rfl, fun _ => rfl, fun _ => ⟨rfl, rfl⟩, fun _ _ => rfl⟩

theorem ignoresReports (i : Instr) (s : State) : IgnoresReports (KeepsRegisters i s) where
  emit _ _ h := h
  bump _ _ h := h
  enterFatal _ _ _ h := h

/-- TXOPP may write FRAG_ID_NEXT and SEQ_NEXT, but neither the setting nor the receive half. -/
theorem of_sending (hi : ∃ b, i = .txopp b ∨ i = .txoppArq b) (setting : SameSetting s t) (receive : SameReceiveHalf s t) :
    KeepsRegisters i s t := by
  obtain ⟨hcfg, hport, -, hnow⟩ := setting
  obtain ⟨-, -, -, -, hne, -⟩ := receive
  refine ⟨hcfg, hport, fun _ => hnow, fun other => ?_, fun _ _ => hne⟩
  obtain ⟨b, rfl | rfl⟩ := hi
  · exact absurd rfl (other b).1
  · exact absurd rfl (other b).2

/-- RXFRM and the wire units may write NE, but neither the setting nor the transmit half. -/
theorem of_receiving (hi : (∃ f, i = .rxfrm f ∨ i = .rxfrmArq f) ∨ i.isCommand = false) (setting : SameSetting s t)
    (transmit : SameTransmitHalf s t) : KeepsRegisters i s t := by
  obtain ⟨hcfg, hport, -, hnow⟩ := setting
  obtain ⟨-, hfid, hseq, -, -⟩ := transmit
  refine ⟨hcfg, hport, fun _ => hnow, fun _ => ⟨hfid, hseq⟩, fun other command => ?_⟩
  rcases hi with ⟨f, rfl | rfl⟩ | unit
  · exact absurd rfl (other f 0).1
  · exact absurd rfl (other f 0).2.1
  · rw [unit] at command; cases command

end KeepsRegisters

section

variable {i : Instr} {s : State}

theorem enqRule_keepsRegisters (dest : BitVec 32) (data : Bytes) : (enqRule dest data s).Ends (KeepsRegisters i s) :=
  (KeepsRegisters.ignoresReports i s).enqRule (.refl i s) (fun _ => .refl i s) dest data

theorem rxackRule_keepsRegisters (q : Seq) (flow : BitVec 8) : (rxackRule q flow s).Ends (KeepsRegisters i s) := by
  rcases rxackRule_cases q flow s with ⟨-, e⟩ | ⟨-, -, -, e⟩ | ⟨-, -, -, -, e⟩ <;> rw [e] <;> exact KeepsRegisters.refl i s

theorem txoppRule_keepsRegisters (hi : ∃ b, i = .txopp b ∨ i = .txoppArq b) (b : BitVec 32) :
    (txoppRule b s).Ends (KeepsRegisters i s) :=
  ((txoppRule_sameSetting b s).and (txoppRule_sameReceiveHalf b s)).imp fun _ h => .of_sending hi h.1 h.2

theorem rxfrmRule_keepsRegisters (hi : (∃ f, i = .rxfrm f ∨ i = .rxfrmArq f) ∨ i.isCommand = false) (f : Bytes) :
    (rxfrmRule f s).Ends (KeepsRegisters i s) :=
  ((rxfrmRule_sameSetting f s).and (rxfrmRule_sameTransmitHalf f s)).imp fun _ h => .of_receiving hi h.1 h.2

theorem fragmentRule_keepsRegisters (hi : i.isCommand = false) (b : Bytes) : (fragmentRule b s).Ends (KeepsRegisters i s) :=
  ((fragmentRule_sameSetting b s).and (fragmentRule_sameTransmitHalf b s)).imp fun _ h => .of_receiving (.inr hi) h.1 h.2

theorem tickRule_keepsRegisters (n : BitVec 32) : (tickRule n.toNat s).Ends (KeepsRegisters (.tick n) s) :=
  ⟨ticks_cfg _ s, ticks_port _ s, fun other => absurd rfl (other n), fun _ => ⟨ticks_fragIdNext _ s, ticks_seqNext _ s⟩,
    fun other _ => absurd rfl (other [] n).2.2⟩

theorem illegalCommand_keepsRegisters (c : Bytes) : KeepsRegisters i s (illegalCommand c s) := by
  have hP := KeepsRegisters.ignoresReports i s
  rcases illegalCommand_cases c s with ⟨-, e⟩ | ⟨-, e⟩ <;> rw [e]
  · exact hP.emit _ _ (KeepsRegisters.refl i s)
  · exact hP.emit _ _ (hP.enterFatal _ _ _ (KeepsRegisters.refl i s))

end

theorem exec_keepsRegisters {i : Instr} {s t : State} (hreset : i.isReset = false) (h : exec i s = .next t) :
    KeepsRegisters i s t := by
  have hP := KeepsRegisters.ignoresReports i s
  have hs := KeepsRegisters.refl i s
  cases i with
  | enq dest data => cases h; exact hP.runCommand hs (enqRule_keepsRegisters dest data)
  | txopp b => cases h; exact hP.runCommand hs (txoppRule_keepsRegisters ⟨b, .inl rfl⟩ b)
  | txoppArq b => cases h; exact hP.runCommand hs (txoppRule_keepsRegisters ⟨b, .inr rfl⟩ b)
  | rxfrm f => cases h; exact hP.runCommand hs (rxfrmRule_keepsRegisters (.inl ⟨f, .inl rfl⟩) f)
  | rxfrmArq f => cases h; exact hP.runCommand hs (rxfrmRule_keepsRegisters (.inl ⟨f, .inr rfl⟩) f)
  | rxack q flow => cases h; exact hP.runCommand hs (rxackRule_keepsRegisters q flow)
  | tick n =>
    change execTick n s = _ at h
    rcases execTick_cases n s with ⟨-, -, e⟩ | ⟨-, e⟩ <;> rw [e] at h <;> cases h
    exact hP.runCommand hs (tickRule_keepsRegisters n)
  | rdreg idx => cases h; exact hP.emit _ _ hs
  | reset c => cases hreset
  | reserved00 c | reserved07 c | reserved08 c | reserved0C c | reserved0E c | reserved10 c | reserved20 c
  | reserved40 c | reserved80 c => cases h; exact illegalCommand_keepsRegisters c
  | rleFull | rleStart | rleCont | rleEnd | gseFull | gseStart | gseCont | gseEnd =>
    cases h; exact hP.runUnit hs (fragmentRule_keepsRegisters rfl _)
  | fph | arqSeq => cases h; exact hP.runUnit hs (rxfrmRule_keepsRegisters (.inr rfl) _)
  | ackMsg q flow => cases h; exact hP.runUnit hs (rxackRule_keepsRegisters q flow)

/-- Settles O46: each rule keeps the registers it is not named for, and the pipeline around it adds reports only. -/
theorem onlyTheNamedCommandsWriteEachRegister : Obligations.OnlyTheNamedCommandsWriteEachRegister :=
  fun _ _ _ hreset h => exec_keepsRegisters hreset h

/-! ## Reset -/

/-- Settles O1: R370 starts from the power-on state, so only what it latches or what fatal entry writes differs from it. -/
theorem everyResetLeavesTheListedValues : Obligations.EveryResetLeavesTheListedValues := by
  refine ⟨rfl, fun s c => ⟨fun valid => ?_, fun i invalid => ?_⟩⟩
  · rcases execReset_cases c s with ⟨-, e⟩ | ⟨i, bad, -⟩
    · exact ⟨_, e, rfl⟩
    · rw [valid] at bad; cases bad
  · rcases execReset_cases c s with ⟨good, -⟩ | ⟨j, bad, e⟩
    · rw [invalid] at good; cases good
    · obtain rfl : i = j := Option.some.inj (invalid.symm.trans bad)
      exact ⟨_, e, rfl⟩

/-! ## STATUS -/

theorem StatusLegal.of_sameSetting {s t : State} (h : StatusLegal s) (hst : SameSetting s t) : StatusLegal t := by
  obtain ⟨-, -, hstatus, -⟩ := hst
  simpa only [StatusLegal, hstatus] using h

/-- The word of a fatal cause is one of the five R22 allows. -/
theorem statusLegal_enterFatal {c : Cause} (hc : c.isFatal) (info : Reg64) (s : State) :
    StatusLegal (s.enterFatal c info) := by
  obtain ⟨hok, hnc, hif⟩ := hc
  unfold StatusLegal
  cases c with
  | ok => exact absurd rfl hok
  | notConfigured => exact absurd rfl hnc
  | inFatal => exact absurd rfl hif
  | cfgInvalid | pktTooLarge | pktEmpty | illegalCmd | staleSeq => rw [State.enterFatal_status]; decide

theorem statusLegal_kept : Kept StatusLegal where
  port _ _ h := h
  resp _ _ _ h := h
  fatal s _ i hc _ := statusLegal_enterFatal hc i s
  zero _ _ := .inl rfl
  config _ _ _ _ := .inr (.inl rfl)
  enq d x s _ _ _ e h := h.of_sameSetting ((enqRule_sameSetting d x s).of_done e)
  txopp b s _ _ _ e h := h.of_sameSetting ((txoppRule_sameSetting b s).of_done e)
  rxfrm f s _ _ _ e h := h.of_sameSetting ((rxfrmRule_sameSetting f s).of_done e)
  rxack q w s _ _ _ e h := h.of_sameSetting ((rxackRule_sameSetting q w s).of_done e)
  tick n s _ _ h := by simpa only [StatusLegal, ticks_status] using h
  fragment b s _ _ _ e h := h.of_sameSetting ((fragmentRule_sameSetting b s).of_done e)

/-- Settles O48: only RESET and fatal entry write STATUS, and both write legal words. -/
theorem everyStepKeepsStatusLegal : Obligations.EveryStepKeepsStatusLegal :=
  fun _ _ h he => statusLegal_kept.step h he

end Sys2Proof.Machine
end

section
/-! PROOFS. State (10_state.md): the transmission buffer (R27 to R29, R194), the reassembly context (R30, R261) and the plain
variants (R40) as every step keeps them. -/

namespace Sys2Proof.Machine

/-! ## Keyed maps -/

/-- An entry after an insertion is the new one or was there before, in canonical form or not. -/
theorem eq_or_mem_of_mem_mapInsert {α : Type} {key : α → Seq} {a b : α} {l : List α} (h : b ∈ mapInsert key a l) :
    b = a ∨ b ∈ l := by
  induction l with
  | nil => exact .inl (List.mem_singleton.1 h)
  | cons c l ih =>
    simp only [mapInsert] at h
    split at h
    · simpa using h
    · split at h
      · rcases List.mem_cons.1 h with rfl | h
        · exact .inl rfl
        · exact .inr (List.mem_cons_of_mem c h)
      · rcases List.mem_cons.1 h with rfl | h
        · exact .inr List.mem_cons_self
        · exact (ih h).imp_right (List.mem_cons_of_mem c)

/-! ## The transmission buffer -/

theorem fidMod_pos (f : Family) : 0 < f.fidMod := by cases f <;> decide

theorem maxPkt_lt (f : Family) : f.maxPkt < 2 ^ 16 := by cases f <;> decide

/-- The next id is one of the family (R226). -/
theorem nextFid_lt (f : Family) (i : BitVec 8) : (nextFid f i).toNat < f.fidMod :=
  (Nat.mod_le _ _).trans_lt (Nat.mod_lt _ (fidMod_pos f))

/-- A whole packet as ENQ stores it (R190). -/
theorem txEntryLegal_enqueued {f : Family} {data : Bytes} (now : BitVec 64) (dest : BitVec 32) (hpos : 1 ≤ data.length)
    (hmax : data.length ≤ f.maxPkt) : TxEntryLegal f ⟨data, .full, now, dest, 0, BitVec.ofNat 16 data.length⟩ := by
  have total : (BitVec.ofNat 16 data.length).toNat = data.length := length_field (hmax.trans_lt (maxPkt_lt f))
  exact ⟨hpos, total.le.trans hmax, fidMod_pos f, .inl ⟨rfl, total.symm⟩⟩

/-- What a split leaves of an entry (R225, R226): some of the packet, no more all of it, under an id of the family. -/
theorem TxEntryLegal.split {f : Family} {e : TxEntry} (h : TxEntryLegal f e) {pay : Nat} (hpos : 1 ≤ pay)
    (hlt : pay < e.data.length) {fidNext : BitVec 8} (hfid : fidNext.toNat < f.fidMod) :
    TxEntryLegal f
      { e with data := e.data.drop pay, tag := if e.mid then .cont else .end_, fid := if e.mid then e.fid else fidNext } := by
  obtain ⟨-, total, fid, size⟩ := h
  have le_total : e.data.length ≤ e.total.toNat := by rcases size with ⟨-, eq⟩ | ⟨-, lt⟩ <;> omega
  refine ⟨?_, total, ?_, .inr ⟨?_, ?_⟩⟩
  · simp; omega
  · dsimp only; split <;> assumption
  · dsimp only; split <;> simp
  · simp; omega

/-- A queue as R27 has it: legal entries, and only the front one mid-chain. -/
def QueueLegal (f : Family) (q : List TxEntry) : Prop :=
  (∀ e ∈ q, TxEntryLegal f e) ∧ ∀ e ∈ q.tail, e.tag = .full

theorem QueueLegal.tail {f : Family} {e : TxEntry} {rest : List TxEntry} (h : QueueLegal f (e :: rest)) :
    QueueLegal f rest :=
  ⟨fun x hx => h.1 x (List.mem_cons_of_mem e hx), fun x hx => h.2 x (List.mem_of_mem_tail hx)⟩

theorem QueueLegal.append_full {f : Family} {q : List TxEntry} (h : QueueLegal f q) {e : TxEntry} (he : TxEntryLegal f e)
    (hfull : e.tag = .full) : QueueLegal f (q ++ [e]) := by
  refine ⟨fun x hx => ?_, fun x hx => ?_⟩
  · rcases List.mem_append.1 hx with hx | hx
    · exact h.1 x hx
    · rwa [List.mem_singleton.1 hx]
  · rcases q with _ | ⟨front, rest⟩
    · cases hx
    · rcases List.mem_append.1 hx with hx | hx
      · exact h.2 x hx
      · rwa [List.mem_singleton.1 hx]

/-- The packing loop keeps the queue legal: it takes entries off the front, and what a split puts back there is legal. -/
theorem packLoop_legal (c : CfgBlock) (q : List TxEntry) (hq : QueueLegal (cfgFamily c) q) (avail n : Nat)
    (fidNext : BitVec 8) (hfid : fidNext.toNat < (cfgFamily c).fidMod) :
    QueueLegal (cfgFamily c) (packLoop c q avail n fidNext).txq ∧
      (packLoop c q avail n fidNext).fragIdNext.toNat < (cfgFamily c).fidMod := by
  induction q generalizing avail n with
  | nil => exact ⟨hq, hfid⟩
  | cons e rest ih =>
    rcases packLoop_cons c e rest avail n fidNext with ⟨-, h⟩ | ⟨-, -, p, rfl, h⟩ | ⟨-, -, hpay, h⟩ <;> rw [h]
    · exact ⟨hq, hfid⟩
    · exact ih hq.tail _ _
    · have front : TxEntryLegal (cfgFamily c) e := hq.1 e List.mem_cons_self
      refine ⟨⟨List.forall_mem_cons.2 ⟨front.split hpay (splitSize_bounds hpay).2.2 hfid, hq.tail.1⟩, hq.2⟩, ?_⟩
      simp only [packSplit]
      split
      · exact hfid
      · exact nextFid_lt _ _

theorem txqLegal_iff {s : State} :
    TxqLegal s ↔ QueueLegal s.family s.txq ∧ s.txbufBytes ≤ s.cfg.txbufMax.toNat ∧ s.fragIdNext.toNat < s.family.fidMod := by
  simp only [TxqLegal, QueueLegal, and_assoc]

theorem txqLegal_ignoresReports : IgnoresReports TxqLegal where
  emit _ _ h := h
  bump _ _ h := h
  enterFatal _ _ _ h := h

theorem TxqLegal.of_same {s t : State} (h : TxqLegal s) (hcfg : t.cfg = s.cfg) (htxq : t.txq = s.txq)
    (hfid : t.fragIdNext = s.fragIdNext) : TxqLegal t := by
  simpa only [TxqLegal, State.family, State.txbufBytes, hcfg, htxq, hfid] using h

theorem txqLegal_empty {s : State} (htxq : s.txq = []) (hfid : s.fragIdNext = 0) : TxqLegal s := by
  refine txqLegal_iff.2 ⟨?_, ?_, ?_⟩
  · simp [QueueLegal, htxq]
  · simp [State.txbufBytes, htxq, txqBytes]
  · rw [hfid]; exact fidMod_pos s.family

theorem TxqLegal.transmit {s : State} (h : TxqLegal s) (c : ArqCtx) : TxqLegal (s.transmit c) := h

theorem State.buildFrame_txqLegal {b : Nat} {s t : State} {f : Bytes} (h : TxqLegal s)
    (hb : s.buildFrame b = some (f, t)) : TxqLegal t := by
  obtain ⟨p, rfl, -, -, -, rfl⟩ := State.buildFrame_some hb
  obtain ⟨queue, bytes, fid⟩ := txqLegal_iff.1 h
  obtain ⟨queue', fid'⟩ := packLoop_legal s.cfg s.txq queue (b - 1) 0 s.fragIdNext fid
  exact txqLegal_iff.2 ⟨queue', (txqBytes_packLoop_le s.cfg s.txq _ _ _).trans bytes, fid'⟩

theorem enqRule_txqLegal (dest : BitVec 32) (data : Bytes) {s : State} (h : TxqLegal s) :
    (enqRule dest data s).Ends TxqLegal := by
  rcases enqRule_cases dest data s with ⟨-, e⟩ | ⟨-, e⟩ | ⟨-, -, -, e⟩ | ⟨hpos, hmax, hroom, e⟩ <;> rw [e]
  · exact Effect.ends_fatal
  · exact Effect.ends_fatal
  · exact txqLegal_ignoresReports.bump _ _ h
  · obtain ⟨queue, -, fid⟩ := txqLegal_iff.1 h
    have stored := queue.append_full (txEntryLegal_enqueued s.now dest hpos hmax) rfl
    refine Effect.ends_done.2 (txqLegal_iff.2 ⟨stored, ?_, fid⟩)
    simpa [State.txbufBytes, txqBytes] using hroom

theorem txoppRule_txqLegal (b : BitVec 32) {s : State} (h : TxqLegal s) : (txoppRule b s).Ends TxqLegal := by
  have hP := txqLegal_ignoresReports
  unfold txoppRule
  split
  · rcases txoppArqRule_cases b.toNat s with ⟨c, rest, -, -, e⟩ | ⟨-, -, -, f, t, built, e⟩ | ⟨-, -, e⟩ <;> rw [e]
    · have popped : TxqLegal { s with rtxq := rest } := h
      exact hP.sendFrame (hP.bump _ _ (popped.transmit _)) c.pdu
    · have kept := State.buildFrame_txqLegal h built
      have numbered : TxqLegal { t with seqNext := s.seqNext + 1 } := kept
      exact hP.sendFrame (numbered.transmit _) _
    · exact hP.nullOpportunity h
  · rcases txoppPlainRule_cases b.toNat s with ⟨-, e⟩ | ⟨f, t, built, e⟩ <;> rw [e]
    · exact hP.nullOpportunity h
    · exact hP.sendFrame (State.buildFrame_txqLegal h built) _

theorem rxackRule_txqLegal (q : Seq) (flow : BitVec 8) {s : State} (h : TxqLegal s) : (rxackRule q flow s).Ends TxqLegal := by
  rcases rxackRule_cases q flow s with ⟨-, e⟩ | ⟨-, -, -, e⟩ | ⟨-, -, -, -, e⟩ <;> rw [e] <;> exact h.of_same rfl rfl rfl

/-- What receives leaves the queue as it is (R8). -/
theorem TxqLegal.of_received {s t : State} (h : TxqLegal s) (hset : SameSetting s t) (hhalf : SameTransmitHalf s t) :
    TxqLegal t := by
  obtain ⟨hcfg, -⟩ := hset
  obtain ⟨htxq, hfid, -⟩ := hhalf
  exact h.of_same hcfg htxq hfid

theorem txqLegal_kept : Kept TxqLegal where
  port _ _ h := h
  resp _ _ _ h := h
  fatal _ _ _ _ h := h
  zero _ _ := txqLegal_empty rfl rfl
  config _ _ _ _ := txqLegal_empty rfl rfl
  enq d x _ _ _ _ e h := (enqRule_txqLegal d x h).of_done e
  txopp b _ _ _ _ e h := (txoppRule_txqLegal b h).of_done e
  rxfrm f s _ _ _ e h :=
    h.of_received ((rxfrmRule_sameSetting f s).of_done e) ((rxfrmRule_sameTransmitHalf f s).of_done e)
  rxack q w _ _ _ _ e h := (rxackRule_txqLegal q w h).of_done e
  tick n s _ _ h := h.of_same (ticks_cfg n s) (ticks_txq n s) (ticks_fragIdNext n s)
  fragment b s _ _ _ e h :=
    h.of_received ((fragmentRule_sameSetting b s).of_done e) ((fragmentRule_sameTransmitHalf b s).of_done e)

/-- Settles O49: ENQ appends whole packets within the bound, and the packing loop leaves a legal queue that is no larger. -/
theorem everyStepKeepsTheTransmissionBufferLegal : Obligations.EveryStepKeepsTheTransmissionBufferLegal :=
  fun _ _ h he => txqLegal_kept.step h he

/-! ## Validated records -/

/-- A fragment unit of the family whose payload, if it has a record, is not empty. -/
def FragmentCarries (f : Family) (i : Instr) : Prop :=
  i.wireUnit = some (fragmentUnit f) ∧ ∀ r, fragRecord i = some r → 1 ≤ r.payload.length

/-- The bounds of a record's id and total are those of the fields they come from (R115, R141, R151). -/
theorem FragmentCarries.recordLegal {f : Family} {i : Instr} {r : FragRec} (h : FragmentCarries f i)
    (hr : fragRecord i = some r) : FragRecLegal f r := by
  obtain ⟨unit, carries⟩ := h
  have pos := carries r hr
  have fid3 : ∀ fid : BitVec 3, (fid.setWidth 8).toNat < 8 := fun fid => by simp; omega
  have total12 : ∀ total : BitVec 12, (total.setWidth 16).toNat ≤ 4095 := fun total => by simp; omega
  cases f with
  | rle =>
    cases i with
    | rleFull => cases hr; exact pos
    | rleStart => cases hr; exact ⟨pos, fid3 _, total12 _⟩
    | rleCont | rleEnd => cases hr; exact ⟨pos, fid3 _⟩
    | _ => cases unit
  | gse =>
    cases i with
    | gseFull => cases hr; exact pos
    | gseStart => cases hr; exact ⟨pos, BitVec.isLt _, Nat.le_of_lt_succ (BitVec.isLt _)⟩
    | gseCont | gseEnd => cases hr; exact ⟨pos, BitVec.isLt _⟩
    | _ => cases unit

theorem decodeRle_carries {b : Bytes} {i : Instr} (hd : decodeRle b = .ok i) : FragmentCarries .rle i := by
  unfold decodeRle at hd
  split at hd
  · dsimp only at hd
    split at hd
    · split at hd
      · cases hd
      · rename_i hlen
        cases hd
        exact ⟨rfl, fun r hr => by cases hr; simp only [FragRec.payload]; omega⟩
    · cases hd
    · split at hd
      · cases hd
      · rename_i hlen
        cases hd
        split <;> exact ⟨rfl, fun r hr => by cases hr; simp only [FragRec.payload]; omega⟩
  · cases hd

/-- A payload that the trailer follows has the length its LEN field gives. -/
theorem length_take_of_drop {body : Bytes} {len : Nat} {c : Byte} {cs : Bytes} (h : body.drop len = c :: cs) :
    (body.take len).length = len := by
  have := congrArg List.length h
  simp at this ⊢
  omega

theorem decodeGse_carries {b : Bytes} {i : Instr} (hd : decodeGse b = .ok i) : FragmentCarries .gse i := by
  unfold decodeGse at hd
  split at hd
  · dsimp only at hd
    split at hd
    case h_1 | h_4 =>
      split at hd
      · split at hd
        · cases hd
        · split at hd
          · rename_i hbody
            split at hd
            · cases hd
            · cases hd
              refine ⟨rfl, fun r hr => ?_⟩
              cases hr
              rw [FragRec.payload, length_take_of_drop hbody]
              omega
          · cases hd
      · cases hd
    case h_2 | h_3 =>
      split at hd
      · split at hd
        · cases hd
        · cases hd
          exact ⟨rfl, fun r hr => by cases hr; simp only [FragRec.payload]; omega⟩
      · cases hd
  · cases hd

/-- What Deserialize returns is a validated record (R261). -/
theorem deserialize_legal {f : Family} {b : Bytes} {r : FragRec} (h : deserialize f b = some r) : FragRecLegal f r := by
  obtain ⟨i, hd, hr⟩ := deserialize_eq_some.1 h
  cases f with
  | rle => exact (decodeRle_carries hd).recordLegal hr
  | gse => exact (decodeGse_carries hd).recordLegal hr

theorem deserializeAll_legal {f : Family} {bs : List Bytes} {recs : List FragRec} (h : deserializeAll f bs = some recs) :
    ∀ r ∈ recs, FragRecLegal f r := by
  induction bs generalizing recs with
  | nil => cases h; simp
  | cons b bs ih =>
    simp only [deserializeAll] at h
    split at h
    · cases h
    · split at h
      · cases h
      · rename_i r hb _ rs hbs
        cases h
        exact List.forall_mem_cons.2 ⟨deserialize_legal hb, ih hbs⟩

theorem parseFrame_legal {f : Family} {b : Bytes} {recs : List FragRec} (h : parseFrame f b = some recs) :
    ∀ r ∈ recs, FragRecLegal f r := by
  unfold parseFrame at h
  split at h
  · exact deserializeAll_legal h
  · cases h

theorem parsePdu_legal {f : Family} {b : Bytes} {q : Seq} {recs : List FragRec} (h : parsePdu f b = some (q, recs)) :
    ∀ r ∈ recs, FragRecLegal f r := by
  rcases b with _ | ⟨q', frame⟩
  · simp [parsePdu] at h
  · rw [parsePdu_cons, Option.map_eq_some_iff] at h
    obtain ⟨recs', parsed, e⟩ := h
    cases e
    exact parseFrame_legal parsed

/-! ## The reassembly context -/

/-- The reassembly context alone, as R30 has it. -/
def ContextLegal (s : State) : Prop :=
  (s.raActive = false → s.raBuf = []) ∧
    (s.raActive = true → 1 ≤ s.raBuf.length ∧ s.raBuf.length ≤ s.raTotal.toNat) ∧
    s.raTotal.toNat ≤ s.family.maxPkt ∧ s.raFid.toNat < s.family.fidMod

/-- The records waiting in ROB are validated ones (R35, R261). -/
def WaitingLegal (f : Family) (rob : List RobEntry) : Prop := ∀ e ∈ rob, ∀ r ∈ e.frags, FragRecLegal f r

theorem reassemblyLegal_iff {s : State} : ReassemblyLegal s ↔ ContextLegal s ∧ WaitingLegal s.family s.rob := by
  simp only [ReassemblyLegal, ContextLegal, WaitingLegal, and_assoc]

namespace ContextLegal

variable {s : State}

theorem defect (h : ContextLegal s) : ContextLegal s.defect := h

theorem deliver (h : ContextLegal s) (x : Bytes) : ContextLegal (s.deliver x) := h

/-- In IDLE only RA_TOTAL and RA_FID are constrained, and the transition keeps them. -/
theorem toIdle_of (htotal : s.raTotal.toNat ≤ s.family.maxPkt) (hfid : s.raFid.toNat < s.family.fidMod) :
    ContextLegal s.toIdle :=
  ⟨fun _ => rfl, fun h => (Bool.false_ne_true h).elim, htotal, hfid⟩

theorem accumulating (active : s.raActive = true) (hpos : 1 ≤ s.raBuf.length) (hle : s.raBuf.length ≤ s.raTotal.toNat)
    (htotal : s.raTotal.toNat ≤ s.family.maxPkt) (hfid : s.raFid.toNat < s.family.fidMod) : ContextLegal s :=
  ⟨fun idle => (Bool.false_ne_true (idle.symm.trans active)).elim, fun _ => ⟨hpos, hle⟩, htotal, hfid⟩

theorem toIdle (h : ContextLegal s) : ContextLegal s.toIdle := toIdle_of h.2.2.1 h.2.2.2

theorem dropChain (h : ContextLegal s) : ContextLegal s.dropChain := by
  unfold State.dropChain
  split
  · exact h.defect.toIdle
  · exact h

end ContextLegal

theorem State.reassemble_contextLegal (r : FragRec) {s : State} (h : ContextLegal s) (hr : FragRecLegal s.family r) :
    ContextLegal (s.reassemble r) := by
  cases r with
  | full p => exact h.dropChain.deliver p
  | start fid total p =>
    obtain ⟨hpos, hfid, htotal⟩ := hr
    have family : s.dropChain.family = s.family := by unfold State.dropChain; split <;> rfl
    simp only [State.reassemble]
    split
    · exact h.dropChain.defect
    · rename_i hle
      rw [← family] at htotal hfid
      exact .accumulating rfl hpos (Nat.not_lt.1 hle) htotal hfid
  | cont fid p =>
    obtain ⟨hidle, hbuf, htotal, hfid⟩ := h
    simp only [State.reassemble]
    split
    · exact ⟨hidle, hbuf, htotal, hfid⟩
    · rename_i active
      split
      · exact .toIdle_of htotal hfid
      · split
        · exact .toIdle_of htotal hfid
        · rename_i hle
          have accumulating : s.raActive = true := by simpa using active
          have longer : 1 ≤ (s.raBuf ++ p).length := by
            have := (hbuf accumulating).1
            simp only [List.length_append]
            omega
          exact .accumulating accumulating longer (Nat.not_lt.1 hle) htotal hfid
  | end_ fid p =>
    obtain ⟨hidle, hbuf, htotal, hfid⟩ := h
    simp only [State.reassemble]
    split
    · exact ⟨hidle, hbuf, htotal, hfid⟩
    · split
      · exact .toIdle_of htotal hfid
      · split <;> exact .toIdle_of htotal hfid

theorem State.reassembleAll_contextLegal (recs : List FragRec) {s : State} (h : ContextLegal s)
    (hrecs : ∀ r ∈ recs, FragRecLegal s.family r) : ContextLegal (s.reassembleAll recs) := by
  induction recs generalizing s with
  | nil => exact h
  | cons r rs ih =>
    obtain ⟨hr, hrs⟩ := List.forall_mem_cons.1 hrecs
    refine ih (s.reassemble_contextLegal r h hr) ?_
    simpa only [State.family, State.reassemble_cfg] using hrs

/-! ## The records waiting in ROB -/

namespace WaitingLegal

variable {f : Family} {rob : List RobEntry}

theorem erase (h : WaitingLegal f rob) (k : Seq) : WaitingLegal f (mapErase RobEntry.seq k rob) :=
  fun e he => h e (mem_mapErase.1 he).1

theorem insert (h : WaitingLegal f rob) {e : RobEntry} (he : ∀ r ∈ e.frags, FragRecLegal f r) :
    WaitingLegal f (mapInsert RobEntry.seq e rob) := by
  intro x hx
  rcases eq_or_mem_of_mem_mapInsert hx with rfl | hx
  · exact he
  · exact h x hx

end WaitingLegal

/-! ## The receiver's operations -/

theorem reassemblyLegal_ignoresReports : IgnoresReports ReassemblyLegal where
  emit _ _ h := h
  bump _ _ h := h
  enterFatal _ _ _ h := h

theorem onRtxExpiry_sameReceiveHalf (q : Seq) (s : State) : SameReceiveHalf s (onRtxExpiry q s) := by
  rcases onRtxExpiry_cases q s with ⟨-, e⟩ | ⟨c, -, ⟨-, e⟩ | ⟨-, e⟩⟩ <;> simp [e, SameReceiveHalf]

namespace ReassemblyLegal

variable {s : State}

theorem reassembleAll (h : ReassemblyLegal s) {recs : List FragRec} (hrecs : ∀ r ∈ recs, FragRecLegal s.family r) :
    ReassemblyLegal (s.reassembleAll recs) := by
  obtain ⟨context, waiting⟩ := reassemblyLegal_iff.1 h
  refine reassemblyLegal_iff.2 ⟨s.reassembleAll_contextLegal recs context hrecs, ?_⟩
  simpa only [State.family, State.reassembleAll_cfg, State.reassembleAll_rob] using waiting

/-- Only ROB's records are constrained, so what else a rule writes of the ARQ receiver does not matter. -/
theorem with_rob (h : ReassemblyLegal s) {rob : List RobEntry} (hrob : WaitingLegal s.family rob) (ne : Seq)
    (tmr : List Timer) (stamp : Nat) : ReassemblyLegal { s with rob := rob, ne := ne, tmr := tmr, stampNext := stamp } :=
  reassemblyLegal_iff.2 ⟨(reassemblyLegal_iff.1 h).1, hrob⟩

theorem waiting (h : ReassemblyLegal s) : WaitingLegal s.family s.rob := (reassemblyLegal_iff.1 h).2

theorem drain (h : ReassemblyLegal s) : ReassemblyLegal s.drain := by
  refine State.drain_induct (fun t e found _ ht => ?_) h
  have reassembled := ht.reassembleAll (ht.waiting e (mapFind_some found).1)
  have rest : WaitingLegal (t.reassembleAll e.frags).family (mapErase RobEntry.seq t.ne t.rob) := by
    simpa only [State.reassembleAll_rob] using reassembled.waiting.erase t.ne
  exact reassembled.with_rob rest _ _ _

theorem inOrder (h : ReassemblyLegal s) {recs : List FragRec} (hrecs : ∀ r ∈ recs, FragRecLegal s.family r) :
    ReassemblyLegal (Machine.inOrder recs s) := by
  unfold Machine.inOrder
  split
  · have erased : ReassemblyLegal { s.cancel .rxw s.ne with rob := mapErase RobEntry.seq s.ne s.rob } :=
      h.with_rob (h.waiting.erase s.ne) s.ne _ s.stampNext
    have reassembled := erased.reassembleAll hrecs
    exact drain (reassembled.with_rob reassembled.waiting _ _ _)
  · have reassembled := h.reassembleAll hrecs
    exact drain (reassembled.with_rob reassembled.waiting _ _ _)

theorem placeholder (h : ReassemblyLegal s) (k : Seq) : ReassemblyLegal (Machine.placeholder s k) := by
  rcases placeholder_cases s k with ⟨-, e⟩ | ⟨-, e⟩ <;> rw [e]
  · exact h
  · exact h.with_rob (h.waiting.insert (by simp)) s.ne _ _

theorem storeAhead (h : ReassemblyLegal s) (q : Seq) {recs : List FragRec} (hrecs : ∀ r ∈ recs, FragRecLegal s.family r) :
    ReassemblyLegal (Machine.storeAhead q recs s) := by
  unfold Machine.storeAhead
  split <;> exact h.with_rob (h.waiting.insert hrecs) s.ne _ s.stampNext

theorem ahead (h : ReassemblyLegal s) (q : Seq) {recs : List FragRec} (hrecs : ∀ r ∈ recs, FragRecLegal s.family r) :
    ReassemblyLegal (Machine.ahead q recs s) := by
  rcases ahead_cases q recs s with ⟨-, e⟩ | ⟨-, e⟩ <;> rw [e]
  · exact reassemblyLegal_ignoresReports.bump _ _ h
  · exact placeholders_induct (fun t k ht => ht.placeholder k) _ _ (h.storeAhead q hrecs)

/-- What sends leaves the receive half as it is (R8). -/
theorem of_sent {t : State} (h : ReassemblyLegal s) (hset : SameSetting s t) (hhalf : SameReceiveHalf s t) :
    ReassemblyLegal t := by
  obtain ⟨hcfg, -⟩ := hset
  obtain ⟨hactive, hfid, htotal, hbuf, -, hrob⟩ := hhalf
  simpa only [ReassemblyLegal, State.family, hcfg, hactive, hfid, htotal, hbuf, hrob] using h

theorem expire (h : ReassemblyLegal s) (t : Timer) : ReassemblyLegal (Machine.expire t s) := by
  unfold Machine.expire
  split
  · exact h.of_sent (onRtxExpiry_sameSetting t.seq s) (onRtxExpiry_sameReceiveHalf t.seq s)
  · rcases onRxwExpiry_cases t.seq s with ⟨-, e⟩ | ⟨x, -, -, e⟩ <;> rw [e]
    · exact h
    · have forced := h.with_rob (h.waiting.insert (e := ⟨t.seq, true, []⟩) (by simp)) s.ne s.tmr s.stampNext
      exact drain (reassemblyLegal_ignoresReports.bump _ .rxwaitExpired forced)

theorem ticks (h : ReassemblyLegal s) (n : Nat) : ReassemblyLegal (Machine.ticks n s) := by
  refine ticks_induct (fun t ht => ?_) n s h
  have later : ReassemblyLegal { t with now := t.now + 1 } := ht
  refine State.fireDue_induct (P := ReassemblyLegal) (fun u x _ _ _ hu => ?_) later
  have fired : ReassemblyLegal { u with tmr := u.tmr.filter (fun v => v != x) } := hu
  exact fired.expire x

end ReassemblyLegal

theorem rxfrmRule_reassemblyLegal (f : Bytes) {s : State} (h : ReassemblyLegal s) :
    (rxfrmRule f s).Ends ReassemblyLegal := by
  have hP := reassemblyLegal_ignoresReports
  unfold rxfrmRule
  split
  · rcases rxfrmArqRule_cases f s with ⟨-, e⟩ | ⟨q, recs, parsed, outcome⟩
    · rw [e]; exact hP.bump _ _ h
    · have acked := hP.acknowledge h q
      have valid : ∀ r ∈ recs, FragRecLegal (acknowledge q s).family r := by
        simpa [State.family, acknowledge] using parsePdu_legal parsed
      rcases outcome with ⟨-, -, e⟩ | ⟨-, -, e⟩ | ⟨-, e⟩ | ⟨-, -, e⟩ <;> rw [e]
      · exact Effect.ends_fatal
      · exact hP.bump _ _ acked
      · exact Effect.ends_done.2 (acked.inOrder valid)
      · exact Effect.ends_done.2 (acked.ahead q valid)
  · rcases rxfrmPlainRule_cases f s with ⟨-, e⟩ | ⟨recs, parsed, e⟩ <;> rw [e]
    · exact hP.bump _ _ h
    · exact Effect.ends_done.2 ((hP.bump _ .framesRcvd h).reassembleAll (parseFrame_legal parsed))

theorem fragmentRule_reassemblyLegal (b : Bytes) {s : State} (h : ReassemblyLegal s) :
    (fragmentRule b s).Ends ReassemblyLegal := by
  rcases fragmentRule_cases b s with ⟨-, e⟩ | ⟨r, read, e⟩ <;> rw [e]
  · exact h
  · exact Effect.ends_done.2 (h.reassembleAll (List.forall_mem_singleton.2 (deserialize_legal read)))

theorem reassemblyLegal_idle {s : State} (hidle : s.raActive = false) (hbuf : s.raBuf = []) (htotal : s.raTotal = 0)
    (hfid : s.raFid = 0) (hrob : s.rob = []) : ReassemblyLegal s := by
  simp [ReassemblyLegal, hidle, hbuf, htotal, hfid, hrob, fidMod_pos]

theorem reassemblyLegal_kept : Kept ReassemblyLegal where
  port _ _ h := h
  resp _ _ _ h := h
  fatal _ _ _ _ h := h
  zero _ _ := reassemblyLegal_idle rfl rfl rfl rfl rfl
  config _ _ _ _ := reassemblyLegal_idle rfl rfl rfl rfl rfl
  enq d x s _ _ _ e h := h.of_sent ((enqRule_sameSetting d x s).of_done e) ((enqRule_sameReceiveHalf d x s).of_done e)
  txopp b s _ _ _ e h := h.of_sent ((txoppRule_sameSetting b s).of_done e) ((txoppRule_sameReceiveHalf b s).of_done e)
  rxfrm f _ _ _ _ e h := (rxfrmRule_reassemblyLegal f h).of_done e
  rxack q w s _ _ _ e h := h.of_sent ((rxackRule_sameSetting q w s).of_done e) ((rxackRule_sameReceiveHalf q w s).of_done e)
  tick n _ _ _ h := h.ticks n
  fragment b _ _ _ _ e h := (fragmentRule_reassemblyLegal b h).of_done e

/-- Settles O50: Deserialize returns validated records only, each record keeps the context legal, and ROB holds such records
until they are drained. -/
theorem everyStepKeepsTheReassemblyContextLegal : Obligations.EveryStepKeepsTheReassemblyContextLegal :=
  fun _ _ h he => reassemblyLegal_kept.step h he

/-! ## The plain variants -/

/-- Every element of the ARQ state is at its reset value. -/
def ArqIdle (s : State) : Prop :=
  s.seqNext = 0 ∧ s.txd = [] ∧ s.rtxq = [] ∧ s.ne = 0 ∧ s.rob = [] ∧ s.tmr = [] ∧ s.stampNext = 0

theorem arqIdle_ignoresReports : IgnoresReports ArqIdle where
  emit _ _ h := h
  bump _ _ h := h
  enterFatal _ _ _ h := h

namespace ArqIdle

variable {s : State}

theorem reassembleAll (h : ArqIdle s) (recs : List FragRec) : ArqIdle (s.reassembleAll recs) := by
  simpa [ArqIdle] using h

theorem buildFrame (h : ArqIdle s) {b : Nat} {t : State} {f : Bytes} (hb : s.buildFrame b = some (f, t)) : ArqIdle t := by
  obtain ⟨p, -, -, -, -, rfl⟩ := State.buildFrame_some hb
  exact h

/-- Without timers a tick only advances NOW. -/
theorem tickOnce (h : ArqIdle s) : s.tickOnce = { s with now := s.now + 1 } := by
  obtain ⟨-, -, -, -, -, htmr, -⟩ := h
  simp [State.tickOnce, State.fireDue, htmr, fireUpTo]

theorem ticks (h : ArqIdle s) (n : Nat) : ArqIdle (Machine.ticks n s) := by
  refine ticks_induct (P := ArqIdle) (fun t ht => ?_) n s h
  rw [ht.tickOnce]
  exact ht

end ArqIdle

theorem enqRule_arqIdle (dest : BitVec 32) (data : Bytes) {s : State} (h : ArqIdle s) :
    (enqRule dest data s).Ends ArqIdle :=
  arqIdle_ignoresReports.enqRule h (fun _ => h) dest data

theorem fragmentRule_arqIdle (b : Bytes) {s : State} (h : ArqIdle s) : (fragmentRule b s).Ends ArqIdle := by
  rcases fragmentRule_cases b s with ⟨-, e⟩ | ⟨r, -, e⟩ <;> rw [e]
  · exact h
  · exact Effect.ends_done.2 (h.reassembleAll [r])

theorem txoppRule_arqIdle (b : BitVec 32) {s : State} (plain : s.arq = false) (h : ArqIdle s) :
    (txoppRule b s).Ends ArqIdle := by
  have rule : txoppRule b s = txoppPlainRule b.toNat s := by simp [txoppRule, plain]
  rw [rule]
  rcases txoppPlainRule_cases b.toNat s with ⟨-, e⟩ | ⟨f, t, built, e⟩ <;> rw [e]
  · exact arqIdle_ignoresReports.nullOpportunity h
  · exact arqIdle_ignoresReports.sendFrame (h.buildFrame built) f

theorem rxfrmRule_arqIdle (f : Bytes) {s : State} (plain : s.arq = false) (h : ArqIdle s) :
    (rxfrmRule f s).Ends ArqIdle := by
  have rule : rxfrmRule f s = rxfrmPlainRule f s := by simp [rxfrmRule, plain]
  rw [rule]
  rcases rxfrmPlainRule_cases f s with ⟨-, e⟩ | ⟨recs, -, e⟩ <;> rw [e]
  · exact arqIdle_ignoresReports.bump _ _ h
  · exact Effect.ends_done.2 ((arqIdle_ignoresReports.bump _ _ h).reassembleAll recs)

/-- A plain variant ignores every ACK (R330). -/
theorem rxackRule_arqIdle (q : Seq) (flow : BitVec 8) {s : State} (plain : s.arq = false) (h : ArqIdle s) :
    (rxackRule q flow s).Ends ArqIdle := by
  rcases rxackRule_cases q flow s with ⟨-, e⟩ | ⟨arq, -⟩ | ⟨arq, -⟩
  · rw [e]; exact arqIdle_ignoresReports.bump _ _ h
  · rw [plain] at arq; cases arq
  · rw [plain] at arq; cases arq

/-- The variant stays, so only what happens in a plain one matters. -/
theorem PlainLegal.of_idle {s t : State} (h : PlainLegal s) (hcfg : t.cfg = s.cfg)
    (hidle : s.arq = false → ArqIdle s → ArqIdle t) : PlainLegal t := by
  intro plain
  have before : s.arq = false := by simpa only [State.arq, hcfg] using plain
  exact hidle before (h before)

theorem plainLegal_kept : Kept PlainLegal where
  port _ _ h := h
  resp _ _ _ h := h
  fatal _ _ _ _ h := h
  zero _ _ _ := ⟨rfl, rfl, rfl, rfl, rfl, rfl, rfl⟩
  config _ _ _ _ _ := ⟨rfl, rfl, rfl, rfl, rfl, rfl, rfl⟩
  enq d x s _ _ _ e h := h.of_idle ((enqRule_sameSetting d x s).of_done e).1 fun _ idle => (enqRule_arqIdle d x idle).of_done e
  txopp b s _ _ _ e h := h.of_idle ((txoppRule_sameSetting b s).of_done e).1 fun p idle => (txoppRule_arqIdle b p idle).of_done e
  rxfrm f s _ _ _ e h := h.of_idle ((rxfrmRule_sameSetting f s).of_done e).1 fun p idle => (rxfrmRule_arqIdle f p idle).of_done e
  rxack q w s _ _ _ e h :=
    h.of_idle ((rxackRule_sameSetting q w s).of_done e).1 fun p idle => (rxackRule_arqIdle q w p idle).of_done e
  tick n s _ _ h := h.of_idle (ticks_cfg n s) fun _ idle => idle.ticks n
  fragment b s _ _ _ e h :=
    h.of_idle ((fragmentRule_sameSetting b s).of_done e).1 fun _ idle => (fragmentRule_arqIdle b idle).of_done e

/-- Settles O52: outside the ARQ variants no rule arms a timer, numbers a PDU or writes ROB, and an ACK is ignored. -/
theorem everyStepKeepsPlainVariantsWithoutArqState : Obligations.EveryStepKeepsPlainVariantsWithoutArqState :=
  fun _ _ h he => plainLegal_kept.step h he

/-! ## Power-on -/

theorem cfgLegal_of_unconfigured {s : State} (h : s.configured = false) : CfgLegal s :=
  fun hc => (Bool.false_ne_true (h.symm.trans hc)).elim

/-- Without PDUs in flight, waiting records and timers the ARQ invariant asks for the configuration only. -/
theorem ArqIdle.arqLegal {s : State} (h : ArqIdle s) (hcfg : CfgLegal s) : ArqLegal s := by
  obtain ⟨-, htxd, hrtxq, -, hrob, htmr, -⟩ := h
  refine ⟨hcfg, ?_, ?_, ?_⟩
  · simp [SenderLegal, htxd, hrtxq, keysRise_nil]
  · simp [ReceiverLegal, hrob, keysRise_nil]
  · simp [TimersLegal, htxd, hrob, htmr]

theorem arqIdle_reset : ArqIdle State.reset := ⟨rfl, rfl, rfl, rfl, rfl, rfl, rfl⟩

/-- Settles O53: at power-on everything the invariants speak of is empty or 0. -/
theorem powerOnIsLegal : Obligations.PowerOnIsLegal :=
  ⟨.inl rfl, txqLegal_empty rfl rfl, reassemblyLegal_idle rfl rfl rfl rfl rfl,
    arqIdle_reset.arqLegal (cfgLegal_of_unconfigured rfl), fun _ => arqIdle_reset⟩

end Sys2Proof.Machine
end

section
/-! PROOFS. State (10_state.md): the ARQ invariant. The sender's numbers in flight (R32, R33, R302), ROB (R35) and TMR (R36, R37)
are each described by a predicate of the data they constrain, with one lemma per move; the invariant's parts are these
predicates. -/

namespace Sys2Proof.Machine

/-! ## The configuration of an ARQ variant -/

/-- The legal ranges that the ARQ rules lean on (R10). -/
structure ArqCfgBounds (c : CfgBlock) : Prop where
  window_pos : 1 ≤ c.arqWindow.toNat
  window_le : c.arqWindow.toNat ≤ 128
  tRtx_pos : 1 ≤ c.tRtx.toNat
  tRxwait_pos : 1 ≤ c.tRxwait.toNat

theorem arqCfgBounds_iff {c : CfgBlock} : ArqCfgBounds c ↔
    1 ≤ c.arqWindow.toNat ∧ c.arqWindow.toNat ≤ 128 ∧ 1 ≤ c.tRtx.toNat ∧ 1 ≤ c.tRxwait.toNat :=
  ⟨fun ⟨h1, h2, h3, h4⟩ => ⟨h1, h2, h3, h4⟩, fun ⟨h1, h2, h3, h4⟩ => ⟨h1, h2, h3, h4⟩⟩

/-- In an ARQ variant RESET checks every ARQ field (R370). -/
theorem arqCfgBounds_of_valid {c : CfgBlock} (valid : cfgFirstBad c = none) (arq : cfgArq c = true) : ArqCfgBounds c := by
  have variant : c.variant = 1#8 ∨ c.variant = 3#8 := by simpa [cfgArq] using arq
  have checked : ∀ i ∈ [5, 7, 8], cfgFieldBad c i = false := by
    have none_bad := List.find?_eq_none.1 valid
    simp only [List.forall_mem_cons, Bool.not_eq_true] at none_bad ⊢
    tauto
  simpa [cfgFieldBad, cfgFieldApplies, variant, cfgFieldInRange, and_assoc, arqCfgBounds_iff] using checked

theorem CfgLegal.arqCfgBounds {s : State} (h : CfgLegal s) (hrun : s.running = true) (arq : s.arq = true) :
    ArqCfgBounds s.cfg :=
  arqCfgBounds_of_valid (h (State.running_iff.1 hrun).1) arq

/-- No fatal word has the CONFIGURED bit (R22). -/
theorem cfgLegal_enterFatal (c : Cause) (info : Reg64) (s : State) : CfgLegal (s.enterFatal c info) := by
  refine cfgLegal_of_unconfigured ?_
  simp only [State.configured, State.enterFatal_status]
  cases c <;> decide

theorem CfgLegal.of_sameSetting {s t : State} (h : CfgLegal s) (hst : SameSetting s t) : CfgLegal t := by
  obtain ⟨hcfg, -, hstatus, -⟩ := hst
  simpa only [CfgLegal, State.configured, hcfg, hstatus] using h

/-! ## Keyed maps -/

section

variable {α : Type} {key : α → Seq}

/-- A new key adds its entry. -/
theorem mapInsert_perm {a : α} {l : List α} (h : ∀ b ∈ l, key b ≠ key a) : (mapInsert key a l).Perm (a :: l) := by
  induction l with
  | nil => exact .refl _
  | cons b l ih =>
    obtain ⟨hb, hl⟩ := List.forall_mem_cons.1 h
    simp only [mapInsert]
    split
    · exact .refl _
    · rw [if_neg fun e => hb e.symm]
      exact ((ih hl).cons b).trans (.swap a b l)

/-- Removing a key that has an entry takes that entry out. -/
theorem perm_cons_mapErase {a : α} {l : List α} (h : KeysRise key l) (ha : a ∈ l) :
    l.Perm (a :: mapErase key (key a) l) := by
  induction l with
  | nil => cases ha
  | cons b l ih =>
    obtain ⟨below, rise⟩ := keysRise_cons.1 h
    have other : ∀ x ∈ l, key b ≠ key x := fun x hx e => (below x hx).ne (congrArg BitVec.toNat e)
    rcases List.mem_cons.1 ha with rfl | ha
    · have kept : mapErase key (key a) l = l := List.filter_eq_self.2 fun x hx => by simpa using (other x hx).symm
      have dropped : mapErase key (key a) (a :: l) = mapErase key (key a) l := by simp [mapErase]
      rw [dropped, kept]
    · have kept : mapErase key (key a) (b :: l) = b :: mapErase key (key a) l := by simp [mapErase, other a ha]
      rw [kept]
      exact ((ih rise ha).cons b).trans (.swap a b _)

end

/-! ## The sender's numbers in flight -/

/-- The numbers in flight, TXD's first. -/
def State.numbers (s : State) : List Seq := s.txd.map ArqCtx.seq ++ s.rtxq.map ArqCtx.seq

/-- Numbers in flight as R33 and R302 have them: each once, at most CFG_ARQ_WINDOW, in DISTANCE mode within the window. -/
def NumbersLegal (c : CfgBlock) (next : Seq) (l : List Seq) : Prop :=
  l.Nodup ∧ l.length ≤ c.arqWindow.toNat ∧
    ((c.windowMode == 0) = true → ∀ x ∈ l, 1 ≤ seqDist x next ∧ seqDist x next ≤ c.arqWindow.toNat)

/-- Retransmission counts as R320 has them. -/
def CountsLegal (c : CfgBlock) (txd rtxq : List ArqCtx) : Prop :=
  (∀ x ∈ txd, x.count.toNat ≤ c.maxRtx.toNat) ∧ ∀ x ∈ rtxq, x.count.toNat < c.maxRtx.toNat

theorem senderLegal_iff {s : State} : SenderLegal s ↔
    KeysRise ArqCtx.seq s.txd ∧ NumbersLegal s.cfg s.seqNext s.numbers ∧ CountsLegal s.cfg s.txd s.rtxq := by
  simp only [SenderLegal, NumbersLegal, CountsLegal, State.numbers, State.distanceMode, List.length_append, List.length_map,
    ← List.map_append, List.forall_mem_map, and_assoc]

/-- Fewer numbers in flight, in any order, are legal. -/
theorem NumbersLegal.subperm {c : CfgBlock} {next : Seq} {l l' : List Seq} (h : NumbersLegal c next l) (hl : l'.Subperm l) :
    NumbersLegal c next l' := by
  obtain ⟨nodup, length, window⟩ := h
  obtain ⟨m, perm, sub⟩ := id hl
  exact ⟨perm.nodup_iff.1 (nodup.sublist sub), hl.length_le.trans length, fun mode x hx => window mode x (hl.subset hx)⟩

theorem State.inflight_eq_numbers {s : State} (h : s.numbers.Nodup) : s.inflight = s.numbers := h.dedup

/-- Where `Available()` holds the next number joins the legal ones (R301, R302). -/
theorem NumbersLegal.cons_next {s : State} (h : NumbersLegal s.cfg s.seqNext s.numbers) (bounds : ArqCfgBounds s.cfg)
    (available : s.available = true) : NumbersLegal s.cfg (s.seqNext + 1) (s.seqNext :: s.numbers) := by
  obtain ⟨nodup, -, window⟩ := h
  have := bounds.window_pos
  have := bounds.window_le
  simp only [State.available, State.inflight_eq_numbers nodup, State.distanceMode] at available
  split at available
  case isTrue mode =>
    have below : ∀ x ∈ s.numbers, 1 ≤ seqDist x s.seqNext ∧ seqDist x s.seqNext < s.cfg.arqWindow.toNat := by
      intro x hx
      exact ⟨(window mode x hx).1, by simpa using List.all_eq_true.1 available x hx⟩
    have fresh : s.seqNext ∉ s.numbers := by
      intro mem
      have := (below _ mem).1
      simp at this
    have room := length_le_of_seqDist nodup below
    refine ⟨List.nodup_cons.2 ⟨fresh, nodup⟩, by rw [List.length_cons]; omega, fun _ => ?_⟩
    refine List.forall_mem_cons.2 ⟨?_, fun x hx => ?_⟩
    · rw [seqDist_succ_right (by simp)]
      simpa using bounds.window_pos
    · have := below x hx
      rw [seqDist_succ_right (by omega)]
      omega
  case isFalse mode =>
    simp only [Bool.and_eq_true, decide_eq_true_eq, Bool.not_eq_true', List.contains_eq_mem, decide_eq_false_iff_not]
      at available
    obtain ⟨room, fresh⟩ := available
    exact ⟨List.nodup_cons.2 ⟨fresh, nodup⟩, room, fun distance => absurd distance mode⟩

theorem SenderLegal.of_sameTransmitHalf {s t : State} (h : SenderLegal s) (hset : SameSetting s t)
    (hhalf : SameTransmitHalf s t) : SenderLegal t := by
  obtain ⟨hcfg, -⟩ := hset
  obtain ⟨-, -, hseq, htxd, hrtxq⟩ := hhalf
  simpa only [SenderLegal, State.distanceMode, hcfg, hseq, htxd, hrtxq] using h

/-- An ACK takes a number out of flight from TXD (R331). -/
theorem SenderLegal.eraseTxd {s : State} (h : SenderLegal s) (q : Seq) :
    SenderLegal { s with txd := mapErase ArqCtx.seq q s.txd } := by
  obtain ⟨rise, numbers, hTxd, hRtxq⟩ := senderLegal_iff.1 h
  refine senderLegal_iff.2 ⟨rise.mapErase q, numbers.subperm ?_, fun x hx => hTxd x (mem_mapErase.1 hx).1, hRtxq⟩
  exact ((List.filter_sublist.map _).append_right _).subperm

/-- An ACK takes a number out of flight from RTXQ (R331). -/
theorem SenderLegal.eraseRtxq {s : State} (h : SenderLegal s) (q : Seq) :
    SenderLegal { s with rtxq := mapErase ArqCtx.seq q s.rtxq } := by
  obtain ⟨rise, numbers, hTxd, hRtxq⟩ := senderLegal_iff.1 h
  refine senderLegal_iff.2 ⟨rise, numbers.subperm ?_, hTxd, fun x hx => hRtxq x (mem_mapErase.1 hx).1⟩
  exact ((List.filter_sublist.map _).append_left _).subperm

/-- An expiry moves a PDU from TXD to the end of RTXQ (R320). -/
theorem SenderLegal.requeue {s : State} (h : SenderLegal s) {c : ArqCtx} (hc : c ∈ s.txd)
    (hcount : c.count.toNat < s.cfg.maxRtx.toNat) :
    SenderLegal { s with txd := mapErase ArqCtx.seq c.seq s.txd, rtxq := s.rtxq ++ [c] } := by
  obtain ⟨rise, numbers, hTxd, hRtxq⟩ := senderLegal_iff.1 h
  refine senderLegal_iff.2 ⟨rise.mapErase c.seq, numbers.subperm (List.Perm.subperm ?_),
    fun x hx => hTxd x (mem_mapErase.1 hx).1, fun x hx => ?_⟩
  · simp only [State.numbers, ← List.map_append]
    refine List.Perm.map _ ?_
    rw [← List.append_assoc]
    exact (List.perm_append_singleton _ _).trans ((perm_cons_mapErase rise hc).symm.append_right s.rtxq)
  · rcases List.mem_append.1 hx with hx | hx
    · exact hRtxq x hx
    · rwa [List.mem_singleton.1 hx]

/-- The head of RTXQ goes back to TXD with one more retransmission (R310). -/
theorem SenderLegal.resendHead {s : State} (h : SenderLegal s) {c : ArqCtx} {rest : List ArqCtx} (hq : s.rtxq = c :: rest) :
    SenderLegal { s with rtxq := rest, txd := mapInsert ArqCtx.seq { c with count := c.count + 1 } s.txd } := by
  obtain ⟨rise, numbers, hTxd, hRtxq⟩ := senderLegal_iff.1 h
  have fresh : ∀ x ∈ s.txd, x.seq ≠ c.seq := by
    intro x hx e
    obtain ⟨nodup, -⟩ := numbers
    exact (List.nodup_append.1 nodup).2.2 x.seq (List.mem_map_of_mem hx) c.seq (by simp [hq]) e
  rw [hq] at hRtxq
  obtain ⟨hcount, hrest⟩ := List.forall_mem_cons.1 hRtxq
  refine senderLegal_iff.2 ⟨rise.mapInsert _, numbers.subperm (List.Perm.subperm ?_), fun x hx => ?_, hrest⟩
  · have inserted := (mapInsert_perm (a := { c with count := c.count + 1 }) fresh).map ArqCtx.seq
    simp only [State.numbers, hq, List.map_cons] at inserted ⊢
    exact (inserted.append_right _).trans List.perm_middle.symm
  · rcases eq_or_mem_of_mem_mapInsert hx with rfl | hx
    · have := c.count.isLt
      simp only [BitVec.toNat_add]
      have : (1 : BitVec 8).toNat = 1 := rfl
      omega
    · exact hTxd x hx

/-- A new PDU takes the next number (R311). -/
theorem SenderLegal.sendNext {s : State} (h : SenderLegal s) (bounds : ArqCfgBounds s.cfg) (available : s.available = true)
    (pdu : Bytes) :
    SenderLegal { s with seqNext := s.seqNext + 1, txd := mapInsert ArqCtx.seq ⟨s.seqNext, pdu, 0⟩ s.txd } := by
  obtain ⟨rise, numbers, hTxd, hRtxq⟩ := senderLegal_iff.1 h
  have joined := numbers.cons_next bounds available
  have fresh : ∀ x ∈ s.txd, x.seq ≠ s.seqNext := by
    intro x hx e
    obtain ⟨nodup, -⟩ := joined
    exact (List.nodup_cons.1 nodup).1 (List.mem_append_left _ (e ▸ List.mem_map_of_mem hx))
  refine senderLegal_iff.2 ⟨rise.mapInsert _, joined.subperm (List.Perm.subperm ?_), fun x hx => ?_, hRtxq⟩
  · exact ((mapInsert_perm (a := ⟨s.seqNext, pdu, 0⟩) fresh).map ArqCtx.seq).append_right _
  · rcases eq_or_mem_of_mem_mapInsert hx with rfl | hx
    · exact Nat.zero_le _
    · exact hTxd x hx

/-! ## The timers -/

/-- What waits for a timer (R36): a retransmission timer for every number of TXD, an Rx waiting timer for every placeholder. -/
def Awaited (txd : List ArqCtx) (rob : List RobEntry) : TimerKind → Seq → Prop
  | .rtx, q => ∃ c ∈ txd, c.seq = q
  | .rxw, q => ∃ e ∈ rob, e.seq = q ∧ e.received = false

/-- TMR as R36 and R423 have it, with `n` the next stamp and `W` the pairs that wait: stamps rise and are below `n`, each pair has
one timer, and the pairs that have one are those that wait. -/
structure TimersFor (tmr : List Timer) (n : Nat) (W : TimerKind → Seq → Prop) : Prop where
  stamps : (tmr.map Timer.stamp).Pairwise (· < ·)
  fresh : ∀ t ∈ tmr, t.stamp < n
  pairs : (tmr.map (fun t => (t.kind, t.seq))).Nodup
  guards : ∀ k q, (∃ t ∈ tmr, t.kind = k ∧ t.seq = q) ↔ W k q

/-- The timers are those that TXD and ROB ask for. -/
def TimersMatch (s : State) : Prop := TimersFor s.tmr s.stampNext (Awaited s.txd s.rob)

/-- No deadline is reached (R37). -/
def NoneDue (s : State) : Prop := ∀ t ∈ s.tmr, s.now.toNat < t.deadline

theorem not_guards_iff {k : TimerKind} {q : Seq} {t : Timer} : (!t.guards k q) = true ↔ ¬ (t.kind = k ∧ t.seq = q) := by
  simp [Timer.guards, imp_iff_not_or]

theorem timersLegal_iff {s : State} : TimersLegal s ↔ TimersMatch s ∧ NoneDue s := by
  constructor
  · rintro ⟨stamps, fresh, pairs, rtx, rxw, due⟩
    exact ⟨⟨stamps, fresh, pairs, fun k q => by cases k; exacts [rtx q, rxw q]⟩, due⟩
  · rintro ⟨⟨stamps, fresh, pairs, guards⟩, due⟩
    exact ⟨stamps, fresh, pairs, guards .rtx, guards .rxw, due⟩

namespace TimersFor

variable {tmr : List Timer} {n : Nat} {W W' : TimerKind → Seq → Prop} {k : TimerKind} {q : Seq}

theorem congr (h : TimersFor tmr n W) (hW : ∀ k q, W' k q ↔ W k q) : TimersFor tmr n W' :=
  ⟨h.stamps, h.fresh, h.pairs, fun k q => (h.guards k q).trans (hW k q).symm⟩

/-- Cancelling a pair ends its waiting (R422). -/
theorem cancel (h : TimersFor tmr n W) (hW : ∀ k' q', W' k' q' ↔ W k' q' ∧ ¬ (k' = k ∧ q' = q)) :
    TimersFor (tmr.filter (fun t => !t.guards k q)) n W' where
  stamps := h.stamps.sublist (List.filter_sublist.map _)
  fresh t ht := h.fresh t (List.mem_of_mem_filter ht)
  pairs := h.pairs.sublist (List.filter_sublist.map _)
  guards k' q' := by
    rw [hW, ← h.guards]
    constructor
    · rintro ⟨t, ht, rfl, rfl⟩
      obtain ⟨mem, other⟩ := List.mem_filter.1 ht
      exact ⟨⟨t, mem, rfl, rfl⟩, not_guards_iff.1 other⟩
    · rintro ⟨⟨t, mem, rfl, rfl⟩, other⟩
      exact ⟨t, List.mem_filter.2 ⟨mem, not_guards_iff.2 other⟩, rfl, rfl⟩

/-- A timer for a pair that has none. -/
theorem push (h : TimersFor tmr n W) (hnew : ¬ W k q) (hW : ∀ k' q', W' k' q' ↔ W k' q' ∨ k' = k ∧ q' = q) (d : Nat) :
    TimersFor (tmr ++ [⟨k, q, d, n⟩]) (n + 1) W' where
  stamps := by
    rw [List.map_append, List.pairwise_append]
    refine ⟨h.stamps, by simp, ?_⟩
    simpa using h.fresh
  fresh t ht := by
    rcases List.mem_append.1 ht with ht | ht
    · exact (h.fresh t ht).trans n.lt_succ_self
    · rw [List.mem_singleton.1 ht]; exact n.lt_succ_self
  pairs := by
    rw [List.map_append, List.map_singleton, List.nodup_append_comm, List.singleton_append, List.nodup_cons]
    refine ⟨fun mem => hnew ((h.guards k q).1 ?_), h.pairs⟩
    simpa using mem
  guards k' q' := by
    rw [hW, ← h.guards]
    simp only [List.mem_append, List.mem_singleton, or_and_right, exists_or, exists_eq_left]
    exact or_congr_right (and_congr eq_comm eq_comm)

/-- Arming a pair makes it wait, whether it had a timer or not (R421). -/
theorem arm (h : TimersFor tmr n W) (hW : ∀ k' q', W' k' q' ↔ W k' q' ∨ k' = k ∧ q' = q) (d : Nat) :
    TimersFor (tmr.filter (fun t => !t.guards k q) ++ [⟨k, q, d, n⟩]) (n + 1) W' := by
  have cleared := h.cancel (W' := fun k' q' => W k' q' ∧ ¬ (k' = k ∧ q' = q)) (k := k) (q := q) fun _ _ => Iff.rfl
  refine cleared.push (fun waits => waits.2 ⟨rfl, rfl⟩) (fun k' q' => ?_) d
  rw [hW]
  by_cases same : k' = k ∧ q' = q <;> simp [same]

/-- Cancelling a pair that does not wait changes nothing. -/
theorem filter_eq_self (h : TimersFor tmr n W) (hnot : ¬ W k q) : tmr.filter (fun t => !t.guards k q) = tmr := by
  exact List.filter_eq_self.2 fun t ht => not_guards_iff.2 fun e => hnot ((h.guards k q).1 ⟨t, ht, e⟩)

/-- The firing timer is the only one of its pair, so taking it out is cancelling the pair. -/
theorem filter_ne (h : TimersFor tmr n W) {t : Timer} (ht : t ∈ tmr) :
    tmr.filter (fun u => u != t) = tmr.filter (fun u => !u.guards t.kind t.seq) := by
  refine List.filter_congr fun u hu => ?_
  have same : u.kind = t.kind ∧ u.seq = t.seq ↔ u = t :=
    ⟨fun ⟨hk, hq⟩ => List.inj_on_of_nodup_map h.pairs hu ht (Prod.ext hk hq), fun e => by simp [e]⟩
  rw [Bool.eq_iff_iff, not_guards_iff, same, bne_iff_ne]

end TimersFor

/-! ## What waits after a move of TXD or ROB -/

section

variable {txd : List ArqCtx} {rob : List RobEntry} (k : TimerKind) (q : Seq)

theorem awaited_eraseTxd (x : Seq) :
    Awaited (mapErase ArqCtx.seq x txd) rob k q ↔ Awaited txd rob k q ∧ ¬ (k = .rtx ∧ q = x) := by
  cases k with
  | rtx => simp only [Awaited, mem_mapErase]; grind
  | rxw => simp [Awaited]

theorem awaited_insertTxd (rise : KeysRise ArqCtx.seq txd) (c : ArqCtx) :
    Awaited (mapInsert ArqCtx.seq c txd) rob k q ↔ Awaited txd rob k q ∨ k = .rtx ∧ q = c.seq := by
  cases k with
  | rtx => simp only [Awaited, mem_mapInsert rise]; grind
  | rxw => simp [Awaited]

theorem awaited_eraseRob (x : Seq) :
    Awaited txd (mapErase RobEntry.seq x rob) k q ↔ Awaited txd rob k q ∧ ¬ (k = .rxw ∧ q = x) := by
  cases k with
  | rtx => simp [Awaited]
  | rxw => simp only [Awaited, mem_mapErase]; grind

/-- A received entry waits for nothing, so what is stored for a number ends its waiting (R342). -/
theorem awaited_insertReceived (rise : KeysRise RobEntry.seq rob) (x : Seq) (frags : List FragRec) :
    Awaited txd (mapInsert RobEntry.seq ⟨x, true, frags⟩ rob) k q ↔ Awaited txd rob k q ∧ ¬ (k = .rxw ∧ q = x) := by
  cases k with
  | rtx => simp [Awaited]
  | rxw => simp only [Awaited, mem_mapInsert rise]; grind

theorem awaited_insertPlaceholder (rise : KeysRise RobEntry.seq rob) (x : Seq) :
    Awaited txd (mapInsert RobEntry.seq ⟨x, false, []⟩ rob) k q ↔ Awaited txd rob k q ∨ k = .rxw ∧ q = x := by
  cases k with
  | rtx => simp [Awaited]
  | rxw =>
    simp only [Awaited, mem_mapInsert rise]
    constructor
    · rintro ⟨e, rfl | ⟨he, -⟩, hseq, hp⟩
      · exact .inr ⟨trivial, hseq.symm⟩
      · exact .inl ⟨e, he, hseq, hp⟩
    · rintro (⟨e, he, hseq, hp⟩ | ⟨-, rfl⟩)
      · by_cases same : e.seq = x
        · exact ⟨_, .inl rfl, same.symm.trans hseq, rfl⟩
        · exact ⟨e, .inr ⟨he, same⟩, hseq, hp⟩
      · exact ⟨_, .inl rfl, rfl, rfl⟩

/-- Draining a received entry ends no waiting. -/
theorem awaited_eraseReceived (rise : KeysRise RobEntry.seq rob) {e : RobEntry} (he : e ∈ rob) (hr : e.received = true) :
    Awaited txd (mapErase RobEntry.seq e.seq rob) k q ↔ Awaited txd rob k q := by
  rw [awaited_eraseRob]
  refine and_iff_left_of_imp fun waits => ?_
  rintro ⟨rfl, rfl⟩
  obtain ⟨p, hp, hseq, hplaceholder⟩ := waits
  rw [rise.unique hp he hseq, hr] at hplaceholder
  cases hplaceholder

end

/-! ## The reordering buffer -/

/-- ROB in canonical form, within 127 of `ne`, with no fragments in a placeholder (R35). -/
structure RobLegal (ne : Seq) (rob : List RobEntry) : Prop where
  rise : KeysRise RobEntry.seq rob
  near : ∀ e ∈ rob, seqDist ne e.seq ≤ 127
  bare : ∀ e ∈ rob, e.received = false → e.frags = []

theorem receiverLegal_iff {s : State} :
    ReceiverLegal s ↔ RobLegal s.ne s.rob ∧ ∀ e ∈ s.rob, e.seq = s.ne → e.received = false :=
  ⟨fun ⟨rise, near, front, bare⟩ => ⟨⟨rise, near, bare⟩, front⟩, fun ⟨⟨rise, near, bare⟩, front⟩ => ⟨rise, near, front, bare⟩⟩

namespace RobLegal

variable {ne : Seq} {rob : List RobEntry}

/-- Past NE every other number is one nearer (R341, R344). -/
theorem advance (h : RobLegal ne rob) : RobLegal (ne + 1) (mapErase RobEntry.seq ne rob) where
  rise := h.rise.mapErase ne
  near e he := by
    obtain ⟨mem, other⟩ := mem_mapErase.1 he
    have := h.near e mem
    have := seqDist_succ_left other
    omega
  bare e he := h.bare e (mem_mapErase.1 he).1

theorem insert (h : RobLegal ne rob) {e : RobEntry} (hnear : seqDist ne e.seq ≤ 127)
    (hbare : e.received = false → e.frags = []) : RobLegal ne (mapInsert RobEntry.seq e rob) where
  rise := h.rise.mapInsert e
  near x hx := by
    rcases eq_or_mem_of_mem_mapInsert hx with rfl | hx
    exacts [hnear, h.near x hx]
  bare x hx := by
    rcases eq_or_mem_of_mem_mapInsert hx with rfl | hx
    exacts [hbare, h.bare x hx]

end RobLegal

theorem receiverLegal_ignoresReports : IgnoresReports ReceiverLegal where
  emit _ _ h := h
  bump _ _ h := h
  enterFatal _ _ _ h := h

theorem timersMatch_ignoresReports : IgnoresReports TimersMatch where
  emit _ _ h := h
  bump _ _ h := h
  enterFatal _ _ _ h := h

theorem ReceiverLegal.of_sameReceiveHalf {s t : State} (h : ReceiverLegal s) (hhalf : SameReceiveHalf s t) :
    ReceiverLegal t := by
  obtain ⟨-, -, -, -, hne, hrob⟩ := hhalf
  simpa only [ReceiverLegal, hne, hrob] using h

theorem TimersMatch.of_same {s t : State} (h : TimersMatch s) (htmr : t.tmr = s.tmr) (hstamp : t.stampNext = s.stampNext)
    (htxd : t.txd = s.txd) (hrob : t.rob = s.rob) : TimersMatch t := by
  simpa only [TimersMatch, htmr, hstamp, htxd, hrob] using h

/-! ## Draining -/

/-- What a drain starts from: ROB legal but for a received entry at NE, and the timers it asks for. -/
def Drainable (s : State) : Prop := RobLegal s.ne s.rob ∧ TimersMatch s

theorem Drainable.drain {s : State} (h : Drainable s) : Drainable s.drain := by
  refine State.drain_induct (P := Drainable) (fun t e found received ht => ?_) h
  obtain ⟨rob, timers⟩ := ht
  obtain ⟨mem, front⟩ := mapFind_some found
  refine ⟨rob.advance, ?_⟩
  have waits := fun k q => awaited_eraseReceived (txd := t.txd) k q rob.rise mem received
  rw [front] at waits
  simpa only [TimersMatch, State.reassembleAll_tmr, State.reassembleAll_stampNext, State.reassembleAll_txd] using
    timers.congr waits

/-- The drain leaves nothing received at NE (R344). -/
theorem Drainable.receiverLegal_drain {s : State} (h : Drainable s) : ReceiverLegal s.drain := by
  have rob := h.drain.1
  exact receiverLegal_iff.2 ⟨rob, fun e he hseq => s.drain_ends e ((mapFind_eq_some rob.rise).2 ⟨he, hseq⟩)⟩

/-! ## The receiver's rules -/

/-- What the rules for PDUs and expiries keep where the timers match. -/
def ArqMatch (s : State) : Prop := SenderLegal s ∧ ReceiverLegal s ∧ TimersMatch s

theorem arqLegal_iff {s : State} : ArqLegal s ↔ CfgLegal s ∧ ArqMatch s ∧ NoneDue s := by
  simp only [ArqLegal, ArqMatch, timersLegal_iff, and_assoc]

/-- Cancelling for a number that ROB does not have changes no timer. -/
theorem TimersMatch.cancel_of_absent {s : State} (h : TimersMatch s) {k : Seq} (absent : ∀ e ∈ s.rob, e.seq ≠ k) :
    (s.cancel .rxw k).tmr = s.tmr :=
  TimersFor.filter_eq_self h fun ⟨e, he, hseq, _⟩ => absent e he hseq

/-- What ROB has for a number, and its timer, are taken out (R341). -/
def State.release (k : Seq) (s : State) : State :=
  { s with rob := mapErase RobEntry.seq k s.rob, tmr := (s.cancel .rxw k).tmr }

theorem TimersMatch.release_of_absent {s : State} (h : TimersMatch s) {k : Seq} (absent : ∀ e ∈ s.rob, e.seq ≠ k) :
    s.release k = s := by
  have rob : mapErase RobEntry.seq k s.rob = s.rob := List.filter_eq_self.2 fun e he => by simpa using absent e he
  rw [State.release, h.cancel_of_absent absent, rob]

theorem TimersMatch.release {s : State} (h : TimersMatch s) (k : Seq) : TimersMatch (s.release k) :=
  TimersFor.cancel h fun k' q' => awaited_eraseRob k' q' k

/-- InOrder takes out what ROB has at NE, nothing where it has none, reassembles and drains (R341). -/
theorem inOrder_eq (recs : List FragRec) {s : State} (h : TimersMatch s) :
    inOrder recs s = ({ (s.release s.ne).reassembleAll recs with ne := s.ne + 1 } : State).drain := by
  unfold inOrder
  split
  · simp only [State.reassembleAll_ne]
    rfl
  · rename_i absent
    rw [h.release_of_absent (mapFind_eq_none.1 (by simpa using absent))]
    simp only [State.reassembleAll_ne]

/-- Ahead stores the PDU for its number, whose timer, if it has one, is cancelled (R342). -/
theorem storeAhead_eq (q : Seq) (recs : List FragRec) {s : State} (h : TimersMatch s) :
    storeAhead q recs s =
      { s with rob := mapInsert RobEntry.seq ⟨q, true, recs⟩ s.rob, tmr := (s.cancel .rxw q).tmr } := by
  unfold storeAhead
  split
  · rfl
  · rename_i absent
    rw [h.cancel_of_absent (mapFind_eq_none.1 (by simpa using absent))]

theorem inOrder_receiver (recs : List FragRec) {s : State} (h : ReceiverLegal s) (timers : TimersMatch s) :
    ReceiverLegal (inOrder recs s) ∧ TimersMatch (inOrder recs s) := by
  have drainable : Drainable { (s.release s.ne).reassembleAll recs with ne := s.ne + 1 } := by
    refine ⟨?_, (timers.release s.ne).of_same ?_ ?_ ?_ ?_⟩
    · simpa [State.release] using (receiverLegal_iff.1 h).1.advance
    all_goals simp
  rw [inOrder_eq recs timers]
  exact ⟨drainable.receiverLegal_drain, drainable.drain.2⟩

/-- InOrder arms nothing. -/
theorem inOrder_noneDue (recs : List FragRec) {s : State} (timers : TimersMatch s) (h : NoneDue s) :
    NoneDue (inOrder recs s) := by
  intro t ht
  rw [inOrder_eq recs timers] at ht
  have kept : t ∈ (s.cancel .rxw s.ne).tmr := by simpa [State.release] using ht
  simpa using h t (State.mem_cancel_tmr.1 kept).1

/-- What storing ahead and making a gap's placeholders keep, NE being `ne` and the configuration `c` throughout. -/
structure AheadLegal (ne : Seq) (c : CfgBlock) (s : State) : Prop where
  ne_eq : s.ne = ne
  cfg_eq : s.cfg = c
  receiver : ReceiverLegal s
  timers : TimersMatch s
  due : NoneDue s

theorem placeholder_aheadLegal {ne k : Seq} {c : CfgBlock} {s : State} (h : AheadLegal ne c s) (hwait : 1 ≤ c.tRxwait.toNat)
    (hnear : seqDist ne k ≤ 127) : AheadLegal ne c (placeholder s k) := by
  rcases placeholder_cases s k with ⟨-, e⟩ | ⟨-, e⟩ <;> rw [e]
  · exact h
  · obtain ⟨rob, front⟩ := receiverLegal_iff.1 h.receiver
    refine ⟨h.ne_eq, h.cfg_eq, receiverLegal_iff.2 ⟨rob.insert (by rwa [h.ne_eq]) fun _ => rfl, fun x hx => ?_⟩, ?_, ?_⟩
    · rcases eq_or_mem_of_mem_mapInsert hx with rfl | hx
      · exact fun _ => rfl
      · exact front x hx
    · exact TimersFor.arm h.timers (fun k' q' => awaited_insertPlaceholder k' q' rob.rise k) _
    · intro t ht
      rcases State.mem_arm_tmr.1 ht with ⟨ht, -⟩ | rfl
      · exact h.due t ht
      · rw [← h.cfg_eq] at hwait
        exact Nat.lt_add_of_pos_right hwait

theorem placeholders_aheadLegal {ne : Seq} {c : CfgBlock} (hwait : 1 ≤ c.tRxwait.toNat) {ks : List Seq}
    (hnear : ∀ k ∈ ks, seqDist ne k ≤ 127) {s : State} (h : AheadLegal ne c s) :
    AheadLegal ne c (ks.foldl placeholder s) := by
  induction ks generalizing s with
  | nil => exact h
  | cons k ks ih =>
    obtain ⟨hk, hks⟩ := List.forall_mem_cons.1 hnear
    exact ih hks (placeholder_aheadLegal h hwait hk)

theorem storeAhead_aheadLegal {ne q : Seq} {c : CfgBlock} {s : State} (h : AheadLegal ne c s) (recs : List FragRec)
    (hpos : 1 ≤ seqDist ne q) (hnear : seqDist ne q ≤ 127) : AheadLegal ne c (storeAhead q recs s) := by
  obtain ⟨rob, front⟩ := receiverLegal_iff.1 h.receiver
  rw [storeAhead_eq q recs h.timers]
  refine ⟨h.ne_eq, h.cfg_eq, receiverLegal_iff.2 ⟨rob.insert (by rwa [h.ne_eq]) (fun placeholder => by cases placeholder), ?_⟩,
    TimersFor.cancel h.timers fun k' q' => awaited_insertReceived k' q' rob.rise q recs,
    fun t ht => h.due t (State.mem_cancel_tmr.1 ht).1⟩
  intro x hx hfront
  rcases eq_or_mem_of_mem_mapInsert hx with rfl | hx
  · have atFront : q = ne := hfront.trans h.ne_eq
    simp [atFront] at hpos
  · exact front x hx hfront

theorem ahead_aheadLegal {ne q : Seq} {c : CfgBlock} {s : State} (h : AheadLegal ne c s) (hwait : 1 ≤ c.tRxwait.toNat)
    (recs : List FragRec) (hpos : 1 ≤ seqDist ne q) (hnear : seqDist ne q ≤ 127) : AheadLegal ne c (ahead q recs s) := by
  rcases ahead_cases q recs s with ⟨-, e⟩ | ⟨-, e⟩ <;> rw [e]
  · exact ⟨h.ne_eq, h.cfg_eq, receiverLegal_ignoresReports.bump _ _ h.receiver,
      timersMatch_ignoresReports.bump _ _ h.timers, h.due⟩
  · refine placeholders_aheadLegal hwait (fun k hk => ?_) (storeAhead_aheadLegal h recs hpos hnear)
    rw [h.ne_eq, mem_seqRange] at hk
    omega

/-! ## The sender's rules -/

/-- Moving a PDU to TXD arms its timer (R309). -/
theorem TimersMatch.transmit {s : State} (h : TimersMatch s) (rise : KeysRise ArqCtx.seq s.txd) (c : ArqCtx) :
    TimersMatch (s.transmit c) :=
  TimersFor.arm h (fun k q => awaited_insertTxd k q rise c) _

theorem NoneDue.transmit {s : State} (h : NoneDue s) (hpos : 1 ≤ s.cfg.tRtx.toNat) (c : ArqCtx) : NoneDue (s.transmit c) := by
  intro t ht
  rcases State.mem_arm_tmr.1 ht with ⟨ht, -⟩ | rfl
  · exact h t ht
  · exact Nat.lt_add_of_pos_right hpos

/-- What the sender's rules keep. -/
def SendMatch (s : State) : Prop := SenderLegal s ∧ TimersMatch s ∧ NoneDue s

theorem sendMatch_ignoresReports : IgnoresReports SendMatch where
  emit _ _ h := h
  bump _ _ h := h
  enterFatal _ _ _ h := h

theorem resend_sendMatch {s : State} (h : SendMatch s) (bounds : ArqCfgBounds s.cfg) {c : ArqCtx} {rest : List ArqCtx}
    (hq : s.rtxq = c :: rest) : (resend c rest s).Ends SendMatch := by
  obtain ⟨sender, timers, due⟩ := h
  have rise := (senderLegal_iff.1 sender).1
  have resent : SendMatch (({ s with rtxq := rest } : State).transmit { c with count := c.count + 1 }) :=
    ⟨sender.resendHead hq, TimersMatch.transmit (s := { s with rtxq := rest }) timers rise _,
      NoneDue.transmit (s := { s with rtxq := rest }) due bounds.tRtx_pos _⟩
  exact sendMatch_ignoresReports.sendFrame (sendMatch_ignoresReports.bump _ _ resent) c.pdu

theorem sendNext_sendMatch {s : State} (h : SendMatch s) (bounds : ArqCfgBounds s.cfg) (available : s.available = true)
    (pdu : Bytes) : SendMatch (({ s with seqNext := s.seqNext + 1 } : State).transmit ⟨s.seqNext, pdu, 0⟩) := by
  obtain ⟨sender, timers, due⟩ := h
  have rise := (senderLegal_iff.1 sender).1
  exact ⟨sender.sendNext bounds available pdu,
    TimersMatch.transmit (s := { s with seqNext := s.seqNext + 1 }) timers rise _,
    NoneDue.transmit (s := { s with seqNext := s.seqNext + 1 }) due bounds.tRtx_pos _⟩

/-- BuildFrame touches nothing the invariant reads. -/
theorem SendMatch.buildFrame {s t : State} {b : Nat} {f : Bytes} (h : SendMatch s) (hb : s.buildFrame b = some (f, t)) :
    SendMatch t ∧ t.cfg = s.cfg ∧ t.seqNext = s.seqNext ∧ t.available = s.available := by
  obtain ⟨p, -, -, -, -, rfl⟩ := State.buildFrame_some hb
  exact ⟨h, rfl, rfl, rfl⟩

theorem txoppRule_sendMatch (b : BitVec 32) {s : State} (h : SendMatch s) (bounds : s.arq = true → ArqCfgBounds s.cfg) :
    (txoppRule b s).Ends SendMatch := by
  have hP := sendMatch_ignoresReports
  unfold txoppRule
  split
  case isTrue arq =>
    rcases txoppArqRule_cases b.toNat s with ⟨c, rest, hq, -, e⟩ | ⟨-, available, -, f, t, built, e⟩ | ⟨-, -, e⟩ <;> rw [e]
    · exact resend_sendMatch h (bounds arq) hq
    · obtain ⟨kept, hcfg, hseq, havail⟩ := h.buildFrame built
      have sent := sendNext_sendMatch kept (hcfg ▸ bounds arq) (havail.trans available) (s.seqNext :: f)
      rw [hseq] at sent
      exact hP.sendFrame sent _
    · exact hP.nullOpportunity h
  case isFalse =>
    rcases txoppPlainRule_cases b.toNat s with ⟨-, e⟩ | ⟨f, t, built, e⟩ <;> rw [e]
    · exact hP.nullOpportunity h
    · exact hP.sendFrame (h.buildFrame built).1 f

/-- An accepted ACK releases its number with its timer (R331). -/
theorem rxackRule_sendMatch (q : Seq) (flow : BitVec 8) {s : State} (h : SendMatch s) :
    (rxackRule q flow s).Ends SendMatch := by
  have hP := sendMatch_ignoresReports
  obtain ⟨sender, timers, due⟩ := id h
  rcases rxackRule_cases q flow s with ⟨-, e⟩ | ⟨-, -, -, e⟩ | ⟨-, -, -, -, e⟩ <;> rw [e]
  · exact hP.bump _ _ h
  · have released : SendMatch { s.cancel .rtx q with txd := mapErase ArqCtx.seq q s.txd } :=
      ⟨sender.eraseTxd q, TimersFor.cancel timers fun k' q' => awaited_eraseTxd k' q' q,
        fun t ht => due t (State.mem_cancel_tmr.1 ht).1⟩
    exact hP.bump _ _ released
  · have released : SendMatch { s with rtxq := mapErase ArqCtx.seq q s.rtxq } := ⟨sender.eraseRtxq q, timers, due⟩
    exact hP.bump _ _ released

/-! ## Expiries -/

/-- A retransmission expiry takes its number out of TXD, so the number no longer waits (R320, R321). -/
theorem onRtxExpiry_arqMatch {s : State} (h : ArqMatch s) {q : Seq} (waits : Awaited s.txd s.rob .rtx q) :
    ArqMatch (onRtxExpiry q (s.cancel .rtx q)) := by
  obtain ⟨sender, receiver, timers⟩ := h
  have cancelled : TimersMatch { s.cancel .rtx q with txd := mapErase ArqCtx.seq q s.txd } :=
    TimersFor.cancel timers fun k' q' => awaited_eraseTxd k' q' q
  have receiver' : ReceiverLegal (onRtxExpiry q (s.cancel .rtx q)) :=
    ReceiverLegal.of_sameReceiveHalf (s := s.cancel .rtx q) receiver (onRtxExpiry_sameReceiveHalf q _)
  rcases onRtxExpiry_cases q (s.cancel .rtx q) with ⟨none, -⟩ | ⟨c, found, outcome⟩
  · obtain ⟨x, hx, hseq⟩ := waits
    exact absurd hseq (mapFind_eq_none.1 none x hx)
  · obtain ⟨mem, rfl⟩ := mapFind_some found
    rcases outcome with ⟨hcount, e⟩ | ⟨-, e⟩ <;> rw [e] at receiver' ⊢
    · exact ⟨sender.requeue mem hcount, receiver', cancelled⟩
    · exact ⟨sender.eraseTxd c.seq, receiver', cancelled⟩

/-- An Rx waiting expiry makes its placeholder a received entry, so the number no longer waits, and drains (R345). -/
theorem onRxwExpiry_arqMatch {s : State} (h : ArqMatch s) {q : Seq} (waits : Awaited s.txd s.rob .rxw q) :
    ArqMatch (onRxwExpiry q (s.cancel .rxw q)) := by
  obtain ⟨sender, receiver, timers⟩ := h
  have rob := (receiverLegal_iff.1 receiver).1
  obtain ⟨x, hx, rfl, hplaceholder⟩ := waits
  have found : mapFind RobEntry.seq x.seq s.rob = some x := (mapFind_eq_some rob.rise).2 ⟨hx, rfl⟩
  rcases onRxwExpiry_cases x.seq (s.cancel .rxw x.seq) with ⟨received, -⟩ | ⟨y, -, -, e⟩
  · rw [received x found] at hplaceholder
    cases hplaceholder
  · have forced : Drainable { s.cancel .rxw x.seq with rob := mapInsert RobEntry.seq ⟨x.seq, true, []⟩ s.rob } :=
      ⟨rob.insert (rob.near x hx) fun _ => rfl,
        TimersFor.cancel timers fun k' q' => awaited_insertReceived k' q' rob.rise x.seq []⟩
    have counted : Drainable (State.bump .rxwaitExpired
        { s.cancel .rxw x.seq with rob := mapInsert RobEntry.seq ⟨x.seq, true, []⟩ s.rob }) := forced
    have sent : SameTransmitHalf s (onRxwExpiry x.seq (s.cancel .rxw x.seq)) := by rw [e]; simp [SameTransmitHalf]
    have setting : SameSetting s (onRxwExpiry x.seq (s.cancel .rxw x.seq)) := by simp [SameSetting]
    refine ⟨sender.of_sameTransmitHalf setting sent, ?_, ?_⟩ <;> rw [e]
    · exact counted.receiverLegal_drain
    · exact counted.drain.2

/-- A firing timer is removed and its handler ends what it guarded (R375). -/
theorem fire_arqMatch {s : State} (h : ArqMatch s) {t : Timer} (ht : t ∈ s.tmr) :
    ArqMatch (expire t { s with tmr := s.tmr.filter (fun u => u != t) }) := by
  obtain ⟨-, -, timers⟩ := id h
  have waits : Awaited s.txd s.rob t.kind t.seq := (TimersFor.guards timers _ _).1 ⟨t, ht, rfl, rfl⟩
  rw [TimersFor.filter_ne timers ht]
  change ArqMatch (expire t (s.cancel t.kind t.seq))
  unfold expire
  split
  · rename_i kind
    rw [kind] at waits ⊢
    exact onRtxExpiry_arqMatch h waits
  · rename_i kind
    rw [kind] at waits ⊢
    exact onRxwExpiry_arqMatch h waits

/-- After a tick everything matches again and nothing is due (R37). -/
theorem tickOnce_arqMatch {s : State} (h : ArqMatch s) : ArqMatch s.tickOnce ∧ NoneDue s.tickOnce := by
  have later : ArqMatch { s with now := s.now + 1 } := h
  refine ⟨State.fireDue_induct (P := ArqMatch) (fun t u hu _ _ ht => fire_arqMatch ht hu) later, fun u hu => ?_⟩
  have due := State.fireDue_none_due { s with now := s.now + 1 } u hu
  simpa using due

theorem ticks_arqMatch (n : Nat) {s : State} (h : ArqMatch s ∧ NoneDue s) : ArqMatch (ticks n s) ∧ NoneDue (ticks n s) :=
  ticks_induct (P := fun t => ArqMatch t ∧ NoneDue t) (fun _ ht => tickOnce_arqMatch ht.1) n s h

/-! ## Every step -/

/-- What the receiver's rules keep. -/
def ReceiveMatch (s : State) : Prop := ReceiverLegal s ∧ TimersMatch s ∧ NoneDue s

theorem receiveMatch_ignoresReports : IgnoresReports ReceiveMatch where
  emit _ _ h := h
  bump _ _ h := h
  enterFatal _ _ _ h := h

theorem ReceiveMatch.reassembleAll {s : State} (h : ReceiveMatch s) (recs : List FragRec) :
    ReceiveMatch (s.reassembleAll recs) := by
  obtain ⟨receiver, timers, due⟩ := h
  refine ⟨?_, timers.of_same ?_ ?_ ?_ ?_, ?_⟩
  · simpa [ReceiverLegal] using receiver
  · simp
  · simp
  · simp
  · simp
  · simpa [NoneDue] using due

theorem rxfrmRule_receiveMatch (f : Bytes) {s : State} (h : ReceiveMatch s) (bounds : s.arq = true → ArqCfgBounds s.cfg) :
    (rxfrmRule f s).Ends ReceiveMatch := by
  have hP := receiveMatch_ignoresReports
  unfold rxfrmRule
  split
  case isTrue arq =>
    rcases rxfrmArqRule_cases f s with ⟨-, e⟩ | ⟨q, recs, -, outcome⟩
    · rw [e]; exact hP.bump _ _ h
    · have acked := hP.acknowledge h q
      obtain ⟨receiver, timers, due⟩ := id acked
      rcases outcome with ⟨-, -, e⟩ | ⟨-, -, e⟩ | ⟨-, e⟩ | ⟨hpos, hnear, e⟩ <;> rw [e]
      · exact Effect.ends_fatal
      · exact hP.bump _ _ acked
      · obtain ⟨receiver', timers'⟩ := inOrder_receiver recs receiver timers
        exact Effect.ends_done.2 ⟨receiver', timers', inOrder_noneDue recs timers due⟩
      · have before : AheadLegal s.ne s.cfg (acknowledge q s) :=
          ⟨by simp [acknowledge], by simp [acknowledge], receiver, timers, due⟩
        obtain ⟨-, -, receiver', timers', due'⟩ := ahead_aheadLegal before (bounds arq).tRxwait_pos recs hpos hnear
        exact Effect.ends_done.2 ⟨receiver', timers', due'⟩
  case isFalse =>
    rcases rxfrmPlainRule_cases f s with ⟨-, e⟩ | ⟨recs, -, e⟩ <;> rw [e]
    · exact hP.bump _ _ h
    · exact Effect.ends_done.2 ((hP.bump _ _ h).reassembleAll recs)

theorem fragmentRule_receiveMatch (b : Bytes) {s : State} (h : ReceiveMatch s) : (fragmentRule b s).Ends ReceiveMatch := by
  rcases fragmentRule_cases b s with ⟨-, e⟩ | ⟨r, -, e⟩ <;> rw [e]
  · exact h
  · exact Effect.ends_done.2 (h.reassembleAll [r])

/-- ENQ writes nothing the sender's invariant reads. -/
theorem enqRule_sendMatch (dest : BitVec 32) (data : Bytes) {s : State} (h : SendMatch s) :
    (enqRule dest data s).Ends SendMatch :=
  sendMatch_ignoresReports.enqRule h (fun _ => h) dest data

namespace ArqLegal

variable {s t : State}

theorem sendMatch (h : ArqLegal s) : SendMatch s := by
  obtain ⟨-, ⟨sender, -, timers⟩, due⟩ := arqLegal_iff.1 h
  exact ⟨sender, timers, due⟩

theorem receiveMatch (h : ArqLegal s) : ReceiveMatch s := by
  obtain ⟨-, ⟨-, receiver, timers⟩, due⟩ := arqLegal_iff.1 h
  exact ⟨receiver, timers, due⟩

theorem arqCfgBounds (h : ArqLegal s) (hrun : s.running = true) (arq : s.arq = true) : ArqCfgBounds s.cfg :=
  h.1.arqCfgBounds hrun arq

/-- What sends keeps the receiver's part (R8). -/
theorem of_sent (h : ArqLegal s) (hset : SameSetting s t) (hhalf : SameReceiveHalf s t) (hsend : SendMatch t) :
    ArqLegal t := by
  obtain ⟨cfg, ⟨-, receiver, -⟩, -⟩ := arqLegal_iff.1 h
  obtain ⟨sender', timers', due'⟩ := hsend
  exact arqLegal_iff.2 ⟨cfg.of_sameSetting hset, ⟨sender', receiver.of_sameReceiveHalf hhalf, timers'⟩, due'⟩

/-- What receives keeps the sender's part (R8). -/
theorem of_received (h : ArqLegal s) (hset : SameSetting s t) (hhalf : SameTransmitHalf s t) (hrecv : ReceiveMatch t) :
    ArqLegal t := by
  obtain ⟨cfg, ⟨sender, -, -⟩, -⟩ := arqLegal_iff.1 h
  obtain ⟨receiver', timers', due'⟩ := hrecv
  exact arqLegal_iff.2 ⟨cfg.of_sameSetting hset, ⟨sender.of_sameTransmitHalf hset hhalf, receiver', timers'⟩, due'⟩

theorem ticks (h : ArqLegal s) (n : Nat) : ArqLegal (Machine.ticks n s) := by
  obtain ⟨cfg, arq⟩ := arqLegal_iff.1 h
  refine arqLegal_iff.2 ⟨?_, ticks_arqMatch n arq⟩
  simpa only [CfgLegal, State.configured, ticks_cfg, ticks_status] using cfg

end ArqLegal

theorem arqLegal_kept : Kept ArqLegal where
  port _ _ h := h
  resp _ _ _ h := h
  fatal s c i _ h := ⟨cfgLegal_enterFatal c i s, h.2⟩
  zero s _ := ArqIdle.arqLegal ⟨rfl, rfl, rfl, rfl, rfl, rfl, rfl⟩ (cfgLegal_of_unconfigured (by simp [State.configured]))
  config s c valid _ := ArqIdle.arqLegal ⟨rfl, rfl, rfl, rfl, rfl, rfl, rfl⟩ fun _ => valid
  enq d x s _ _ _ e h :=
    h.of_sent ((enqRule_sameSetting d x s).of_done e) ((enqRule_sameReceiveHalf d x s).of_done e)
      ((enqRule_sendMatch d x h.sendMatch).of_done e)
  txopp b s _ _ hrun e h :=
    h.of_sent ((txoppRule_sameSetting b s).of_done e) ((txoppRule_sameReceiveHalf b s).of_done e)
      ((txoppRule_sendMatch b h.sendMatch (h.arqCfgBounds hrun)).of_done e)
  rxfrm f s _ _ hrun e h :=
    h.of_received ((rxfrmRule_sameSetting f s).of_done e) ((rxfrmRule_sameTransmitHalf f s).of_done e)
      ((rxfrmRule_receiveMatch f h.receiveMatch (h.arqCfgBounds hrun)).of_done e)
  rxack q w s _ _ _ e h :=
    h.of_sent ((rxackRule_sameSetting q w s).of_done e) ((rxackRule_sameReceiveHalf q w s).of_done e)
      ((rxackRule_sendMatch q w h.sendMatch).of_done e)
  tick n _ _ _ h := h.ticks n
  fragment b s _ _ _ e h :=
    h.of_received ((fragmentRule_sameSetting b s).of_done e) ((fragmentRule_sameTransmitHalf b s).of_done e)
      ((fragmentRule_receiveMatch b h.receiveMatch).of_done e)

/-- Settles O51: each rule keeps the half of the invariant it works on and leaves the other half alone; after every tick what
was due has fired, and each firing ends what its timer guarded. -/
theorem everyStepKeepsTheArqStateLegal : Obligations.EveryStepKeepsTheArqStateLegal :=
  fun _ _ h he => arqLegal_kept.step h he

end Sys2Proof.Machine
end

section
/-! PROOFS. Memory (20_memory.md): the port's oldest command runs to completion (R80), and its response is its one Resp record
and its last record (R82, R100). -/

namespace Sys2Proof.Machine

/-! ## Records that are no response -/

/-- From `s` to `t` records were emitted after those of `s`, none of them a response. -/
def EmitsNoResp (s t : State) : Prop := ∃ recs, t.out = s.out ++ recs ∧ ∀ r ∈ recs, r.isResp = false

namespace EmitsNoResp

variable {s t u : State}

theorem of_out_eq (h : t.out = s.out) : EmitsNoResp s t := ⟨[], by simp [h], by simp⟩

theorem trans (h : EmitsNoResp s t) (h' : EmitsNoResp t u) : EmitsNoResp s u := by
  obtain ⟨recs, e, noResp⟩ := h
  obtain ⟨recs', e', noResp'⟩ := h'
  refine ⟨recs ++ recs', by rw [e', e, List.append_assoc], fun r hr => ?_⟩
  rcases List.mem_append.1 hr with hr | hr
  · exact noResp r hr
  · exact noResp' r hr

theorem of_out_record {r : OutRec} (h : t.out = s.out ++ [r]) (hr : r.isResp = false) : EmitsNoResp s t :=
  ⟨[r], h, by simpa using hr⟩

/-- PktOut records are no responses: what reassembly, draining and ticking emit. -/
theorem of_packets (h : ∃ ps : List Bytes, t.out = s.out ++ ps.map OutRec.pktOut) : EmitsNoResp s t := by
  obtain ⟨ps, e⟩ := h
  refine ⟨_, e, fun r hr => ?_⟩
  obtain ⟨p, -, rfl⟩ := List.mem_map.1 hr
  rfl

end EmitsNoResp

/-! ## The rules emit no response -/

@[simp] theorem State.transmit_out (c : ArqCtx) (s : State) : (s.transmit c).out = s.out := rfl

theorem State.buildFrame_out {b : Nat} {s t : State} {f : Bytes} (h : s.buildFrame b = some (f, t)) : t.out = s.out := by
  obtain ⟨p, -, -, -, -, rfl⟩ := State.buildFrame_some h
  rfl

theorem acknowledge_out (q : Seq) (s : State) : (acknowledge q s).out = s.out ++ [.ackOut q s.cfg.flowId] := rfl

theorem ahead_out (q : Seq) (recs : List FragRec) (s : State) : (ahead q recs s).out = s.out := by rw [ahead_frame]

theorem sendFrame_emitsNoResp {s t : State} (h : t.out = s.out) (frame : Bytes) :
    (sendFrame frame t).Ends (EmitsNoResp s) :=
  (EmitsNoResp.of_out_eq h).trans (.of_out_record rfl rfl)

theorem nullOpportunity_emitsNoResp (s : State) : (nullOpportunity s).Ends (EmitsNoResp s) :=
  EmitsNoResp.of_out_record rfl rfl

theorem acknowledge_emitsNoResp (q : Seq) (s : State) : EmitsNoResp s (acknowledge q s) :=
  .of_out_record (acknowledge_out q s) rfl

theorem enqRule_emitsNoResp (dest : BitVec 32) (data : Bytes) (s : State) : (enqRule dest data s).Ends (EmitsNoResp s) := by
  rcases enqRule_cases dest data s with ⟨-, e⟩ | ⟨-, e⟩ | ⟨-, -, -, e⟩ | ⟨-, -, -, e⟩ <;> rw [e]
  · exact Effect.ends_fatal
  · exact Effect.ends_fatal
  · exact EmitsNoResp.of_out_eq rfl
  · exact EmitsNoResp.of_out_eq rfl

theorem txoppRule_emitsNoResp (b : BitVec 32) (s : State) : (txoppRule b s).Ends (EmitsNoResp s) := by
  unfold txoppRule
  split
  · rcases txoppArqRule_cases b.toNat s with ⟨c, rest, -, -, e⟩ | ⟨-, -, -, f, t, built, e⟩ | ⟨-, -, e⟩ <;> rw [e]
    · exact sendFrame_emitsNoResp (by simp) c.pdu
    · exact sendFrame_emitsNoResp (by simp [State.buildFrame_out built]) _
    · exact nullOpportunity_emitsNoResp s
  · rcases txoppPlainRule_cases b.toNat s with ⟨-, e⟩ | ⟨f, t, built, e⟩ <;> rw [e]
    · exact nullOpportunity_emitsNoResp s
    · exact sendFrame_emitsNoResp (State.buildFrame_out built) f

/-- The ACK goes out before the packets the PDU releases (R340). -/
theorem rxfrmRule_emitsNoResp (f : Bytes) (s : State) : (rxfrmRule f s).Ends (EmitsNoResp s) := by
  unfold rxfrmRule
  split
  · have acked := fun q => acknowledge_emitsNoResp q s
    rcases rxfrmArqRule_cases f s with
      ⟨-, e⟩ | ⟨q, recs, -, ⟨-, -, e⟩ | ⟨-, -, e⟩ | ⟨-, e⟩ | ⟨-, -, e⟩⟩ <;> rw [e]
    case inl => exact EmitsNoResp.of_out_eq rfl
    case inr.inl => exact Effect.ends_fatal
    case inr.inr.inl => exact Effect.ends_done.2 ((acked q).trans (.of_out_eq rfl))
    case inr.inr.inr.inl => exact Effect.ends_done.2 ((acked q).trans (.of_packets (inOrder_out recs _)))
    case inr.inr.inr.inr => exact Effect.ends_done.2 ((acked q).trans (.of_out_eq (ahead_out q recs _)))
  · rcases rxfrmPlainRule_cases f s with ⟨-, e⟩ | ⟨recs, -, e⟩ <;> rw [e]
    · exact EmitsNoResp.of_out_eq rfl
    · exact EmitsNoResp.of_packets ((s.bump .framesRcvd).reassembleAll_out recs)

theorem rxackRule_emitsNoResp (q : Seq) (flow : BitVec 8) (s : State) : (rxackRule q flow s).Ends (EmitsNoResp s) := by
  rcases rxackRule_cases q flow s with ⟨-, e⟩ | ⟨-, -, -, e⟩ | ⟨-, -, -, -, e⟩ <;> rw [e] <;>
    exact EmitsNoResp.of_out_eq rfl

theorem tickRule_emitsNoResp (n : Nat) (s : State) : (tickRule n s).Ends (EmitsNoResp s) :=
  EmitsNoResp.of_packets (ticks_out n s)

theorem resetRule_emitsNoResp (c : CfgBlock) (s : State) : (resetRule c s).Ends (EmitsNoResp s) := by
  unfold resetRule
  split
  · exact Effect.ends_fatal
  · exact EmitsNoResp.of_out_eq rfl

/-! ## The pipeline adds the one response -/

/-- From `s` to `t` exactly one response was emitted, after every other record. -/
def RespondsOnceAndLast (s t : State) : Prop :=
  ∃ recs code value, t.out = s.out ++ recs ++ [.resp code value] ∧ ∀ r ∈ recs, r.isResp = false

theorem EmitsNoResp.respond {s t : State} (h : EmitsNoResp s t) (code : Cause) (value : Reg64) :
    RespondsOnceAndLast s (t.respond code value) := by
  obtain ⟨recs, e, noResp⟩ := h
  exact ⟨recs, code, value, by rw [State.respond_out, e], noResp⟩

/-- A rule that raises FATAL has emitted nothing, since its writes are abandoned (R410). -/
theorem finish_respondsOnceAndLast {s : State} {e : Effect} (h : e.Ends (EmitsNoResp s)) :
    RespondsOnceAndLast s (finish s e) := by
  cases e with
  | done t v => exact EmitsNoResp.respond h .ok v
  | fatal c info => exact EmitsNoResp.respond (.of_out_eq (State.enterFatal_out c info s)) c info

theorem refuse_respondsOnceAndLast (c : Cause) (s : State) : RespondsOnceAndLast s (s.refuse c) :=
  EmitsNoResp.respond (.of_out_eq rfl) c 0

theorem runCommand_respondsOnceAndLast {rule : State → Effect} {s : State} (h : (rule s).Ends (EmitsNoResp s)) :
    RespondsOnceAndLast s (runCommand rule s) := by
  rcases runCommand_cases rule s with ⟨-, e⟩ | ⟨-, -, e⟩ | ⟨-, -, e⟩ <;> rw [e]
  · exact refuse_respondsOnceAndLast _ s
  · exact refuse_respondsOnceAndLast _ s
  · exact finish_respondsOnceAndLast h

theorem illegalCommand_respondsOnceAndLast (c : Bytes) (s : State) : RespondsOnceAndLast s (illegalCommand c s) := by
  rcases illegalCommand_cases c s with ⟨-, e⟩ | ⟨-, e⟩ <;> rw [e]
  · exact refuse_respondsOnceAndLast _ s
  · exact EmitsNoResp.respond (.of_out_eq (State.enterFatal_out _ _ s)) _ _

theorem exec_respondsOnceAndLast {i : Instr} {s t : State} (hcommand : i.isCommand = true) (h : exec i s = .next t) :
    RespondsOnceAndLast s t := by
  cases i with
  | enq dest data => cases h; exact runCommand_respondsOnceAndLast (enqRule_emitsNoResp dest data s)
  | txopp b | txoppArq b => cases h; exact runCommand_respondsOnceAndLast (txoppRule_emitsNoResp b s)
  | rxfrm f | rxfrmArq f => cases h; exact runCommand_respondsOnceAndLast (rxfrmRule_emitsNoResp f s)
  | rxack q flow => cases h; exact runCommand_respondsOnceAndLast (rxackRule_emitsNoResp q flow s)
  | tick n =>
    change execTick n s = _ at h
    rcases execTick_cases n s with ⟨-, -, e⟩ | ⟨-, e⟩ <;> rw [e] at h <;> cases h
    exact runCommand_respondsOnceAndLast (tickRule_emitsNoResp n.toNat s)
  | rdreg idx => cases h; exact finish_respondsOnceAndLast (EmitsNoResp.of_out_eq rfl)
  | reset c =>
    cases h
    have fromPowerOn := finish_respondsOnceAndLast (resetRule_emitsNoResp c s.powerOn)
    rwa [RespondsOnceAndLast, State.powerOn_out] at fromPowerOn
  | reserved00 c | reserved07 c | reserved08 c | reserved0C c | reserved0E c | reserved10 c | reserved20 c
  | reserved40 c | reserved80 c => cases h; exact illegalCommand_respondsOnceAndLast c s
  | _ => cases hcommand

/-- Settles O8: no rule emits a response, and the pipeline ends every command with one. -/
theorem everyCommandRespondsOnceAndLast : Obligations.EveryCommandRespondsOnceAndLast :=
  fun _ _ _ hcommand h => exec_respondsOnceAndLast hcommand h

/-! ## A step -/

/-- What the port offers when its oldest command decodes (R80, R90). -/
theorem fetch_of_decode {s : State} {c : Bytes} {rest : List Bytes} {i : Instr} (hport : s.port = c :: rest)
    (hdecode : decode s.arq c = .ok i) : fetch s = .command i { s with port := rest } := by
  simp only [fetch, hport, hdecode]

/-- Settles O44: the fetched command is what the step executes. -/
theorem stepRunsTheDecodedCommand : Obligations.StepRunsTheDecodedCommand := by
  intro s c rest i hport hdecode
  rw [step, fetch_of_decode hport hdecode]

end Sys2Proof.Machine
end

section
/-! PROOFS. Encoding (30_encoding.md): the command decoder and the encoder are inverse to each other (R91 to R98), and a
command is rejected exactly for its length (R91, R99). -/

namespace Sys2Proof

/-! ## Fields -/

/-- Joining bits is multiplying out the place of the upper part. -/
theorem toNat_append_eq {m n : Nat} (x : BitVec m) (y : BitVec n) : (x ++ y).toNat = x.toNat * 2 ^ n + y.toNat := by
  rw [BitVec.toNat_append, ← Nat.shiftLeft_add_eq_or_of_lt y.isLt, Nat.shiftLeft_eq]

/-- The value of two bytes read most significant first (R70). -/
theorem word16_toNat (a b : Byte) : (a ++ b : BitVec 16).toNat = a.toNat * 256 + b.toNat := toNat_append_eq a b

/-- The value of four bytes read most significant first (R70). -/
theorem word32_toNat (a b c d : Byte) :
    (a ++ b ++ c ++ d : BitVec 32).toNat = a.toNat * 2 ^ 24 + b.toNat * 2 ^ 16 + c.toNat * 2 ^ 8 + d.toNat := by
  rw [toNat_append_eq, toNat_append_eq, toNat_append_eq]
  omega

/-- A length that equals a field's value fits the field and is written back to it. -/
theorem length_of_field {w n : Nat} {v : BitVec w} (h : n = v.toNat) : n < 2 ^ w ∧ BitVec.ofNat w n = v := by
  subst h
  exact ⟨v.isLt, by simp⟩

/-! ## Reserved opcodes -/

/-- Two rows whose patterns differ where both masks look share no opcode. -/
theorem OpcodeRow.covers_eq_false {r r' : OpcodeRow} {op : Byte} (h : r.covers op = true)
    (differ : r.pattern &&& r'.mask ≠ r'.pattern &&& r.mask) : r'.covers op = false := by
  simp only [OpcodeRow.covers, beq_iff_eq, beq_eq_false_iff_ne] at h ⊢
  intro h'
  apply differ
  rw [← h, ← h', BitVec.and_assoc, BitVec.and_assoc, BitVec.and_comm r.mask]

/-- The reserved rows of the opcode table, in its order (R91). -/
def reservedRows : List OpcodeRow :=
  [⟨0xFF, 0x00⟩, ⟨0xFF, 0x07⟩, ⟨0xFC, 0x08⟩, ⟨0xFE, 0x0C⟩, ⟨0xFF, 0x0E⟩, ⟨0xF0, 0x10⟩, ⟨0xE0, 0x20⟩, ⟨0xC0, 0x40⟩,
    ⟨0x80, 0x80⟩]

/-- The reserved rows leave exactly the defined opcodes over (R91). -/
theorem decodeReserved_eq_none {c : Bytes} : decodeReserved c = none ↔ Machine.definedOpcode (opcodeOf c) = true := by
  have rows : ∀ op : Byte, Machine.definedOpcode op = !reservedRows.any (·.covers op) := by decide
  simp [rows, reservedRows, decodeReserved, ite_eq_iff, -ite_eq_right_iff]

/-- A reserved opcode is read as the row that covers it, with the whole command (R91). -/
theorem decodeReserved_eq_some {c : Bytes} {i : Instr} :
    decodeReserved c = some i ↔ i.reservedBytes = some c ∧ i.wf = true := by
  constructor
  · intro h
    unfold decodeReserved at h
    dsimp only at h
    split_ifs at h with h1 h2 h3 h4 h5 h6 h7 h8 h9 <;> cases h <;> exact ⟨rfl, by assumption⟩
  · rintro ⟨hbytes, hwf⟩
    cases i with
    | reserved00 | reserved07 | reserved08 | reserved0C | reserved0E | reserved10 | reserved20 | reserved40 | reserved80 =>
      cases hbytes
      have alone := fun r' => OpcodeRow.covers_eq_false (r' := r') hwf
      simpa [decodeReserved, alone, Instr.wf] using hwf
    | _ => cases hbytes

/-! ## Operands -/

@[simp] theorem decode_enq (arq : Bool) (args : Bytes) : decode arq (0x01 :: args) = decodeEnq args := by
  rw [decode, decodeReserved_eq_none.2 rfl]; rfl
@[simp] theorem decode_txopp (arq : Bool) (args : Bytes) : decode arq (0x02 :: args) = decodeTxopp arq args := by
  rw [decode, decodeReserved_eq_none.2 rfl]; rfl
@[simp] theorem decode_rxfrm (arq : Bool) (args : Bytes) : decode arq (0x03 :: args) = decodeRxfrm arq args := by
  rw [decode, decodeReserved_eq_none.2 rfl]; rfl
@[simp] theorem decode_rxack (arq : Bool) (args : Bytes) : decode arq (0x04 :: args) = decodeRxack args := by
  rw [decode, decodeReserved_eq_none.2 rfl]; rfl
@[simp] theorem decode_tick (arq : Bool) (args : Bytes) : decode arq (0x05 :: args) = decodeTick args := by
  rw [decode, decodeReserved_eq_none.2 rfl]; rfl
@[simp] theorem decode_rdreg (arq : Bool) (args : Bytes) : decode arq (0x06 :: args) = decodeRdreg args := by
  rw [decode, decodeReserved_eq_none.2 rfl]; rfl
@[simp] theorem decode_reset (arq : Bool) (args : Bytes) : decode arq (0x0F :: args) = decodeReset args := by
  rw [decode, decodeReserved_eq_none.2 rfl]; rfl

/-- A reserved command, whatever follows its opcode, is read as its row (R91, R99). -/
theorem decode_of_reservedBytes {arq : Bool} {c : Bytes} {i : Instr} (hbytes : i.reservedBytes = some c)
    (hwf : i.wf = true) : decode arq c = .ok i := by
  rw [decode, decodeReserved_eq_some.2 ⟨hbytes, hwf⟩]

/-- Every byte string given to the port is one of a reserved row, or a defined opcode and its operands (R90, R91). -/
theorem command_cases (c : Bytes) :
    (∃ i : Instr, i.reservedBytes = some c ∧ i.wf = true) ∨
    ∃ op ∈ ([0x01, 0x02, 0x03, 0x04, 0x05, 0x06, 0x0F] : List Byte), ∃ args, c = op :: args := by
  cases h : decodeReserved c with
  | some i => exact .inl ⟨i, decodeReserved_eq_some.1 h⟩
  | none =>
    rw [decodeReserved_eq_none] at h
    cases c with
    | nil => cases h
    | cons op args =>
      refine .inr ⟨op, ?_, args, rfl⟩
      simpa [Machine.definedOpcode, opcodeOf, or_assoc] using h

/-! ## What decodes is the encoding -/

/-- The instruction is a command of the variant's row, and its bytes are `c`. -/
def IsCommandOf (arq : Bool) (c : Bytes) (i : Instr) : Prop :=
  encode i = c ∧ i.wf = true ∧ i.isCommand = true ∧ i.fitsVariant arq = true

theorem isCommandOf_of_reservedBytes {arq : Bool} {c : Bytes} {i : Instr} (hbytes : i.reservedBytes = some c)
    (hwf : i.wf = true) : IsCommandOf arq c i := by
  cases i with
  | reserved00 | reserved07 | reserved08 | reserved0C | reserved0E | reserved10 | reserved20 | reserved40 | reserved80 =>
    cases hbytes
    exact ⟨rfl, hwf, rfl, rfl⟩
  | _ => cases hbytes

section

variable {arq : Bool} {args : Bytes} {i : Instr}

theorem decodeEnq_isCommandOf (h : decodeEnq args = .ok i) : IsCommandOf arq (0x01 :: args) i := by
  unfold decodeEnq at h
  split at h
  · split at h <;> cases h
    rename_i hlen
    obtain ⟨fits, field⟩ := length_of_field hlen
    exact ⟨by simp [encode, field], by simpa [Instr.wf] using fits, rfl, rfl⟩
  · cases h

theorem decodeTxopp_isCommandOf (h : decodeTxopp arq args = .ok i) : IsCommandOf arq (0x02 :: args) i := by
  unfold decodeTxopp at h
  split at h <;> cases h
  cases arq <;> exact ⟨by simp [encode], rfl, rfl, rfl⟩

theorem decodeRxfrm_isCommandOf (h : decodeRxfrm arq args = .ok i) : IsCommandOf arq (0x03 :: args) i := by
  unfold decodeRxfrm at h
  split at h
  · split at h <;> cases h
    rename_i hlen
    obtain ⟨fits, field⟩ := length_of_field hlen
    cases arq <;> exact ⟨by simp [encode, field], by simpa [Instr.wf] using fits, rfl, rfl⟩
  · cases h

theorem decodeRxack_isCommandOf (h : decodeRxack args = .ok i) : IsCommandOf arq (0x04 :: args) i := by
  unfold decodeRxack at h
  split at h <;> cases h
  exact ⟨rfl, rfl, rfl, rfl⟩

theorem decodeTick_isCommandOf (h : decodeTick args = .ok i) : IsCommandOf arq (0x05 :: args) i := by
  unfold decodeTick at h
  split at h <;> cases h
  exact ⟨by simp [encode], rfl, rfl, rfl⟩

theorem decodeRdreg_isCommandOf (h : decodeRdreg args = .ok i) : IsCommandOf arq (0x06 :: args) i := by
  unfold decodeRdreg at h
  split at h <;> cases h
  exact ⟨rfl, rfl, rfl, rfl⟩

theorem decodeReset_isCommandOf (h : decodeReset args = .ok i) : IsCommandOf arq (0x0F :: args) i := by
  unfold decodeReset at h
  split at h <;> cases h
  exact ⟨by simp [encode, encodeCfg], rfl, rfl, rfl⟩

theorem decode_isCommandOf {c : Bytes} (h : decode arq c = .ok i) : IsCommandOf arq c i := by
  rcases command_cases c with ⟨j, hbytes, hwf⟩ | ⟨op, hop, args, rfl⟩
  · rw [decode_of_reservedBytes hbytes hwf] at h
    cases h
    exact isCommandOf_of_reservedBytes hbytes hwf
  · fin_cases hop
    · exact decodeEnq_isCommandOf (decode_enq arq args ▸ h)
    · exact decodeTxopp_isCommandOf (decode_txopp arq args ▸ h)
    · exact decodeRxfrm_isCommandOf (decode_rxfrm arq args ▸ h)
    · exact decodeRxack_isCommandOf (decode_rxack arq args ▸ h)
    · exact decodeTick_isCommandOf (decode_tick arq args ▸ h)
    · exact decodeRdreg_isCommandOf (decode_rdreg arq args ▸ h)
    · exact decodeReset_isCommandOf (decode_reset arq args ▸ h)

/-! ## The encoding decodes -/

theorem decodeEnq_encoded (dest : BitVec 32) {data : Bytes} (h : data.length < 2 ^ 16) :
    decodeEnq (be4 dest ++ be2 (BitVec.ofNat 16 data.length) ++ data) = .ok (.enq dest data) := by
  simp only [be4, be2, List.cons_append, List.nil_append, decodeEnq, be2_join, be4_join, length_field h, if_true]

theorem decodeTxopp_encoded (budget : BitVec 32) :
    decodeTxopp arq (be4 budget) = .ok (if arq then .txoppArq budget else .txopp budget) := by
  simp only [be4, decodeTxopp, be4_join]

theorem decodeRxfrm_encoded {frame : Bytes} (h : frame.length < 2 ^ 32) :
    decodeRxfrm arq (be4 (BitVec.ofNat 32 frame.length) ++ frame) = .ok (if arq then .rxfrmArq frame else .rxfrm frame) := by
  simp only [be4, List.cons_append, List.nil_append, decodeRxfrm, be4_join, length_field h, if_true]

theorem decodeTick_encoded (n : BitVec 32) : decodeTick (be4 n) = .ok (.tick n) := by
  simp only [be4, decodeTick, be4_join]

theorem decodeReset_encoded (cfg : CfgBlock) : decodeReset (encodeCfg cfg) = .ok (.reset cfg) := by
  simp only [encodeCfg, be4, be2, List.cons_append, List.nil_append, decodeReset, be2_join, be4_join]

/-- The decoder reads exactly the commands of the variant's row, each from its own bytes. -/
theorem decode_eq_ok {c : Bytes} : decode arq c = .ok i ↔ IsCommandOf arq c i := by
  refine ⟨decode_isCommandOf, ?_⟩
  rintro ⟨rfl, hwf, hcommand, hrow⟩
  cases i with
  | enq dest data => exact (decode_enq arq _).trans (decodeEnq_encoded dest (by simpa [Instr.wf] using hwf))
  | txopp b | txoppArq b =>
    cases arq <;> cases hrow
    exact (decode_txopp _ _).trans (decodeTxopp_encoded b)
  | rxfrm f | rxfrmArq f =>
    cases arq <;> cases hrow
    exact (decode_rxfrm _ _).trans (decodeRxfrm_encoded (by simpa [Instr.wf] using hwf))
  | rxack q flow => exact decode_rxack arq _
  | tick n => exact (decode_tick arq _).trans (decodeTick_encoded n)
  | rdreg idx => exact decode_rdreg arq _
  | reset cfg => exact (decode_reset arq _).trans (decodeReset_encoded cfg)
  | reserved00 | reserved07 | reserved08 | reserved0C | reserved0E | reserved10 | reserved20 | reserved40 | reserved80 =>
    exact decode_of_reservedBytes rfl hwf
  | _ => cases hcommand

/-! ## The length of a command -/

/-- A command's bytes are as many as R91 reads from them. -/
theorem commandLength_encode (hcommand : i.isCommand = true) (hwf : i.wf = true) :
    commandLength (encode i) = (encode i).length := by
  have sized : Laws.EncodedLength.Statement i := by
    cases i with
    | enq dest data => exact Laws.EncodedLength.enq dest data
    | txopp b => exact Laws.EncodedLength.txopp b
    | txoppArq b => exact Laws.EncodedLength.txoppArq b
    | rxfrm f => exact Laws.EncodedLength.rxfrm f
    | rxfrmArq f => exact Laws.EncodedLength.rxfrmArq f
    | rxack q flow => exact Laws.EncodedLength.rxack q flow
    | tick n => exact Laws.EncodedLength.tick n
    | rdreg idx => exact Laws.EncodedLength.rdreg idx
    | reset cfg => exact Laws.EncodedLength.reset cfg
    | reserved00 c => exact Laws.EncodedLength.reserved00 c
    | reserved07 c => exact Laws.EncodedLength.reserved07 c
    | reserved08 c => exact Laws.EncodedLength.reserved08 c
    | reserved0C c => exact Laws.EncodedLength.reserved0C c
    | reserved0E c => exact Laws.EncodedLength.reserved0E c
    | reserved10 c => exact Laws.EncodedLength.reserved10 c
    | reserved20 c => exact Laws.EncodedLength.reserved20 c
    | reserved40 c => exact Laws.EncodedLength.reserved40 c
    | reserved80 c => exact Laws.EncodedLength.reserved80 c
    | _ => cases hcommand
  obtain ⟨hlength, hcount⟩ := sized
  rw [hcount hcommand hwf, hlength]

theorem commandLength_enq (args : Bytes) :
    commandLength (0x01 :: args) = 7 + (args.getD 4 0 ++ args.getD 5 0 : BitVec 16).toNat := rfl
theorem commandLength_rxfrm (args : Bytes) :
    commandLength (0x03 :: args) =
      5 + (args.getD 0 0 ++ args.getD 1 0 ++ args.getD 2 0 ++ args.getD 3 0 : BitVec 32).toNat := rfl

theorem decodeEnq_of_length (h : (0x01 :: args).length = commandLength (0x01 :: args)) : ∃ i, decodeEnq args = .ok i := by
  rw [commandLength_enq, List.length_cons] at h
  match args, h with
  | d0 :: d1 :: d2 :: d3 :: l0 :: l1 :: data, h =>
    refine ⟨.enq (d0 ++ d1 ++ d2 ++ d3) data, if_pos ?_⟩
    change data.length + 1 + 1 + 1 + 1 + 1 + 1 + 1 = 7 + (l0 ++ l1 : BitVec 16).toNat at h
    omega
  | [], h | [_], h | [_, _], h | [_, _, _], h | [_, _, _, _], h | [_, _, _, _, _], h =>
    simp only [List.length_cons, List.length_nil] at h
    omega

theorem decodeRxfrm_of_length (h : (0x03 :: args).length = commandLength (0x03 :: args)) :
    ∃ i, decodeRxfrm arq args = .ok i := by
  rw [commandLength_rxfrm, List.length_cons] at h
  match args, h with
  | l0 :: l1 :: l2 :: l3 :: frame, h =>
    refine ⟨if arq then .rxfrmArq frame else .rxfrm frame, if_pos ?_⟩
    change frame.length + 1 + 1 + 1 + 1 + 1 = 5 + (l0 ++ l1 ++ l2 ++ l3 : BitVec 32).toNat at h
    omega
  | [], h | [_], h | [_, _], h | [_, _, _], h =>
    simp only [List.length_cons, List.length_nil] at h
    omega

/-- The length R91 gives is all that a command needs to be read, and only commands of that length are (R99). -/
theorem exists_decode_eq_ok {c : Bytes} : (∃ i, decode arq c = .ok i) ↔ c.length = commandLength c := by
  constructor
  · rintro ⟨i, h⟩
    obtain ⟨rfl, hwf, hcommand, -⟩ := decode_isCommandOf h
    exact (commandLength_encode hcommand hwf).symm
  · intro h
    rcases command_cases c with ⟨j, hbytes, hwf⟩ | ⟨op, hop, args, rfl⟩
    · exact ⟨j, decode_of_reservedBytes hbytes hwf⟩
    · fin_cases hop <;>
        simp only [decode_enq, decode_txopp, decode_rxfrm, decode_rxack, decode_tick, decode_rdreg, decode_reset]
      · exact decodeEnq_of_length h
      · match args, h with | [_, _, _, _], _ => exact ⟨_, rfl⟩
      · exact decodeRxfrm_of_length h
      · match args, h with | [_, _], _ => exact ⟨_, rfl⟩
      · match args, h with | [_, _, _, _], _ => exact ⟨_, rfl⟩
      · match args, h with | [_], _ => exact ⟨_, rfl⟩
      · match args, h with
        | [_, _, _, _, _, _, _, _, _, _, _, _, _, _, _, _, _, _, _, _, _, _], _ => exact ⟨_, rfl⟩

theorem exists_decode_eq_error {c : Bytes} : (∃ e, decode arq c = .error e) ↔ c.length ≠ commandLength c := by
  rw [← not_iff_not, not_not, ← exists_decode_eq_ok (arq := arq)]
  cases decode arq c <;> simp

end

/-! ## The obligations -/

/-- Settles O54: the decoder reads exactly the encodings of the variant's commands, so in particular those. -/
theorem commandsDecodeToThemselves : Obligations.CommandsDecodeToThemselves :=
  fun _ _ hcommand hwf hrow => decode_eq_ok.2 ⟨rfl, hwf, hcommand, hrow⟩

/-- Settles O57: R91's length of each defined opcode, written out with the length operands as numbers. -/
theorem commandsAreRejectedExactlyForLength : Obligations.CommandsAreRejectedExactlyForLength := by
  intro arq c
  rw [exists_decode_eq_error, commandLength, opcodeOf]
  simp only [word16_toNat, word32_toNat]
  generalize c.headD 0 = op
  split_ifs with h1 h2 h3 h4 h5 h6 hF
  case pos => subst h1; simp; omega
  case pos => subst h2; simp
  case pos => subst h3; simp; omega
  case pos => subst h4; simp
  case pos => subst h5; simp
  case pos => subst h6; simp
  case pos => subst hF; simp
  case neg => simp_all

end Sys2Proof
end

section
/-! PROOFS. Codec (40_codec.md): what a wire decoder reads is the encoding of the unit it reads (R144, R154, R166). -/

namespace Sys2Proof

/-! ## Header fields -/

/-- A payload as long as its LEN field says fits the field, which is its length. -/
theorem payload_of_field {w : Nat} {v : BitVec w} {p : Bytes} (h : ¬(v.toNat = 0 ∨ v.toNat ≠ p.length)) :
    payloadFits w p = true ∧ BitVec.ofNat w p.length = v := by
  obtain ⟨fits, field⟩ := length_of_field (n := p.length) (v := v) (by omega)
  have pos : 1 ≤ p.length := by omega
  simp [payloadFits, pos, fits, field]

/-- The two-byte header of an RLE fragment is its indicators, LEN and last three bits (R141). -/
theorem be2_rleHeader {h : BitVec 16} {p : Bytes} {s e : Bool} (hs : h.getLsbD 15 = s) (he : h.getLsbD 14 = e)
    (hlen : BitVec.ofNat 11 p.length = h.extractLsb' 3 11) :
    be2 (BitVec.ofBool s ++ BitVec.ofBool e ++ BitVec.ofNat 11 p.length ++ h.extractLsb' 0 3) = be2 h := by
  rw [hlen, ← hs, ← he]
  congr 1
  grind

/-- The four-byte header of an RLE START is its indicators, LEN, id, total and reserved bits (R142). -/
theorem be4_rleHeader {h0 h1 h2 h3 : Byte} {p : Bytes} {s e : Bool} (hs : (h0 ++ h1 : BitVec 16).getLsbD 15 = s)
    (he : (h0 ++ h1 : BitVec 16).getLsbD 14 = e) :
    let h : BitVec 32 := h0 ++ h1 ++ h2 ++ h3
    BitVec.ofNat 11 p.length = h.extractLsb' 19 11 →
    be4 (BitVec.ofBool s ++ BitVec.ofBool e ++ BitVec.ofNat 11 p.length ++ h.extractLsb' 16 3 ++ h.extractLsb' 4 12 ++
      h.extractLsb' 0 4) = be4 h := by
  intro h hlen
  rw [hlen, ← hs, ← he]
  congr 1
  grind

/-- The first word of a GSE fragment is its indicators, label type and LEN (R151). -/
theorem be2_gseWord {w : BitVec 16} {p : Bytes} {s e : Bool} (hs : w.getLsbD 15 = s) (he : w.getLsbD 14 = e)
    (hlen : BitVec.ofNat 12 p.length = w.extractLsb' 0 12) :
    be2 (BitVec.ofBool s ++ BitVec.ofBool e ++ w.extractLsb' 12 2 ++ BitVec.ofNat 12 p.length) = be2 w := by
  rw [hlen, ← hs, ← he]
  congr 1
  grind

/-! ## Fragments -/

/-- The instruction is a unit of the kind, and its bytes are `b`. -/
def IsUnitOf (u : WireUnit) (b : Bytes) (i : Instr) : Prop :=
  encode i = b ∧ i.wf = true ∧ i.wireUnit = some u

theorem decodeRle_isUnitOf {b : Bytes} {i : Instr} (h : decodeRle b = .ok i) : IsUnitOf .rleFragment b i := by
  unfold decodeRle at h
  split at h
  next h0 h1 rest =>
    dsimp only at h
    split at h
    next hs he =>
      split_ifs at h with hlen
      cases h
      obtain ⟨fits, field⟩ := payload_of_field hlen
      have header := be4_rleHeader hs he field
      rw [be4_split] at header
      exact ⟨congrArg (· ++ _) header, fits, rfl⟩
    next => cases h
    next notStart _ =>
      split_ifs at h with hlen
      cases h
      obtain ⟨fits, field⟩ := payload_of_field hlen
      have header := fun s e hs he => be2_rleHeader (s := s) (e := e) hs he field
      rw [be2_split] at header
      split
      next hs =>
        have he : (h0 ++ h1 : BitVec 16).getLsbD 14 = true := by simpa using notStart hs
        exact ⟨congrArg (· ++ _) (header true true hs he), fits, rfl⟩
      next hs he => exact ⟨congrArg (· ++ _) (header false false hs he), fits, rfl⟩
      next hs he => exact ⟨congrArg (· ++ _) (header false true hs he), fits, rfl⟩
  next => cases h

/-- A payload and the four bytes of its trailer are what LEN cut apart (R152). -/
theorem payload_of_trailer {v : BitVec 12} {body : Bytes} {c0 c1 c2 c3 : Byte} (hpos : v.toNat ≠ 0)
    (hcut : body.drop v.toNat = [c0, c1, c2, c3]) :
    payloadFits 12 (body.take v.toNat) = true ∧ BitVec.ofNat 12 (body.take v.toNat).length = v ∧
      body.take v.toNat ++ be4 (c0 ++ c1 ++ c2 ++ c3) = body := by
  obtain ⟨fits, field⟩ := payload_of_field (p := body.take v.toNat) (v := v)
    (by rw [Machine.length_take_of_drop hcut]; omega)
  exact ⟨fits, field, by rw [be4_split, ← hcut, List.take_append_drop]⟩

theorem decodeGse_isUnitOf {b : Bytes} {i : Instr} (h : decodeGse b = .ok i) : IsUnitOf .gseFragment b i := by
  unfold decodeGse at h
  split at h
  next h0 h1 rest =>
    dsimp only at h
    split at h <;> rename_i hs he
    case h_1 | h_4 =>
      split at h
      · split_ifs at h with _ hpos
        · split at h <;> cases h
        · split at h <;> cases h
          rename_i hcut
          obtain ⟨fits, field, whole⟩ := payload_of_trailer hpos hcut
          have word := be2_gseWord hs he field
          rw [be2_split] at word
          refine ⟨?_, fits, rfl⟩
          simp only [encode, List.append_assoc, whole, be2_split, be3_split]
          exact congrArg (· ++ _) word
      · cases h
    case h_2 | h_3 =>
      split at h
      · split_ifs at h with hlen
        cases h
        obtain ⟨fits, field⟩ := payload_of_field hlen
        have word := be2_gseWord hs he field
        rw [be2_split] at word
        refine ⟨?_, fits, rfl⟩
        simp only [encode, List.append_assoc, be2_split, be3_split]
        exact congrArg (· ++ _) word
      · cases h
  next => cases h

/-! ## Frames -/

/-- The length entries that were read are as many as the count, each of four bytes, and the rest follows them (R166). -/
theorem readLengths_eq_some {n : Nat} {b body : Bytes} {ls : List Nat} (h : readLengths n b = some (ls, body)) :
    ls.length = n ∧ (∀ l ∈ ls, l < 2 ^ 32) ∧ ls.flatMap (fun l => be4 (BitVec.ofNat 32 l)) ++ body = b := by
  induction n generalizing b ls with
  | zero => cases h; simp
  | succ n ih =>
    simp only [readLengths] at h
    split at h
    · split at h
      next l0 l1 l2 l3 rest _ ls' body' hrest =>
        cases h
        obtain ⟨count, small, entries⟩ := ih hrest
        refine ⟨by simp [count], List.forall_mem_cons.2 ⟨BitVec.isLt _, small⟩, ?_⟩
        simp [entries]
      next => cases h
    · cases h

/-- Cutting a byte string into pieces whose lengths make up its own gives pieces of those lengths and loses no byte. -/
theorem splitLengths_of_sum {ls : List Nat} {b : Bytes} (h : ls.sum = b.length) :
    (splitLengths ls b).map List.length = ls ∧ (splitLengths ls b).flatten = b := by
  induction ls generalizing b with
  | nil => exact ⟨rfl, (List.length_eq_zero_iff.1 h.symm).symm⟩
  | cons l ls ih =>
    rw [List.sum_cons] at h
    obtain ⟨lengths, whole⟩ := ih (b := b.drop l) (by rw [List.length_drop]; omega)
    simp only [splitLengths, List.map_cons, List.flatten_cons, lengths, whole, List.length_take, List.take_append_drop]
    exact ⟨by rw [Nat.min_eq_left (by omega)], trivial⟩

theorem fragsFit_iff {fs : List Bytes} :
    fragsFit fs = true ↔ 1 ≤ fs.length ∧ fs.length ≤ 255 ∧ ∀ f ∈ fs, 1 ≤ f.length ∧ f.length < 2 ^ 32 := by
  simp only [fragsFit, Bool.and_eq_true, decide_eq_true_eq, List.all_eq_true, and_assoc]
  rfl

/-- The frame pack header depends on the fragments' lengths only (R165). -/
theorem encodeFph_eq (fs : List Bytes) :
    encodeFph fs =
      BitVec.ofNat 8 fs.length :: (fs.map List.length).flatMap (fun l => be4 (BitVec.ofNat 32 l)) := by
  rw [encodeFph, List.flatMap_map]

theorem decodeFrame_isUnitOf {b : Bytes} {i : Instr} (h : decodeFrame b = .ok i) : IsUnitOf .frame b i := by
  unfold decodeFrame at h
  split at h
  · cases h
  · split at h
    · cases h
    · split at h
      · cases h
      · rename_i n rest hcount _ ls body hread
        split_ifs at h with hzero hsum
        cases h
        obtain ⟨count, small, entries⟩ := readLengths_eq_some hread
        obtain ⟨lengths, whole⟩ := splitLengths_of_sum (not_not.1 hsum)
        have size : (splitLengths ls body).length = n.toNat := by
          rw [← count, ← congrArg List.length lengths, List.length_map]
        refine ⟨?_, fragsFit_iff.2 ⟨?_, ?_, fun f hf => ?_⟩, rfl⟩
        · rw [encode, encodeFph_eq, lengths, size, whole, List.cons_append, entries]
          simp
        · have : n.toNat ≠ 0 := fun z => hcount (BitVec.eq_of_toNat_eq z)
          omega
        · omega
        · have entry : f.length ∈ ls := by rw [← lengths]; exact List.mem_map_of_mem hf
          have pos : f.length ≠ 0 := fun z => hzero (List.any_eq_true.2 ⟨_, entry, by simp [z]⟩)
          exact ⟨by omega, small _ entry⟩

theorem decodeUnit_isUnitOf {u : WireUnit} {b : Bytes} {i : Instr} (h : decodeUnit u b = .ok i) : IsUnitOf u b i := by
  cases u with
  | rleFragment => exact decodeRle_isUnitOf h
  | gseFragment => exact decodeGse_isUnitOf h
  | frame => exact decodeFrame_isUnitOf h
  | pdu =>
    cases b <;> cases h
    exact ⟨rfl, rfl, rfl⟩
  | ack =>
    change decodeAck b = _ at h
    unfold decodeAck at h
    split at h <;> cases h
    exact ⟨rfl, rfl, rfl⟩

/-- Settles O56: the command decoder reads exactly the encodings of the variant's commands, and each wire decoder puts back
together the header fields and bytes it took apart. -/
theorem decodedBytesAreTheEncoding : Obligations.DecodedBytesAreTheEncoding :=
  ⟨fun _ _ _ h => decode_isCommandOf h, fun _ _ _ h => decodeUnit_isUnitOf h⟩

end Sys2Proof
end

section
/-! PROOFS. Encoding (30_encoding.md): the rows that share an opcode (R91), a command of a wrong length (R99), and the wire
units (R100, R101). -/

namespace Sys2Proof.Machine

/-! ## Rows and words -/

/-- Settles O14: both rows of an opcode run the one rule that the variant selects. -/
theorem bothRowsOfOneOpcodeAgree : Obligations.BothRowsOfOneOpcodeAgree :=
  fun _ _ _ => ⟨rfl, rfl⟩

/-- Settles O59 by evaluating the decoders. -/
theorem sampleWordsDecode : Obligations.SampleWordsDecode :=
  ⟨rfl, rfl, rfl, rfl, rfl, rfl⟩

/-! ## A command of a wrong length -/

/-- ERR_INFO of ILLEGAL_CMD as a number (R401). -/
theorem illegalInfo_toNat (c : Bytes) :
    (illegalInfo c).toNat = min c.length (2 ^ 32 - 1) * 2 ^ 32 + (definedOpcode (opcodeOf c)).toNat * 0x100 +
      (opcodeOf c).toNat := by
  simp only [illegalInfo]
  rw [toNat_append_eq, toNat_append_eq, toNat_append_eq, length_field (by omega), BitVec.toNat_ofBool]
  simp
  omega

/-- What the port offers when the decoder rejects its oldest command (R99). -/
theorem fetch_of_decode_error {s : State} {c : Bytes} {rest : List Bytes} {e : DecodeError} (hport : s.port = c :: rest)
    (hdecode : decode s.arq c = .error e) : fetch s = .illegal c { s with port := rest } := by
  simp only [fetch, hport, hdecode]

theorem step_of_wrong_length {s : State} {c : Bytes} {rest : List Bytes} (hport : s.port = c :: rest)
    (hlength : c.length ≠ commandLength c) : step s = .next (illegalCommand c { s with port := rest }) := by
  obtain ⟨e, hdecode⟩ := exists_decode_eq_error.2 hlength
  rw [step, fetch_of_decode_error hport hdecode]
  rfl

/-- Settles O5: the decoder rejects the command, and the step runs it as an illegal one (R385). -/
theorem wrongLengthIsIllegal : Obligations.WrongLengthIsIllegal := by
  intro s c rest hport hdefined hlength
  rw [step_of_wrong_length hport hlength]
  rcases illegalCommand_cases c { s with port := rest } with ⟨hfatal, e⟩ | ⟨hfatal, e⟩ <;> rw [e]
  · exact ⟨fun _ => rfl, fun running => absurd (hfatal.symm.trans running) (by decide)⟩
  · refine ⟨fun fatal => absurd (hfatal.symm.trans fatal) (by decide), fun _ => ⟨illegalInfo c, ?_, rfl⟩⟩
    have bit8 : definedOpcode (opcodeOf c) = true := by
      simpa [definedOpcode, opcodeOf, or_assoc] using hdefined
    rw [illegalInfo_toNat, bit8]
    rfl

/-! ## Wire units -/

theorem fragmentRule_emitsNoResp (b : Bytes) (s : State) : (fragmentRule b s).Ends (EmitsNoResp s) := by
  rcases fragmentRule_cases b s with ⟨-, e⟩ | ⟨r, -, e⟩ <;> rw [e]
  · exact EmitsNoResp.of_out_eq rfl
  · exact EmitsNoResp.of_packets (s.reassembleAll_out [r])

/-- A wire unit is one of the receiving rules run as a unit, and none of them responds (log entry 5). -/
theorem exec_unit {i : Instr} (hunit : i.isCommand = false) (s : State) :
    ∃ rule, exec i s = .next (runUnit rule s) ∧ (rule s).Ends (EmitsNoResp s) := by
  by_cases hack : ∃ q flow, i = .ackMsg q flow
  · obtain ⟨q, flow, rfl⟩ := hack
    exact ⟨rxackRule q flow, rfl, rxackRule_emitsNoResp q flow s⟩
  · rcases exec_receivedUnit hunit (fun q flow e => hack ⟨q, flow, e⟩) s with e | e
    · exact ⟨_, e, fragmentRule_emitsNoResp _ s⟩
    · exact ⟨_, e, rxfrmRule_emitsNoResp _ s⟩

theorem runUnit_of_not_running {s : State} (h : s.fatal = true ∨ s.configured = false) (rule : State → Effect) :
    runUnit rule s = s := by
  rcases h with h | h <;> simp [runUnit, State.running, h]

theorem runUnit_emitsNoResp {rule : State → Effect} {s : State} (h : (rule s).Ends (EmitsNoResp s)) :
    EmitsNoResp s (runUnit rule s) := by
  rcases runUnit_cases rule s with ⟨-, e⟩ | ⟨-, e⟩ <;> rw [e]
  · exact .of_out_eq rfl
  · cases hr : rule s with
    | done t v => rwa [hr] at h
    | fatal c info => exact .of_out_eq (State.enterFatal_out c info s)

/-- Settles O9: a unit runs a rule that emits no response where the block is CONFIGURED, and nothing elsewhere. -/
theorem wireUnitsActOnlyInConfiguredAndNeverRespond : Obligations.WireUnitsActOnlyInConfiguredAndNeverRespond := by
  intro i s hunit
  obtain ⟨rule, e, noResp⟩ := exec_unit hunit s
  obtain ⟨recs, hout, hrecs⟩ := runUnit_emitsNoResp noResp
  exact ⟨fun h => by rw [e, runUnit_of_not_running h], _, recs, e, hout, hrecs⟩

theorem runUnit_of_running {s : State} (hconf : s.configured = true) (hfatal : s.fatal = false) (rule : State → Effect) :
    runUnit rule s = finishUnit s (rule s) :=
  if_pos (State.running_iff.2 ⟨hconf, hfatal⟩)

/-- In CONFIGURED a command ends as a unit with the same rule does, and responds (R82, R410). -/
theorem runCommand_eq_respond {s : State} (hconf : s.configured = true) (hfatal : s.fatal = false)
    (rule : State → Effect) :
    ∃ code value, runCommand rule s = (runUnit rule s).respond code value := by
  have ran : runCommand rule s = finish s (rule s) := by simp [runCommand, hconf, hfatal]
  rw [ran, runUnit_of_running hconf hfatal]
  cases rule s with
  | done t v => exact ⟨.ok, v, rfl⟩
  | fatal c info => exact ⟨c, info, rfl⟩

theorem exec_frame_or_pdu {i : Instr} (h : i.wireUnit = some .frame ∨ i.wireUnit = some .pdu) (s : State) :
    exec i s = .next (runUnit (rxfrmRule (encode i)) s) := by
  cases i with
  | fph | arqSeq => rfl
  | _ => rcases h with h | h <;> cases h

theorem exec_fragment {i : Instr} (h : i.wireUnit = some .rleFragment ∨ i.wireUnit = some .gseFragment) (s : State) :
    exec i s = .next (runUnit (fragmentRule (encode i)) s) := by
  cases i with
  | rleFull | rleStart | rleCont | rleEnd | gseFull | gseStart | gseCont | gseEnd => rfl
  | _ => rcases h with h | h <;> cases h

/-- Settles O10: the unit and the RXFRM of its bytes run one rule, and a fragment runs the fragment rule of the family. -/
theorem wireUnitsAreProcessedAsTheirBytes : Obligations.WireUnitsAreProcessedAsTheirBytes := by
  intro i s hconf hfatal
  refine ⟨fun hunit => ?_, fun hunit => ?_⟩
  · obtain ⟨code, value, e⟩ := runCommand_eq_respond hconf hfatal (rxfrmRule (encode i))
    exact ⟨_, code, value, exec_frame_or_pdu hunit s, congrArg Host.Outcome.next e⟩
  · rw [exec_fragment hunit, runUnit_of_running hconf hfatal]
    rcases fragmentRule_cases (encode i) s with ⟨hd, e⟩ | ⟨r, hd, e⟩ <;> rw [hd, e] <;> rfl

end Sys2Proof.Machine
end

section
/-! PROOFS. Codec (40_codec.md): the wire decoders read back what the encoder writes, field by field (R141, R142, R151, R152,
R165, R170, R175). -/

namespace Sys2Proof

/-! ## Fragments read back -/

/-- A LEN field that counts a payload which fits it holds the payload's length, which is not 0. -/
theorem lenField_toNat {w : Nat} {p : Bytes} (h : payloadFits w p = true) :
    (BitVec.ofNat w p.length).toNat = p.length ∧ p.length ≠ 0 := by
  obtain ⟨pos, fits⟩ : 1 ≤ p.length ∧ p.length < 2 ^ w := by simpa [payloadFits] using h
  exact ⟨length_field fits, by omega⟩

/-- A four-byte header shows its indicators in its first two bytes (R142). -/
theorem indicators_of_be4 (v : BitVec 32) :
    (v.extractLsb' 24 8 ++ v.extractLsb' 16 8 : BitVec 16).getLsbD 15 = v.getLsbD 31 ∧
      (v.extractLsb' 24 8 ++ v.extractLsb' 16 8 : BitVec 16).getLsbD 14 = v.getLsbD 30 := by
  constructor <;> grind

/-- A four-byte header with the indicators of START and its payload's LEN is read field by field (R142, R144). -/
theorem decodeRle_be4 {v : BitVec 32} {p : Bytes} (fits : payloadFits 11 p = true) (hs : v.getLsbD 31 = true)
    (he : v.getLsbD 30 = false) (hlen : v.extractLsb' 19 11 = BitVec.ofNat 11 p.length) :
    decodeRle (be4 v ++ p) = .ok (.rleStart (v.extractLsb' 16 3) (v.extractLsb' 4 12) (v.extractLsb' 0 4) p) := by
  obtain ⟨hs', he'⟩ := indicators_of_be4 v
  rw [hs] at hs'
  rw [he] at he'
  obtain ⟨len, pos⟩ := lenField_toNat fits
  simp only [be4, List.cons_append, List.nil_append, decodeRle, hs', he', be4_join, hlen, len, pos]
  simp

/-- A two-byte header with its payload's LEN is read as the fragment that its indicators name (R141, R144). -/
theorem decodeRle_be2 {v : BitVec 16} {p : Bytes} {s e : Bool} (fits : payloadFits 11 p = true) (hs : v.getLsbD 15 = s)
    (he : v.getLsbD 14 = e) (hlen : v.extractLsb' 3 11 = BitVec.ofNat 11 p.length) (notStart : s = true → e = true) :
    decodeRle (be2 v ++ p) =
      .ok (if s then .rleFull (v.extractLsb' 0 3) p
        else if e then .rleEnd (v.extractLsb' 0 3) p
        else .rleCont (v.extractLsb' 0 3) p) := by
  obtain ⟨len, pos⟩ := lenField_toNat fits
  cases s <;> cases e
  case true.false => cases notStart rfl
  all_goals
    simp only [be2, List.cons_append, List.nil_append, decodeRle, be2_join, hs, he, hlen, len, pos]
    simp

theorem decodeRle_encode {i : Instr} (hunit : i.wireUnit = some .rleFragment) (hwf : i.wf = true) :
    decodeRle (encode i) = .ok i := by
  cases i with
  | rleFull rsv p =>
    obtain ⟨hs, he, hlen, hrsv⟩ := rleShort_fields 1#1 1#1 (BitVec.ofNat 11 p.length) rsv
    exact (decodeRle_be2 hwf hs he hlen fun _ => rfl).trans (by rw [hrsv]; rfl)
  | rleStart fid total rsv p =>
    obtain ⟨hs, he, hlen, hfid, htotal, hrsv⟩ := rleLong_fields 1#1 0#1 (BitVec.ofNat 11 p.length) fid total rsv
    exact (decodeRle_be4 hwf hs he hlen).trans (by rw [hfid, htotal, hrsv])
  | rleCont fid p =>
    obtain ⟨hs, he, hlen, hfid⟩ := rleShort_fields 0#1 0#1 (BitVec.ofNat 11 p.length) fid
    exact (decodeRle_be2 hwf hs he hlen nofun).trans (by rw [hfid]; rfl)
  | rleEnd fid p =>
    obtain ⟨hs, he, hlen, hfid⟩ := rleShort_fields 0#1 1#1 (BitVec.ofNat 11 p.length) fid
    exact (decodeRle_be2 hwf hs he hlen nofun).trans (by rw [hfid]; rfl)
  | _ => cases hunit

theorem decodeGse_encode {i : Instr} (hunit : i.wireUnit = some .gseFragment) (hwf : i.wf = true) :
    decodeGse (encode i) = .ok i := by
  cases i with
  | gseFull lt pt label p crc =>
    obtain ⟨hs, he, hlt, hlen⟩ := gseWord_fields 1#1 1#1 lt (BitVec.ofNat 12 p.length)
    obtain ⟨len, pos⟩ := lenField_toNat hwf
    simp only [encode, be2, be3, List.cons_append, List.nil_append, decodeGse, be2_join, be3_join, hs, he, hlt, hlen, len]
    simp [pos, be4]
  | gseStart lt fid total pt label p =>
    obtain ⟨hs, he, hlt, hlen⟩ := gseWord_fields 1#1 0#1 lt (BitVec.ofNat 12 p.length)
    obtain ⟨len, pos⟩ := lenField_toNat hwf
    simp only [encode, be2, be3, List.cons_append, List.nil_append, decodeGse, be2_join, be3_join, hs, he, hlt, hlen, len]
    simp [pos]
  | gseCont lt fid p =>
    obtain ⟨hs, he, hlt, hlen⟩ := gseWord_fields 0#1 0#1 lt (BitVec.ofNat 12 p.length)
    obtain ⟨len, pos⟩ := lenField_toNat hwf
    simp only [encode, be2, List.cons_append, List.nil_append, decodeGse, be2_join, hs, he, hlt, hlen, len]
    simp [pos]
  | gseEnd lt fid p crc =>
    obtain ⟨hs, he, hlt, hlen⟩ := gseWord_fields 0#1 1#1 lt (BitVec.ofNat 12 p.length)
    obtain ⟨len, pos⟩ := lenField_toNat hwf
    simp only [encode, be2, List.cons_append, List.nil_append, decodeGse, be2_join, hs, he, hlt, hlen, len]
    simp [pos, be4]
  | _ => cases hunit

/-! ## Frames read back -/

/-- The entries written for lengths that fit four bytes are read back (R165, R166). -/
theorem readLengths_entries {ls : List Nat} (body : Bytes) (h : ∀ l ∈ ls, l < 2 ^ 32) :
    readLengths ls.length (ls.flatMap (fun l => be4 (BitVec.ofNat 32 l)) ++ body) = some (ls, body) := by
  induction ls with
  | nil => rfl
  | cons l ls ih =>
    obtain ⟨hl, hls⟩ := List.forall_mem_cons.1 h
    simp only [be4] at ih
    simp only [List.flatMap_cons, be4, List.cons_append, List.nil_append, List.length_cons, readLengths, be4_join,
      length_field hl, ih hls]

/-- Cutting joined pieces at their lengths gives the pieces. -/
theorem splitLengths_flatten (fs : List Bytes) : splitLengths (fs.map List.length) fs.flatten = fs := by
  induction fs with
  | nil => rfl
  | cons f fs ih => simp [splitLengths, ih]

theorem decodeFrame_encode {fs : List Bytes} (h : fragsFit fs = true) :
    decodeFrame (encodeFph fs ++ fs.flatten) = .ok (.fph fs) := by
  obtain ⟨nonempty, count, lengths⟩ := fragsFit_iff.1 h
  have hcount : (BitVec.ofNat 8 fs.length).toNat = fs.length := length_field (by omega)
  have hne : BitVec.ofNat 8 fs.length ≠ 0 := fun z =>
    absurd (hcount.symm.trans (congrArg BitVec.toNat z)) (Nat.ne_of_gt nonempty)
  have hread := readLengths_entries (ls := fs.map List.length) fs.flatten
    (List.forall_mem_map.2 fun f hf => (lengths f hf).2)
  have hpos : (fs.map List.length).any (· == 0) = false := by
    simpa using fun f hf => List.ne_nil_of_length_pos (lengths f hf).1
  rw [List.length_map] at hread
  rw [encodeFph_eq, List.cons_append, decodeFrame, if_neg hne, hcount, hread]
  simp [hpos, splitLengths_flatten, List.length_flatten]

/-! ## Wire units read back -/

/-- The wire decoder reads exactly the well-formed units of its kind, each from its own bytes. -/
theorem decodeUnit_eq_ok {u : WireUnit} {b : Bytes} {i : Instr} : decodeUnit u b = .ok i ↔ IsUnitOf u b i := by
  refine ⟨decodeUnit_isUnitOf, ?_⟩
  rintro ⟨rfl, hwf, hunit⟩
  cases u with
  | rleFragment => exact decodeRle_encode hunit hwf
  | gseFragment => exact decodeGse_encode hunit hwf
  | frame =>
    cases i with
    | fph fs => exact decodeFrame_encode hwf
    | _ => cases hunit
  | pdu =>
    cases i with
    | arqSeq q frame => rfl
    | _ => cases hunit
  | ack =>
    cases i with
    | ackMsg q flow => rfl
    | _ => cases hunit

/-- Settles O55: the wire decoder reads exactly the encodings of the units of its kind, so in particular those. -/
theorem wireUnitsDecodeToThemselves : Obligations.WireUnitsDecodeToThemselves :=
  fun _ _ hunit hwf => decodeUnit_eq_ok.2 ⟨rfl, hwf, hunit⟩

end Sys2Proof
end

section
/-! PROOFS. Codec (40_codec.md): a fragment is its leading header, its payload and its trailer (R140, R150), Deserialize gives
its record and the size of that header (R144, R154, R178), and the block reassembles the record (R263). -/

namespace Sys2Proof.Machine

/-! ## The layout of a fragment -/

/-- The start indicator is set on FULL and START, the end indicator on FULL and END (R102). -/
theorem kindOf_eq_iff {b0 : Byte} {k : Kind} :
    kindOf b0 = k ↔ b0.getLsbD 7 = decide (k = .full ∨ k = .start) ∧ b0.getLsbD 6 = decide (k = .full ∨ k = .end_) := by
  unfold kindOf
  cases b0.getLsbD 7 <;> cases b0.getLsbD 6 <;> cases k <;> decide

/-- The indicators of a header's first word are its first byte's (R102). -/
theorem kindOf_word {a b : Byte} {k : Kind} (hs : (a ++ b : BitVec 16).getLsbD 15 = decide (k = .full ∨ k = .start))
    (he : (a ++ b : BitVec 16).getLsbD 14 = decide (k = .full ∨ k = .end_)) : kindOf a = k := by
  refine kindOf_eq_iff.2 ⟨?_, ?_⟩
  · rw [← hs]; grind
  · rw [← he]; grind

theorem kindOf_be2 {v : BitVec 16} {k : Kind} (hs : v.getLsbD 15 = decide (k = .full ∨ k = .start))
    (he : v.getLsbD 14 = decide (k = .full ∨ k = .end_)) (rest : Bytes) : kindOf ((be2 v ++ rest).headD 0) = k :=
  kindOf_word (a := v.extractLsb' 8 8) (b := v.extractLsb' 0 8) (by rwa [be2_join]) (by rwa [be2_join])

theorem kindOf_be4 {v : BitVec 32} {k : Kind} (hs : v.getLsbD 31 = decide (k = .full ∨ k = .start))
    (he : v.getLsbD 30 = decide (k = .full ∨ k = .end_)) (rest : Bytes) : kindOf ((be4 v ++ rest).headD 0) = k :=
  have ⟨hs', he'⟩ := indicators_of_be4 v
  kindOf_word (hs'.trans hs) (he'.trans he)

section

variable {s e : BitVec 1} {k : Kind} (hs : s.getLsbD 0 = decide (k = .full ∨ k = .start))
  (he : e.getLsbD 0 = decide (k = .full ∨ k = .end_)) (rest : Bytes)

include hs he

theorem kindOf_rleShort (n : BitVec 11) (f : BitVec 3) : kindOf ((be2 (s ++ e ++ n ++ f) ++ rest).headD 0) = k :=
  have ⟨hs', he', _⟩ := rleShort_fields s e n f
  kindOf_be2 (hs'.trans hs) (he'.trans he) rest

theorem kindOf_rleLong (n : BitVec 11) (f : BitVec 3) (t : BitVec 12) (r : BitVec 4) :
    kindOf ((be4 (s ++ e ++ n ++ f ++ t ++ r) ++ rest).headD 0) = k :=
  have ⟨hs', he', _⟩ := rleLong_fields s e n f t r
  kindOf_be4 (hs'.trans hs) (he'.trans he) rest

theorem kindOf_gseWord (l : BitVec 2) (n : BitVec 12) : kindOf ((be2 (s ++ e ++ l ++ n) ++ rest).headD 0) = k :=
  have ⟨hs', he', _⟩ := gseWord_fields s e l n
  kindOf_be2 (hs'.trans hs) (he'.trans he) rest

end

/-- The bytes of a fragment are a leading header and a trailer of the sizes of its kind around its payload (R140, R150), and
its first byte shows its kind. -/
def LaidOut (f : Family) (b : Bytes) (r : FragRec) : Prop :=
  kindOf (b.headD 0) = r.kind ∧ ∃ header trailer, b = header ++ r.payload ++ trailer ∧
    header.length = serializedSize f r.kind ∧ trailer.length = trailerSize f r.kind

theorem encode_laidOut {f : Family} {i : Instr} {r : FragRec} (hunit : i.wireUnit = some (fragmentUnit f))
    (hrec : fragRecord i = some r) : LaidOut f (encode i) r := by
  cases f with
  | rle =>
    cases i with
    | rleFull | rleCont | rleEnd =>
      cases hrec
      exact ⟨kindOf_rleShort rfl rfl _ _ _, _, [], (List.append_nil _).symm, rfl, rfl⟩
    | rleStart =>
      cases hrec
      exact ⟨kindOf_rleLong rfl rfl _ _ _ _ _, _, [], (List.append_nil _).symm, rfl, rfl⟩
    | _ => cases hunit
  | gse =>
    cases i with
    | gseFull | gseEnd =>
      cases hrec
      exact ⟨kindOf_gseWord rfl rfl _ _ _, _, be4 _, rfl, rfl, rfl⟩
    | gseStart | gseCont =>
      cases hrec
      exact ⟨kindOf_gseWord rfl rfl _ _ _, _, [], (List.append_nil _).symm, rfl, rfl⟩
    | _ => cases hunit

theorem LaidOut.payload {f : Family} {b : Bytes} {r : FragRec} (h : LaidOut f b r) :
    (b.drop (serializedSize f r.kind)).take r.payload.length = r.payload := by
  obtain ⟨-, header, trailer, rfl, hheader, -⟩ := h
  rw [List.append_assoc, List.drop_left' hheader, List.take_left]

theorem LaidOut.length {f : Family} {b : Bytes} {r : FragRec} (h : LaidOut f b r) :
    b.length = serializedSize f r.kind + r.payload.length + trailerSize f r.kind := by
  obtain ⟨-, header, trailer, rfl, hheader, htrailer⟩ := h
  rw [List.length_append, List.length_append, hheader, htrailer]

/-! ## Deserialize -/

theorem deserializeSized_encode {f : Family} {i : Instr} {r : FragRec} (hunit : i.wireUnit = some (fragmentUnit f))
    (hwf : i.wf = true) (hrec : fragRecord i = some r) :
    deserializeSized f (encode i) = some (r, serializedSize f r.kind) :=
  have ⟨kind, _⟩ := encode_laidOut hunit hrec
  deserializeSized_eq_some.2 ⟨⟨i, decodeUnit_eq_ok.2 ⟨rfl, hwf, hunit⟩, hrec⟩, by rw [kind]⟩

theorem laidOut_of_deserializeSized {f : Family} {b : Bytes} {r : FragRec} {n : Nat}
    (h : deserializeSized f b = some (r, n)) : LaidOut f b r ∧ n = serializedSize f r.kind := by
  obtain ⟨⟨i, hdecode, hrec⟩, hn⟩ := deserializeSized_eq_some.1 h
  obtain ⟨rfl, -, hunit⟩ := decodeUnit_isUnitOf hdecode
  have ⟨kind, layout⟩ := encode_laidOut hunit hrec
  exact ⟨⟨kind, layout⟩, by rw [hn, kind]⟩

theorem FragRecLegal.payload_pos {f : Family} {r : FragRec} (h : FragRecLegal f r) : 1 ≤ r.payload.length := by
  cases r with
  | full => exact h
  | start | cont | end_ => exact h.1

/-- A trailer stands on a GSE FULL or END only (R140, R150). -/
theorem trailerSize_eq (f : Family) (k : Kind) :
    trailerSize f k = if f = .gse ∧ (k = .full ∨ k = .end_) then 4 else 0 := by
  cases f <;> cases k <;> rfl

/-- Settles O60: what decodes is the encoding of a fragment, which is laid out as its kind says. -/
theorem consumedBytesAreTheLeadingHeader : Obligations.ConsumedBytesAreTheLeadingHeader := by
  refine ⟨fun f b r n h => ?_, fun b q n h => ?_⟩
  · obtain ⟨laid, rfl⟩ := laidOut_of_deserializeSized h
    have read : deserialize f b = some r := by rw [deserialize, h]; rfl
    have pos := (deserialize_legal read).payload_pos
    refine ⟨?_, rfl, pos, laid.payload, by rw [laid.length, trailerSize_eq]⟩
    obtain ⟨kind, -⟩ := laid
    rw [← kind, kindOf]
    cases f <;> cases (b.headD 0).getLsbD 7 <;> cases (b.headD 0).getLsbD 6 <;> rfl
  · cases b with
    | nil => cases h
    | cons q' frame => cases h; exact ⟨rfl, rfl⟩

/-! ## What the sender serializes -/

/-- The record of a fragment of the kind. -/
def kindRecord (fid : BitVec 8) (total : BitVec 16) (p : Bytes) : Kind → FragRec
  | .full => .full p
  | .start => .start fid total p
  | .cont => .cont fid p
  | .end_ => .end_ fid p

@[simp] theorem kindRecord_kind (fid : BitVec 8) (total : BitVec 16) (p : Bytes) (k : Kind) :
    (kindRecord fid total p k).kind = k := by cases k <;> rfl

@[simp] theorem kindRecord_payload (fid : BitVec 8) (total : BitVec 16) (p : Bytes) (k : Kind) :
    (kindRecord fid total p k).payload = p := by cases k <;> rfl

/-- A value that fits the narrow field is read back from it zero-extended (R115). -/
theorem setWidth_setWidth_of_lt {m w : Nat} {v : BitVec w} (h : v.toNat < 2 ^ m) : (v.setWidth m).setWidth w = v := by
  apply BitVec.eq_of_toNat_eq
  rw [BitVec.toNat_setWidth, BitVec.toNat_setWidth, Nat.mod_eq_of_lt h, Nat.mod_eq_of_lt v.isLt]

/-- The width of the family's LEN field (R141, R151). -/
def lenWidth : Family → Nat
  | .rle => 11
  | .gse => 12

/-- What the sender serializes is a fragment of its family, well-formed where LEN can count the payload. -/
theorem wireFragment_isUnit {c : CfgBlock} {p : Bytes} (fits : payloadFits (lenWidth (cfgFamily c)) p = true) (k : Kind)
    (fid : BitVec 8) (total : BitVec 16) (dest : BitVec 32) :
    (wireFragment c k fid total dest p).wireUnit = some (fragmentUnit (cfgFamily c)) ∧
      (wireFragment c k fid total dest p).wf = true := by
  unfold wireFragment
  cases hf : cfgFamily c with
  | rle | gse =>
    rw [hf] at fits
    cases k <;> exact ⟨rfl, fits⟩

/-- An id and a total in range come through the fields of their family (R115). -/
theorem wireFragment_record {c : CfgBlock} {fid : BitVec 8} {total : BitVec 16} (hfid : fid.toNat < (cfgFamily c).fidMod)
    (htotal : total.toNat ≤ cfgMaxPkt c) (k : Kind) (dest : BitVec 32) (p : Bytes) :
    fragRecord (wireFragment c k fid total dest p) = some (kindRecord fid total p k) := by
  unfold wireFragment
  unfold cfgMaxPkt at htotal
  cases hf : cfgFamily c with
  | gse => cases k <;> rfl
  | rle =>
    rw [hf] at hfid htotal
    have hfid3 : (fid.setWidth 3).setWidth 8 = fid := setWidth_setWidth_of_lt hfid
    have htotal12 : (total.setWidth 12).setWidth 16 = total := setWidth_setWidth_of_lt (Nat.lt_succ_of_le htotal)
    cases k <;> simp [fragRecord, kindRecord, hfid3, htotal12]

/-- Settles O58: the wire fragment is well-formed and carries the record, so it decodes to that and is
laid out as its kind says. -/
theorem serializedFragmentsDeserialize : Obligations.SerializedFragmentsDeserialize := by
  refine ⟨fun c fid e p pos hfid htotal fits => ?_, fun fs h => decodeFrame_encode h⟩
  have counted : payloadFits (lenWidth (cfgFamily c)) p = true := by
    cases hf : cfgFamily c <;> rw [hf] at fits <;> simp [payloadFits, lenWidth, pos, fits]
  have unit := fun k => wireFragment_isUnit counted k fid e.total e.dest
  have carries := fun k => wireFragment_record hfid htotal k e.dest p
  have read : ∀ k, deserializeSized (cfgFamily c) (serialize c k fid e p) =
      some (kindRecord fid e.total p k, serializedSize (cfgFamily c) k) := fun k => by
    simpa [serialize] using deserializeSized_encode (unit k).1 (unit k).2 (carries k)
  refine ⟨read .full, read .start, read .cont, read .end_, fun k => ⟨serialize_length c k fid e p, ?_⟩⟩
  simpa [serialize] using (encode_laidOut (unit k).1 (carries k)).payload

/-! ## Fragments received -/

/-- In CONFIGURED a well-formed fragment of the block's family completes as its record reassembled (log entry 5). -/
theorem exec_fragment_reassembles {f : Family} {s : State} {i : Instr} {r : FragRec} (hconf : s.configured = true)
    (hfatal : s.fatal = false) (hfamily : s.family = f) (hunit : i.wireUnit = some (fragmentUnit f)) (hwf : i.wf = true)
    (hrec : fragRecord i = some r) : exec i s = .next (s.reassemble r) := by
  have read : deserialize s.family (encode i) = some r := by
    rw [deserialize, hfamily, deserializeSized_encode hunit hwf hrec]
    rfl
  have isFragment : i.wireUnit = some .rleFragment ∨ i.wireUnit = some .gseFragment := by
    cases f with
    | rle => exact .inl hunit
    | gse => exact .inr hunit
  rw [exec_fragment isFragment, runUnit_of_running hconf hfatal]
  rcases fragmentRule_cases (encode i) s with ⟨hd, -⟩ | ⟨r', hd, e⟩ <;> rw [read] at hd <;> cases hd
  rw [e]
  rfl

/-- Settles O22: each is a well-formed RLE fragment with that record. -/
theorem rleFragmentsReassembleAsTheirRecords : Obligations.RleFragmentsReassembleAsTheirRecords := by
  intro s p hconf hfatal hfamily pos fits
  have hwf : payloadFits 11 p = true := by simp [payloadFits, pos, fits]
  have run {i : Instr} {r : FragRec} := exec_fragment_reassembles (i := i) (r := r) hconf hfatal hfamily
  exact ⟨fun _ => run rfl hwf rfl, fun _ _ _ => run rfl hwf rfl, fun _ => run rfl hwf rfl, fun _ => run rfl hwf rfl⟩

/-- Settles O23: each is a well-formed GSE fragment with that record. -/
theorem gseFragmentsReassembleAsTheirRecords : Obligations.GseFragmentsReassembleAsTheirRecords := by
  intro s p hconf hfatal hfamily pos fits
  have hwf : payloadFits 12 p = true := by simp [payloadFits, pos, fits]
  have run {i : Instr} {r : FragRec} := exec_fragment_reassembles (i := i) (r := r) hconf hfatal hfamily
  exact ⟨fun _ _ _ _ => run rfl hwf rfl, fun _ _ _ _ _ => run rfl hwf rfl, fun _ _ => run rfl hwf rfl,
    fun _ _ _ => run rfl hwf rfl⟩

end Sys2Proof.Machine
end

section
/-! PROOFS. The transmission buffer (41_txbuffer.md): ENQ refuses, drops or appends a packet (R190). -/

namespace Sys2Proof.Machine

/-- MAXPKT by the number of the variant (R11). -/
theorem cfgMaxPkt_eq (c : CfgBlock) : cfgMaxPkt c = if c.variant = 2 ∨ c.variant = 3 then 65535 else 4095 := by
  unfold cfgMaxPkt cfgFamily
  split <;> rfl

/-- In CONFIGURED the pipeline of R413 runs the rule. -/
theorem runCommand_of_running {s : State} (hconf : s.configured = true) (hfatal : s.fatal = false) (rule : State → Effect) :
    runCommand rule s = finish s (rule s) := by
  simp [runCommand, hconf, hfatal]

/-- Settles O11: in CONFIGURED ENQ ends as its rule does, and the four cases of R190 are those of the statement's chain. -/
theorem enqChecksDropsOrAppends : Obligations.EnqChecksDropsOrAppends := by
  intro dest data s hconf hfatal
  have ran : exec (.enq dest data) s = .next (finish s (enqRule dest data s)) :=
    congrArg _ (runCommand_of_running hconf hfatal (enqRule dest data))
  rw [ran, ← cfgMaxPkt_eq, ← txqBytes, ← State.txbufBytes]
  rcases enqRule_cases dest data s with ⟨empty, e⟩ | ⟨large, e⟩ | ⟨pos, fits, full, e⟩ | ⟨pos, fits, room, e⟩ <;> rw [e]
  · rw [if_pos empty]; rfl
  · rw [if_neg (by omega), if_pos large]; rfl
  · rw [if_neg (by omega), if_neg (by omega), if_pos full]; rfl
  · rw [if_neg (by omega), if_neg (by omega), if_neg (by omega)]; rfl

end Sys2Proof.Machine
end

section
/-! PROOFS. The fragmenter (42_fragmenter.md): a frame's size and its least budget (R232, R233), and the plain TXOPP (R230,
R231). -/

namespace Sys2Proof.Machine

/-! ## The size of a frame -/

/-- Each fragment costs a frame its four-byte FPH entry and itself (R165, R232). -/
theorem frameOf_length (frags : List Bytes) : (frameOf frags).length = 1 + (frags.map (fun g => 4 + g.length)).sum := by
  have size : (frameOf frags).length = 1 + 4 * frags.length + (frags.map List.length).sum :=
    (Laws.EncodedLength.fph frags).1
  rw [size, List.sum_map_add, List.map_const', List.sum_replicate, smul_eq_mul]
  omega

/-- A header with its trailer takes 2 to 11 bytes (R140, R150). -/
theorem overhead_range (f : Family) (k : Kind) : 2 ≤ overhead f k ∧ overhead f k ≤ 11 := by
  cases f <;> cases k <;> decide

/-- What the fragments of a run of the loop keep to: the count of R227, the budget and the cap (R232), and none is
empty. -/
theorem packLoop_frags_bounded (c : CfgBlock) (q : List TxEntry) (avail : Nat) {n : Nat} (hn : n ≤ fphMaxN)
    (fidNext : BitVec 8) :
    n + (packLoop c q avail n fidNext).frags.length ≤ fphMaxN ∧
      ((packLoop c q avail n fidNext).frags.map (fun g => 4 + g.length)).sum ≤ avail ∧
      ∀ g ∈ (packLoop c q avail n fidNext).frags, 1 ≤ g.length ∧ g.length ≤ cfgMaxFrag c := by
  induction q generalizing avail n with
  | nil => simpa [packLoop] using hn
  | cons e rest ih =>
    rcases packLoop_cons c e rest avail n fidNext with ⟨-, h⟩ | ⟨below, fits, p, rfl, h⟩ | ⟨below, -, pays, h⟩ <;> rw [h]
    · simpa using hn
    · obtain ⟨cap, budget⟩ := wholeFits_iff.1 fits
      obtain ⟨header, -⟩ := overhead_range (cfgFamily c) e.wholeKind
      obtain ⟨count, sum, caps⟩ :=
        ih (avail - (4 + overhead (cfgFamily c) e.wholeKind + e.data.length)) (n := n + 1) (Nat.succ_le_of_lt below)
      refine ⟨?_, ?_, List.forall_mem_cons.2 ⟨?_, caps⟩⟩
      · rw [List.length_cons]; omega
      · rw [List.map_cons, List.sum_cons, serialize_length]; omega
      · rw [serialize_length]; omega
    · obtain ⟨budget, cap, within⟩ := splitSize_bounds pays
      obtain ⟨header, -⟩ := overhead_range (cfgFamily c) e.splitKind
      have piece : (e.data.take (splitSize c avail e)).length = splitSize c avail e :=
        List.length_take_of_le within.le
      refine ⟨below, ?_, List.forall_mem_singleton.2 ?_⟩
      · simp only [packSplit, List.map_singleton, List.sum_singleton, serialize_length, piece]; omega
      · rw [serialize_length, piece]; omega

/-- BuildFrame without its test for a budget of 0: there the loop packs no fragment, since each costs at least four bytes (R220,
R229). -/
theorem State.buildFrame_eq (b : Nat) (s : State) {p : Packed} (hp : packLoop s.cfg s.txq (b - 1) 0 s.fragIdNext = p) :
    s.buildFrame b =
      if p.frags = [] then none else some (frameOf p.frags, { s with txq := p.txq, fragIdNext := p.fragIdNext }) := by
  subst hp
  unfold State.buildFrame
  split
  · obtain ⟨-, sum, -⟩ := packLoop_frags_bounded s.cfg s.txq (b - 1) (Nat.zero_le fphMaxN) s.fragIdNext
    rw [if_pos]
    cases h : (packLoop s.cfg s.txq (b - 1) 0 s.fragIdNext).frags with
    | nil => rfl
    | cons g gs => rw [h, List.map_cons, List.sum_cons] at sum; omega
  · rfl

/-- Settles O16: the frame is that of the loop's fragments, and the count byte is what the loop's budget leaves out. -/
theorem framesStayWithinBudgetAndFragmentCap : Obligations.FramesStayWithinBudgetAndFragmentCap := by
  intro b s s1 f hb
  obtain ⟨p, rfl, hpos, nonempty, rfl, -⟩ := State.buildFrame_some hb
  obtain ⟨count, sum, caps⟩ := packLoop_frags_bounded s.cfg s.txq (b - 1) (Nat.zero_le fphMaxN) s.fragIdNext
  refine ⟨_, rfl, List.length_pos_iff.2 nonempty, (Nat.le_add_left _ 0).trans count, frameOf_length _, ?_,
    fun g hg => (caps g hg).2⟩
  rw [frameOf_length]
  omega

/-! ## The least budget -/

/-- The fragment cap of a valid configuration: room for a byte under any header, and no payload that LEN cannot count (R10,
R11, R141, R151). -/
theorem cfgMaxFrag_range {c : CfgBlock} (valid : cfgFirstBad c = none) :
    12 ≤ cfgMaxFrag c ∧ cfgMaxFrag c ≤ 2 ^ lenWidth (cfgFamily c) := by
  unfold cfgMaxFrag
  cases hf : cfgFamily c with
  | rle => exact ⟨Nat.le_of_ble_eq_true rfl, le_rfl⟩
  | gse =>
    have variant : c.variant = 2#8 ∨ c.variant = 3#8 := by
      unfold cfgFamily at hf
      split at hf
      · assumption
      · cases hf
    have checked : cfgFieldBad c 10 = false := by simpa using List.find?_eq_none.1 valid 10 (by decide)
    obtain ⟨low, high⟩ : 12 ≤ c.gseMaxfrag.toNat ∧ c.gseMaxfrag.toNat ≤ 4095 := by
      simpa [cfgFieldBad, cfgFieldApplies, variant, cfgFieldInRange] using checked
    exact ⟨low, high.trans (by decide)⟩

/-- BuildFrame returns NULL on a queue exactly when its front entry can neither be taken whole nor split (R227, R229). -/
theorem State.buildFrame_eq_none_iff {b : Nat} {s : State} {e : TxEntry} {rest : List TxEntry} (hq : s.txq = e :: rest) :
    s.buildFrame b = none ↔ wholeFits s.cfg (b - 1) e = false ∧ splitSize s.cfg (b - 1) e = 0 := by
  rw [s.buildFrame_eq b rfl, hq]
  rcases packLoop_cons s.cfg e rest (b - 1) 0 s.fragIdNext with
    ⟨full | ⟨unfit, dry⟩, h⟩ | ⟨-, fits, p, -, h⟩ | ⟨-, -, pays, h⟩
  · exact absurd full (by decide)
  · simp [h, unfit, dry]
  · simp [h, fits]
  · simp [h, packSplit, Nat.ne_of_gt pays]

/-- Settles O18: with the cap met, what decides is the budget; a valid cap leaves room for a byte under the split's header. -/
theorem theLeastOpportunityIsExact : Obligations.TheLeastOpportunityIsExact := by
  intro b s e rest valid hq pos cap
  obtain ⟨room, -⟩ := cfgMaxFrag_range valid
  have header := (overhead_range s.family e.splitKind).2
  rw [State.buildFrame_eq_none_iff hq, Bool.eq_false_iff, ne_eq, wholeFits_iff, splitSize_eq]
  unfold State.family at cap header ⊢
  split <;> omega

/-! ## The plain TXOPP -/

/-- In a plain variant `bytes_left` is TXBUF_BYTES (R231). -/
theorem State.bytesLeft_of_plain {s : State} (plain : s.arq = false) : s.bytesLeft = BitVec.ofNat 64 (txqBytes s.txq) := by
  simp [State.bytesLeft, plain, State.txbufBytes]

/-- How an opportunity of a plain variant ends, with a frame or without: one event counted, FrameOut with TXBUF_BYTES, and the
response (R230, R231). -/
theorem finish_opportunity {t : State} (plain : t.arq = false) (s : State) (k : Counter) (present : Bool) (frame : Bytes) :
    finish s (.done ((t.bump k).emit (.frameOut present frame (t.bump k).bytesLeft)) 0) =
      { t with
        cnt := t.cnt.bump k
        out := t.out ++ [.frameOut present frame (BitVec.ofNat 64 (txqBytes t.txq)), .resp .ok 0] } := by
  have left := State.bytesLeft_of_plain (s := t.bump k) plain
  simp only [finish, State.respond, State.emit, left, List.append_assoc]
  rfl

/-- Settles O12: in CONFIGURED TXOPP ends as the rule of its variant does, and BuildFrame writes TXQ and FRAG_ID_NEXT only. -/
theorem plainTxoppSendsTheBuiltFrameOrNothing : Obligations.PlainTxoppSendsTheBuiltFrameOrNothing := by
  intro b s hconf hfatal plain
  have ran : exec (.txopp b) s = .next (finish s (txoppRule b s)) :=
    congrArg _ (runCommand_of_running hconf hfatal (txoppRule b))
  have rule : txoppRule b s = txoppPlainRule b.toNat s := by simp [txoppRule, plain]
  rw [ran, rule]
  rcases txoppPlainRule_cases b.toNat s with ⟨null, e⟩ | ⟨f, s1, built, e⟩
  · rw [e, null]
    exact congrArg _ (finish_opportunity plain s .nullOpp false [])
  · rw [e, built]
    obtain ⟨p, -, -, -, -, rfl⟩ := State.buildFrame_some built
    exact congrArg _ (finish_opportunity (t := { s with txq := p.txq, fragIdNext := p.fragIdNext }) plain s .framesSent true f)

end Sys2Proof.Machine
end

section
/-! PROOFS. The fragmenter (42_fragmenter.md): every frame built parses at the receiver and carries the queue's bytes in order
(R228, R260, R276). -/

namespace Sys2Proof.Machine

/-! ## Fragments read by the receiver -/

/-- A payload within the fragment cap of a valid configuration fits its family's LEN field (R141, R151). -/
theorem payloadFits_of_cap {c : CfgBlock} (valid : cfgFirstBad c = none) {p : Bytes} (pos : 1 ≤ p.length) {k : Kind}
    (cap : overhead (cfgFamily c) k + p.length ≤ cfgMaxFrag c) : payloadFits (lenWidth (cfgFamily c)) p = true := by
  obtain ⟨-, fits⟩ := cfgMaxFrag_range valid
  obtain ⟨header, -⟩ := overhead_range (cfgFamily c) k
  have counted : p.length < 2 ^ lenWidth (cfgFamily c) := by omega
  simp [payloadFits, pos, counted]

/-- The receiver reads back what is serialized of a legal entry within the cap (R160, R178). -/
theorem deserialize_serialize {c : CfgBlock} (valid : cfgFirstBad c = none) {e : TxEntry} (he : TxEntryLegal (cfgFamily c) e)
    {fid : BitVec 8} (hfid : fid.toNat < (cfgFamily c).fidMod) {p : Bytes} (pos : 1 ≤ p.length) {k : Kind}
    (cap : overhead (cfgFamily c) k + p.length ≤ cfgMaxFrag c) :
    deserialize (cfgFamily c) (serialize c k fid e p) = some (kindRecord fid e.total p k) := by
  obtain ⟨-, total, -⟩ := he
  obtain ⟨unit, wf⟩ := wireFragment_isUnit (payloadFits_of_cap valid pos cap) k fid e.total e.dest
  exact deserialize_eq_some.2
    ⟨_, decodeUnit_eq_ok.2 ⟨rfl, wf, unit⟩, wireFragment_record hfid total k e.dest p⟩

theorem deserializeAll_cons {f : Family} {b : Bytes} {bs : List Bytes} {r : FragRec} {rs : List FragRec}
    (h : deserialize f b = some r) (hs : deserializeAll f bs = some rs) : deserializeAll f (b :: bs) = some (r :: rs) := by
  rw [deserializeAll, h, hs]

/-- A list of fragments that the receiver reads as records whose payloads, followed by what stays queued, are the bytes of a
queue. -/
def Carries (f : Family) (frags : List Bytes) (left q : List TxEntry) : Prop :=
  ∃ recs, deserializeAll f frags = some recs ∧
    (recs.map FragRec.payload).flatten ++ (left.map TxEntry.data).flatten = (q.map TxEntry.data).flatten

theorem Carries.nil (f : Family) (q : List TxEntry) : Carries f [] q q := ⟨[], rfl, rfl⟩

/-- The fragments of a run of the loop on legal entries carry the bytes that it takes off the queue. -/
theorem packLoop_carries {c : CfgBlock} (valid : cfgFirstBad c = none) {q : List TxEntry}
    (hq : ∀ e ∈ q, TxEntryLegal (cfgFamily c) e) (avail n : Nat) {fidNext : BitVec 8}
    (hfid : fidNext.toNat < (cfgFamily c).fidMod) :
    Carries (cfgFamily c) (packLoop c q avail n fidNext).frags (packLoop c q avail n fidNext).txq q := by
  induction q generalizing avail n with
  | nil => exact .nil _ []
  | cons e rest ih =>
    obtain ⟨front, later⟩ := List.forall_mem_cons.1 hq
    have ⟨pos, _, fid, _⟩ := front
    rcases packLoop_cons c e rest avail n fidNext with ⟨-, h⟩ | ⟨-, fits, p, rfl, h⟩ | ⟨-, -, pays, h⟩ <;> rw [h]
    · exact .nil _ _
    · obtain ⟨cap, -⟩ := wholeFits_iff.1 fits
      obtain ⟨recs, read, bytes⟩ := ih later (avail - (4 + overhead (cfgFamily c) e.wholeKind + e.data.length)) (n + 1)
      refine ⟨_, deserializeAll_cons (deserialize_serialize valid front fid pos (by omega)) read, ?_⟩
      simp [bytes]
    · obtain ⟨-, cap, within⟩ := splitSize_bounds pays
      have piece : (e.data.take (splitSize c avail e)).length = splitSize c avail e := List.length_take_of_le within.le
      have used : (if e.mid then e.fid else fidNext).toNat < (cfgFamily c).fidMod := by split <;> assumption
      refine ⟨_, deserializeAll_cons (deserialize_serialize valid front used (by omega) (by omega)) rfl, ?_⟩
      simp [packSplit, ← List.append_assoc]

/-! ## Frames read by the receiver -/

/-- The frame of fragments that a pack header can count parses as they do (R165, R166, R260). -/
theorem parseFrame_frameOf {f : Family} {frags : List Bytes} (h : fragsFit frags = true) :
    parseFrame f (frameOf frags) = deserializeAll f frags := by
  have read : decodeUnit .frame (frameOf frags) = .ok (.fph frags) := decodeFrame_encode h
  rw [parseFrame, read]

/-- The fragments of a frame built in a valid configuration are ones that a pack header can count (R110). -/
theorem packLoop_fragsFit {c : CfgBlock} (valid : cfgFirstBad c = none) {q : List TxEntry} {avail : Nat} {fidNext : BitVec 8}
    (nonempty : (packLoop c q avail 0 fidNext).frags ≠ []) : fragsFit (packLoop c q avail 0 fidNext).frags = true := by
  obtain ⟨count, -, caps⟩ := packLoop_frags_bounded c q avail (Nat.zero_le fphMaxN) fidNext
  have entry : cfgMaxFrag c < 2 ^ 32 :=
    (cfgMaxFrag_range valid).2.trans_lt (by cases cfgFamily c <;> decide)
  refine fragsFit_iff.2 ⟨List.length_pos_iff.2 nonempty, (Nat.le_add_left _ 0).trans count, fun g hg => ?_⟩
  obtain ⟨pos, cap⟩ := caps g hg
  exact ⟨pos, cap.trans_lt entry⟩

/-- Settles O19: the pack header can count the loop's fragments, and these carry what the loop takes off the queue. -/
theorem framesParseAndLoseNoByte : Obligations.FramesParseAndLoseNoByte := by
  rintro b s s1 f valid ⟨queue, -, -, hfid⟩ hb
  obtain ⟨p, rfl, -, nonempty, rfl, rfl⟩ := State.buildFrame_some hb
  obtain ⟨recs, read, bytes⟩ := packLoop_carries valid queue (b - 1) 0 hfid
  exact ⟨recs, (parseFrame_frameOf (packLoop_fragsFit valid nonempty)).trans read, bytes⟩

end Sys2Proof.Machine
end

section
/-! PROOFS. The fragmenter (42_fragmenter.md): BuildFrame takes whole entries from the front while they fit, then splits at most
one more (R220 to R229). -/

namespace Sys2Proof.Machine

/-! ## The entries taken whole -/

/-- What an entry emitted whole takes of the budget: its entry in the FPH, its header and trailer, and its bytes (R221). -/
def wholeCost (c : CfgBlock) (e : TxEntry) : Nat := 4 + overhead (cfgFamily c) e.wholeKind + e.data.length

/-- What is left of the budget when the first `i` entries of the queue have been taken whole. -/
def availAfter (c : CfgBlock) (q : List TxEntry) (avail i : Nat) : Nat := avail - ((q.take i).map (wholeCost c)).sum

@[simp] theorem availAfter_zero (c : CfgBlock) (q : List TxEntry) (avail : Nat) : availAfter c q avail 0 = avail := by
  simp [availAfter]

@[simp] theorem availAfter_cons_succ (c : CfgBlock) (e : TxEntry) (rest : List TxEntry) (avail i : Nat) :
    availAfter c (e :: rest) avail (i + 1) = availAfter c rest (avail - wholeCost c e) i := by
  simp [availAfter, Nat.sub_sub]

/-- With `k` fragments in the frame already, the loop takes exactly `n` more entries whole: each fits what those before it
leave, and the frame is full or the next one does not fit (R221, R222, R227). -/
structure TakesWhole (c : CfgBlock) (q : List TxEntry) (avail k n : Nat) : Prop where
  le_length : n ≤ q.length
  le_max : k + n ≤ fphMaxN
  fits : ∀ i e, i < n → q[i]? = some e → wholeFits c (availAfter c q avail i) e = true
  stops : ∀ e, k + n < fphMaxN → q[n]? = some e → wholeFits c (availAfter c q avail n) e = false

/-- A front entry that fits is one more taken, ahead of those taken from the rest with what it leaves. -/
theorem TakesWhole.cons {c : CfgBlock} {e : TxEntry} {rest : List TxEntry} {avail k n : Nat} (he : wholeFits c avail e = true)
    (h : TakesWhole c rest (avail - wholeCost c e) (k + 1) n) : TakesWhole c (e :: rest) avail k (n + 1) where
  le_length := Nat.succ_le_succ h.le_length
  le_max := by have := h.le_max; omega
  fits i x hi hx := by
    cases i with
    | zero => cases hx; simpa using he
    | succ i => simpa using h.fits i x (Nat.lt_of_succ_lt_succ hi) hx
  stops x hn hx := by simpa using h.stops x (by omega) hx

/-- The fragments of entries taken whole. -/
def wholeFrags (c : CfgBlock) (q : List TxEntry) : List Bytes := q.map (fun e => serialize c e.wholeKind e.fid e e.data)

/-- A run with fragments before its own. -/
def Packed.prepend (fs : List Bytes) (p : Packed) : Packed := { p with frags := fs ++ p.frags }

/-- An entry that fits is taken whole, and the loop goes on with the rest (R222). -/
theorem packLoop_of_fits {c : CfgBlock} {e : TxEntry} {avail k : Nat} (hk : k < fphMaxN) (fits : wholeFits c avail e = true)
    (rest : List TxEntry) (fidNext : BitVec 8) :
    packLoop c (e :: rest) avail k fidNext =
      (packLoop c rest (avail - wholeCost c e) (k + 1) fidNext).prepend (wholeFrags c [e]) := by
  rw [packLoop, if_neg (Nat.not_le_of_lt hk), if_pos fits]
  rfl

/-- The loop takes whole entries from the front, and then goes on with the rest of the queue. -/
theorem exists_takesWhole (c : CfgBlock) (q : List TxEntry) (avail : Nat) {k : Nat} (hk : k ≤ fphMaxN) (fidNext : BitVec 8) :
    ∃ n, TakesWhole c q avail k n ∧ packLoop c q avail k fidNext =
      (packLoop c (q.drop n) (availAfter c q avail n) (k + n) fidNext).prepend (wholeFrags c (q.take n)) := by
  induction q generalizing avail k with
  | nil => exact ⟨0, ⟨le_rfl, hk, by simp, by simp⟩, rfl⟩
  | cons e rest ih =>
    by_cases taken : k < fphMaxN ∧ wholeFits c avail e = true
    · obtain ⟨below, fits⟩ := taken
      obtain ⟨n, takes, run⟩ := ih (avail - wholeCost c e) (Nat.succ_le_of_lt below)
      refine ⟨n + 1, takes.cons fits, ?_⟩
      rw [packLoop_of_fits below fits, run, List.drop_succ_cons, availAfter_cons_succ, Nat.succ_add_eq_add_succ]
      rfl
    · refine ⟨0, ⟨Nat.zero_le _, hk, by simp, fun x below hx => ?_⟩, by rw [availAfter_zero]; rfl⟩
      cases hx
      simpa using fun fits => taken ⟨below, fits⟩

/-! ## What follows them -/

/-- The loop stops when the frame is full, the queue empty, or its front can be neither taken whole nor split (R227). -/
theorem packLoop_of_stops {c : CfgBlock} {q : List TxEntry} {avail k : Nat}
    (h : k = fphMaxN ∨ ∀ e, q.head? = some e → wholeFits c avail e = false ∧ splitSize c avail e = 0) (fidNext : BitVec 8) :
    packLoop c q avail k fidNext = { frags := [], txq := q, fragIdNext := fidNext } := by
  cases q with
  | nil => rfl
  | cons e rest =>
    rcases packLoop_cons c e rest avail k fidNext with ⟨-, run⟩ | ⟨below, fits, -⟩ | ⟨below, -, pays, -⟩
    · exact run
    · rcases h with rfl | h
      · exact absurd below (lt_irrefl _)
      · simp [(h e rfl).1] at fits
    · rcases h with rfl | h
      · exact absurd below (lt_irrefl _)
      · simp [(h e rfl).2] at pays

/-- A front entry that does not fit and can give a byte is split (R223). -/
theorem packLoop_of_splits {c : CfgBlock} {e : TxEntry} {avail k : Nat} (hk : k < fphMaxN) (unfit : wholeFits c avail e = false)
    (pays : 1 ≤ splitSize c avail e) (rest : List TxEntry) (fidNext : BitVec 8) :
    packLoop c (e :: rest) avail k fidNext = packSplit c (splitSize c avail e) e rest fidNext := by
  rcases packLoop_cons c e rest avail k fidNext with ⟨full | ⟨-, none⟩, -⟩ | ⟨-, fits, -⟩ | ⟨-, -, -, run⟩
  · omega
  · omega
  · rw [unfit] at fits; cases fits
  · exact run

/-- Off an untouched entry the split is a START with FRAG_ID_NEXT, which advances, and leaves the chain's END (R225, R226). -/
theorem packSplit_of_untouched {e : TxEntry} (h : e.mid = false) (c : CfgBlock) (pay : Nat) (rest : List TxEntry)
    (fidNext : BitVec 8) : packSplit c pay e rest fidNext =
      { frags := [serialize c .start fidNext e (e.data.take pay)]
        txq := { e with data := e.data.drop pay, tag := .end_, fid := fidNext } :: rest
        fragIdNext := nextFid (cfgFamily c) fidNext } := by
  simp [packSplit, TxEntry.splitKind, h]

/-- Off a mid-chain entry the split is a CONTINUATION with the chain's id, and leaves one (R225, R226). -/
theorem packSplit_of_mid {e : TxEntry} (h : e.mid = true) (c : CfgBlock) (pay : Nat) (rest : List TxEntry)
    (fidNext : BitVec 8) : packSplit c pay e rest fidNext =
      { frags := [serialize c .cont e.fid e (e.data.take pay)]
        txq := { e with data := e.data.drop pay, tag := .cont } :: rest
        fragIdNext := fidNext } := by
  simp [packSplit, TxEntry.splitKind, h]

/-! ## BuildFrame -/

section

variable {b n : Nat} {s : State} {p : Packed}
  (run : packLoop s.cfg s.txq (b - 1) 0 s.fragIdNext = p.prepend (wholeFrags s.cfg (s.txq.take n)))

include run

/-- Where nothing is split off, the frame is that of the whole entries, and with none of these NULL (R229). -/
theorem State.buildFrame_of_stopped (hn : n ≤ s.txq.length)
    (stopped : p = { frags := [], txq := s.txq.drop n, fragIdNext := s.fragIdNext }) :
    s.buildFrame b =
      if n = 0 then none
      else some (frameOf (wholeFrags s.cfg (s.txq.take n)), { s with txq := s.txq.drop n }) := by
  have none_iff : wholeFrags s.cfg (s.txq.take n) = [] ↔ n = 0 := by
    rw [wholeFrags, List.map_eq_nil_iff, ← List.length_eq_zero_iff, List.length_take_of_le hn]
  rw [s.buildFrame_eq b run, stopped]
  simp only [Packed.prepend, List.append_nil, none_iff]

/-- Where the next entry is split, the piece ends the frame (R223). -/
theorem State.buildFrame_of_split {piece : Bytes} (split : p.frags = [piece]) :
    s.buildFrame b = some (frameOf (wholeFrags s.cfg (s.txq.take n) ++ [piece]),
      { s with txq := p.txq, fragIdNext := p.fragIdNext }) := by
  rw [s.buildFrame_eq b run]
  simp [Packed.prepend, split]

end

/-- Settles O17: the loop takes its whole entries and then stops or splits the next one. -/
theorem buildFrameTakesWholeEntriesThenOneSplit : Obligations.BuildFrameTakesWholeEntriesThenOneSplit := by
  intro b s hs cap avail fits pay
  obtain ⟨n, takes, run⟩ := exists_takesWhole s.cfg s.txq (b - 1) (Nat.zero_le fphMaxN) s.fragIdNext
  have ⟨le_length, le_max, fit, unfit⟩ := takes
  rw [Nat.zero_add] at run le_max unfit
  have pay_eq : ∀ a e, pay a e = splitSize s.cfg a e := fun a e => (splitSize_eq s.cfg a e).symm
  refine ⟨n, le_length, le_max, fun i e hi he => wholeFits_iff.1 (fit i e hi he), fun e hn he fits => ?_, fun h => ?_,
    fun e hn he pays => ?_⟩
  · exact absurd (wholeFits_iff.2 fits) (Bool.eq_false_iff.1 (unfit e hn he))
  · refine State.buildFrame_of_stopped run le_length (packLoop_of_stops ?_ _)
    rw [List.head?_drop]
    rcases le_max.lt_or_eq with below | full
    · refine .inr fun e he => ⟨unfit e below he, ?_⟩
      rcases h with full | all | ⟨x, hx, dry⟩
      · exact absurd full (Nat.ne_of_lt below)
      · simp [all] at he
      · cases hx.symm.trans he
        exact (pay_eq _ e).symm.trans dry
    · exact .inl full
  · have rest : s.txq.drop n = e :: s.txq.drop (n + 1) := by
      obtain ⟨hlt, rfl⟩ := List.getElem?_eq_some_iff.1 he
      exact List.drop_eq_getElem_cons hlt
    rw [pay_eq] at pays ⊢
    rw [rest, packLoop_of_splits hn (unfit e hn he) pays] at run
    refine ⟨fun untouched => ?_, fun mid => ?_⟩
    · rw [packSplit_of_untouched untouched] at run
      exact State.buildFrame_of_split run rfl
    · rw [packSplit_of_mid mid] at run
      exact State.buildFrame_of_split run rfl

end Sys2Proof.Machine
end

section
/-! PROOFS. Reassembly (43_reassembly.md): the state machine record by record (R263), and the plain RXFRM, which runs it on the
records of a frame (R260, R272, R275). -/

namespace Sys2Proof.Machine

/-! ## The state machine

What a record of each kind does to a context in IDLE and in ACCUMULATING: the rows of R270. -/

section

variable {s : State} {fid : BitVec 8} {total : BitVec 16} {p : Bytes}

theorem State.dropChain_of_idle (idle : s.raActive = false) : s.dropChain = s := by simp [State.dropChain, idle]

theorem State.dropChain_of_active (active : s.raActive = true) : s.dropChain = s.defect.toIdle := by
  simp [State.dropChain, active]

theorem State.reassemble_full : s.reassemble (.full p) = s.dropChain.deliver p := rfl

theorem State.reassemble_start_tooLong (long : total.toNat < p.length) :
    s.reassemble (.start fid total p) = s.dropChain.defect := if_pos long

theorem State.reassemble_start (fits : p.length ≤ total.toNat) :
    s.reassemble (.start fid total p) =
      { s.dropChain with raActive := true, raFid := fid, raTotal := total, raBuf := p } := if_neg (Nat.not_lt.2 fits)

theorem State.reassemble_cont_idle (idle : s.raActive = false) : s.reassemble (.cont fid p) = s.defect := by
  simp [State.reassemble, idle]

theorem State.reassemble_cont_discards (active : s.raActive = true)
    (bad : fid ≠ s.raFid ∨ s.raTotal.toNat < s.raBuf.length + p.length) :
    s.reassemble (.cont fid p) = s.defect.toIdle := by
  by_cases same : fid = s.raFid
  · have long : s.raTotal.toNat < s.raBuf.length + p.length := bad.resolve_left (not_not_intro same)
    simp [State.reassemble, State.toIdle, active, same, long]
  · simp [State.reassemble, active, same]

theorem State.reassemble_cont (active : s.raActive = true) (same : fid = s.raFid)
    (fits : s.raBuf.length + p.length ≤ s.raTotal.toNat) :
    s.reassemble (.cont fid p) = { s with raBuf := s.raBuf ++ p } := by
  simp [State.reassemble, active, same, Nat.not_lt.2 fits]

theorem State.reassemble_end_idle (idle : s.raActive = false) : s.reassemble (.end_ fid p) = s.defect := by
  simp [State.reassemble, idle]

theorem State.reassemble_end_discards (active : s.raActive = true)
    (bad : fid ≠ s.raFid ∨ s.raBuf.length + p.length ≠ s.raTotal.toNat) :
    s.reassemble (.end_ fid p) = s.defect.toIdle := by
  by_cases same : fid = s.raFid
  · have differs : s.raBuf.length + p.length ≠ s.raTotal.toNat := bad.resolve_left (not_not_intro same)
    simp [State.reassemble, State.toIdle, active, same, differs]
  · simp [State.reassemble, active, same]

theorem State.reassemble_end (active : s.raActive = true) (same : fid = s.raFid)
    (complete : s.raBuf.length + p.length = s.raTotal.toNat) :
    s.reassemble (.end_ fid p) = (s.deliver (s.raBuf ++ p)).toIdle := by
  simp [State.reassemble, State.toIdle, active, same, complete]

end

/-- Reassembly counts no frame malformed. -/
theorem State.reassemble_rxMalformed (rec : FragRec) (s : State) :
    (s.reassemble rec).cnt.rxMalformed = s.cnt.rxMalformed := by
  cases rec <;> simp only [State.reassemble, State.dropChain] <;> (repeat' split) <;> rfl

theorem State.reassembleAll_rxMalformed (recs : List FragRec) (s : State) :
    (s.reassembleAll recs).cnt.rxMalformed = s.cnt.rxMalformed := by
  induction recs generalizing s with
  | nil => rfl
  | cons rec recs ih => rw [State.reassembleAll_cons, ih, State.reassemble_rxMalformed]

/-- Settles O20: the rows of R270 in ACCUMULATING and in IDLE are the branches of the statement. -/
theorem reassembleFollowsItsStateMachine : Obligations.ReassembleFollowsItsStateMachine := by
  intro s fid total p bad bad2
  rcases s.raActive.eq_false_or_eq_true with active | idle
  · have accumulating : ¬ s.raActive = false := by simp [active]
    simp only [if_pos active, if_neg accumulating]
    refine ⟨?start, ?full, ?cont, ?end_⟩
    case start =>
      split
      next long => rw [State.reassemble_start_tooLong long, State.dropChain_of_active active]; rfl
      next fits => rw [State.reassemble_start (Nat.not_lt.1 fits), State.dropChain_of_active active]; rfl
    case full => rw [State.reassemble_full, State.dropChain_of_active active]; rfl
    case cont =>
      split
      next discards => rw [State.reassemble_cont_discards active discards]; rfl
      next appends =>
        obtain ⟨same, fits⟩ := not_or.1 appends
        exact State.reassemble_cont active (not_not.1 same) (Nat.not_lt.1 fits)
    case end_ =>
      split
      next discards => rw [State.reassemble_end_discards active discards]; rfl
      next completes =>
        obtain ⟨same, complete⟩ := not_or.1 completes
        rw [State.reassemble_end active (not_not.1 same) (not_not.1 complete)]; rfl
  · have notActive : ¬ s.raActive = true := by simp [idle]
    simp only [if_neg notActive, if_pos idle]
    refine ⟨?start, ?full, ?cont, ?end_⟩
    case start =>
      split
      next long => rw [State.reassemble_start_tooLong long, State.dropChain_of_idle idle]; rfl
      next fits => rw [State.reassemble_start (Nat.not_lt.1 fits), State.dropChain_of_idle idle]
    case full => rw [State.reassemble_full, State.dropChain_of_idle idle]; rfl
    case cont => exact State.reassemble_cont_idle idle
    case end_ => exact State.reassemble_end_idle idle

/-! ## The plain RXFRM -/

/-- In CONFIGURED a plain RXFRM ends as its rule does (R91, R413). -/
theorem exec_rxfrm_plain {s : State} (hconf : s.configured = true) (hfatal : s.fatal = false) (plain : s.arq = false)
    (f : Bytes) : exec (.rxfrm f) s = .next (finish s (rxfrmPlainRule f s)) := by
  have rule : rxfrmRule f s = rxfrmPlainRule f s := by simp [rxfrmRule, plain]
  rw [← rule]
  exact congrArg _ (runCommand_of_running hconf hfatal (rxfrmRule f))

/-- A frame that parses is counted, its records are reassembled in frame order, and the response follows (R272, R275). -/
theorem exec_rxfrm_of_parsed {s : State} (hconf : s.configured = true) (hfatal : s.fatal = false) (plain : s.arq = false)
    {f : Bytes} {recs : List FragRec} (parsed : parseFrame s.family f = some recs) :
    exec (.rxfrm f) s = .next (((s.bump .framesRcvd).reassembleAll recs).respond .ok 0) := by
  rw [exec_rxfrm_plain hconf hfatal plain, rxfrmPlainRule, parsed]
  rfl

/-- Settles O21: the two ends of the rule of the plain RXFRM. -/
theorem plainRxfrmParsesThenReassembles : Obligations.PlainRxfrmParsesThenReassembles := by
  intro f s hconf hfatal plain
  refine ⟨fun malformed => ?_, fun recs parsed => ⟨_, rfl, exec_rxfrm_of_parsed hconf hfatal plain parsed⟩⟩
  rw [exec_rxfrm_plain hconf hfatal plain, rxfrmPlainRule, malformed]
  rfl

/-- Settles O25: the unit runs the rule of the plain RXFRM on the frame's bytes, and these parse as the fragments do. -/
theorem frameUnitsReassembleOrCountMalformed : Obligations.FrameUnitsReassembleOrCountMalformed := by
  intro frags s hconf hfatal plain fits
  have ran : exec (.fph frags) s = .next (finishUnit s (rxfrmPlainRule (frameOf frags) s)) := by
    rw [exec_frame_or_pdu (.inl rfl), runUnit_of_running hconf hfatal, rxfrmRule, plain]
    rfl
  rw [ran]
  rcases rxfrmPlainRule_cases (frameOf frags) s with ⟨parsed, e⟩ | ⟨recs, parsed, e⟩ <;>
    rw [e, ← parseFrame_frameOf fits, parsed] <;> rfl

/-! ## A frame and its fragments -/

/-- A well-formed fragment of a family has a record, whose payload the LEN field counts (R141, R151, R261). -/
theorem exists_fragRecord {f : Family} {i : Instr} (hunit : i.wireUnit = some (fragmentUnit f)) (hwf : i.wf = true) :
    ∃ r, fragRecord i = some r ∧ payloadFits (lenWidth f) r.payload = true := by
  cases f with
  | rle =>
    cases i with
    | rleFull | rleStart | rleCont | rleEnd => exact ⟨_, rfl, hwf⟩
    | _ => cases hunit
  | gse =>
    cases i with
    | gseFull | gseStart | gseCont | gseEnd => exact ⟨_, rfl, hwf⟩
    | _ => cases hunit

/-- A pack header can count any well-formed fragment (R110). -/
theorem encode_fragment_length {f : Family} {i : Instr} (hunit : i.wireUnit = some (fragmentUnit f)) (hwf : i.wf = true) :
    1 ≤ (encode i).length ∧ (encode i).length < 2 ^ 32 := by
  obtain ⟨r, hrec, fits⟩ := exists_fragRecord hunit hwf
  obtain ⟨pos, short⟩ : 1 ≤ r.payload.length ∧ r.payload.length < 2 ^ lenWidth f := by simpa [payloadFits] using fits
  have counted : 2 ^ lenWidth f ≤ 2 ^ 12 := by cases f <;> decide
  have size := (encode_laidOut hunit hrec).length
  have header : serializedSize f r.kind + trailerSize f r.kind ≤ 11 := (overhead_range f r.kind).2
  omega

/-- Well-formed fragments executed one after another are their records reassembled in that order (R272). -/
theorem execAll_fragments {f : Family} {units : List Instr} {s : State} (hconf : s.configured = true)
    (hfatal : s.fatal = false) (hfamily : s.family = f)
    (hunits : ∀ i ∈ units, i.wireUnit = some (fragmentUnit f) ∧ i.wf = true) :
    ∃ recs, deserializeAll f (units.map encode) = some recs ∧ execAll units s = .next (s.reassembleAll recs) := by
  induction units generalizing s with
  | nil => exact ⟨[], rfl, rfl⟩
  | cons i units ih =>
    obtain ⟨⟨hunit, hwf⟩, later⟩ := List.forall_mem_cons.1 hunits
    obtain ⟨r, hrec, -⟩ := exists_fragRecord hunit hwf
    have read : deserialize f (encode i) = some r := deserialize_eq_some.2 ⟨i, decodeUnit_eq_ok.2 ⟨rfl, hwf, hunit⟩, hrec⟩
    obtain ⟨recs, reads, runs⟩ := ih (s := s.reassemble r) (by simpa [State.configured] using hconf)
      (by simpa [State.fatal] using hfatal) (by simpa [State.family] using hfamily) later
    refine ⟨r :: recs, deserializeAll_cons read reads, ?_⟩
    rw [execAll, exec_fragment_reassembles hconf hfatal hfamily hunit hwf hrec]
    exact runs

/-- Settles O24: the frame parses as its fragments' records, and these are what executing the fragments reassembles. -/
theorem rxfrmRunsItsFragmentsInOrder : Obligations.RxfrmRunsItsFragmentsInOrder := by
  intro units s hconf hfatal plain nonempty count hunits
  have fits : fragsFit (units.map encode) = true := by
    refine fragsFit_iff.2 ⟨?_, ?_, List.forall_mem_map.2 fun i hi => ?_⟩
    · rw [List.length_map]; exact List.length_pos_iff.2 nonempty
    · rw [List.length_map]; exact count
    · exact encode_fragment_length (hunits i hi).1 (hunits i hi).2
  obtain ⟨recs, reads, runs⟩ := execAll_fragments (s := s.bump .framesRcvd) hconf hfatal rfl hunits
  exact ⟨_, runs, exec_rxfrm_of_parsed hconf hfatal plain ((parseFrame_frameOf fits).trans reads)⟩

end Sys2Proof.Machine
end

section
/-! PROOFS. Reassembly (43_reassembly.md): what a sender's queue owes the receiver that stands where the sender left off, and how
ENQ and a lossless opportunity change it (R276). -/

namespace Sys2Proof.Machine

/-! ## The link as a relation of the queue

`Linked` and `owed` read nothing of the sender but TXQ, which is what the packing loop runs on. -/

/-- The receiver stands where a sender with this queue left off. -/
def QueueLinked (q : List TxEntry) (r : State) : Prop := Linked { State.reset with txq := q } r

/-- The packets that the receiver has still to deliver from a sender with this queue. -/
def queueOwed (q : List TxEntry) (r : State) : List Bytes := owed { State.reset with txq := q } r

/-- The sender's part of the link is its queue. -/
theorem linked_iff {a r : State} : Linked a r ↔ QueueLinked a.txq r := Iff.rfl

theorem owed_eq (a r : State) : owed a r = queueOwed a.txq r := rfl

section

variable {e : TxEntry} {rest : List TxEntry} {r : State}

theorem queueLinked_untouched (full : e.tag = .full) : QueueLinked (e :: rest) r ↔ r.raActive = false := by
  simp [QueueLinked, Linked, full]

theorem queueLinked_chain (chain : e.tag ≠ .full) :
    QueueLinked (e :: rest) r ↔ r.raActive = true ∧ r.raFid = e.fid ∧ r.raTotal = e.total ∧
      r.raBuf.length + e.data.length = e.total.toNat := by
  simp [QueueLinked, Linked, chain]

theorem queueOwed_untouched (full : e.tag = .full) : queueOwed (e :: rest) r = e.data :: rest.map TxEntry.data := by
  simp [queueOwed, owed, full]

theorem queueOwed_chain (chain : e.tag ≠ .full) :
    queueOwed (e :: rest) r = (r.raBuf ++ e.data) :: rest.map TxEntry.data := by
  simp [queueOwed, owed, chain]

end

/-- Untouched packets are linked to a receiver in IDLE. -/
theorem queueLinked_of_full {q : List TxEntry} (full : ∀ e ∈ q, e.tag = .full) (r : State) :
    QueueLinked q r ↔ r.raActive = false := by
  cases q with
  | nil => exact Iff.rfl
  | cons e rest => exact queueLinked_untouched (full e List.mem_cons_self)

/-- Untouched packets are owed as they are. -/
theorem queueOwed_of_full {q : List TxEntry} (full : ∀ e ∈ q, e.tag = .full) (r : State) :
    queueOwed q r = q.map TxEntry.data := by
  cases q with
  | nil => rfl
  | cons e rest => exact queueOwed_untouched (full e List.mem_cons_self)

/-! ## A packet accepted -/

/-- An untouched packet behind the queue is owed last. -/
theorem queueOwed_append {e : TxEntry} (full : e.tag = .full) (q : List TxEntry) (r : State) :
    queueOwed (q ++ [e]) r = queueOwed q r ++ [e.data] := by
  cases q with
  | nil => simp [queueOwed, owed, full]
  | cons front rest => simp [queueOwed, owed]

theorem QueueLinked.append {e : TxEntry} (full : e.tag = .full) {q : List TxEntry} {r : State} (h : QueueLinked q r) :
    QueueLinked (q ++ [e]) r := by
  cases q with
  | nil => exact (queueLinked_untouched full).2 h
  | cons front rest => exact h

/-- ENQ that answers 1 has appended its packet whole, and nothing else of the queue has changed (R190, R194). -/
theorem exec_enq_accepted {dest : BitVec 32} {data : Bytes} {a a1 : State} (hconf : a.configured = true)
    (hfatal : a.fatal = false) (ran : exec (.enq dest data) a = .next a1) (accepted : a1.out = a.out ++ [.resp .ok 1]) :
    a1.txq = a.txq ++ [⟨data, .full, a.now, dest, 0, BitVec.ofNat 16 data.length⟩] := by
  have hend : exec (.enq dest data) a = .next (finish a (enqRule dest data a)) :=
    congrArg _ (runCommand_of_running hconf hfatal (enqRule dest data))
  cases hend.symm.trans ran
  rcases enqRule_cases dest data a with ⟨-, e⟩ | ⟨-, e⟩ | ⟨-, -, -, e⟩ | ⟨-, -, -, e⟩ <;> rw [e] at accepted ⊢
  · simp [finish] at accepted
  · simp [finish] at accepted
  · simp [finish] at accepted
  · rfl

/-- Settles O27: the packet is appended behind the queue. -/
theorem acceptedPacketsAreOwedLast : Obligations.AcceptedPacketsAreOwedLast := by
  intro dest data a a1 r hconf hfatal linked ran accepted
  have appended := exec_enq_accepted hconf hfatal ran accepted
  rw [owed_eq, owed_eq, linked_iff, appended]
  exact ⟨queueOwed_append rfl a.txq r, (linked_iff.1 linked).append rfl⟩

end Sys2Proof.Machine
end

section
/-! PROOFS. Reassembly (43_reassembly.md): without loss every opportunity delivers a leading part of what is owed (R276). Each
turn of the packing loop is matched with the reassembly of the record that it packs. -/

namespace Sys2Proof.Machine

/-! ## Deliveries -/

/-- From `r` to `r1` the receiver emits the leading packets owed, counts no defect, and ends linked to the queue `q1` that `q` has
become. -/
structure Delivers (q q1 : List TxEntry) (r r1 : State) : Prop where
  packets : ∃ ps, r1.out = r.out ++ ps.map OutRec.pktOut ∧ queueOwed q r = ps ++ queueOwed q1 r1
  linked : QueueLinked q1 r1
  defects : r1.cnt.reasmDefect = r.cnt.reasmDefect

theorem Delivers.refl {q : List TxEntry} {r : State} (linked : QueueLinked q r) : Delivers q q r r :=
  ⟨⟨[], by simp, rfl⟩, linked, rfl⟩

theorem Delivers.trans {q q1 q2 : List TxEntry} {r r1 r2 : State} (h : Delivers q q1 r r1) (h' : Delivers q1 q2 r1 r2) :
    Delivers q q2 r r2 := by
  obtain ⟨ps, out, owes⟩ := h.packets
  obtain ⟨ps', out', owes'⟩ := h'.packets
  exact ⟨⟨ps ++ ps', by simp [out', out], by simp [owes, owes']⟩, h'.linked, h'.defects.trans h.defects⟩

/-! ## One record -/

/-- An entry is a whole packet that is untouched, or the rest of a chain (R27, R225). -/
theorem TxEntryLegal.untouched_or_mid {f : Family} {e : TxEntry} (h : TxEntryLegal f e) :
    (e.tag = .full ∧ e.mid = false ∧ e.data.length = e.total.toNat) ∨ (e.tag ≠ .full ∧ e.mid = true) := by
  obtain ⟨-, -, -, ⟨full, size⟩ | ⟨chain, -⟩⟩ := h
  · exact .inl ⟨full, by simp [TxEntry.mid, full], size⟩
  · refine .inr ⟨?_, ?_⟩ <;> rcases chain with h | h <;> simp [TxEntry.mid, h]

/-- The kinds of an untouched entry's record, emitted whole or split off (R220). -/
theorem TxEntry.kinds_of_untouched {e : TxEntry} (h : e.mid = false) : e.wholeKind = .full ∧ e.splitKind = .start := by
  simp [TxEntry.wholeKind, TxEntry.splitKind, h]

/-- The kinds of a mid-chain entry's record, emitted whole or split off (R220). -/
theorem TxEntry.kinds_of_mid {e : TxEntry} (h : e.mid = true) : e.wholeKind = .end_ ∧ e.splitKind = .cont := by
  simp [TxEntry.wholeKind, TxEntry.splitKind, h]

section

variable {f : Family} {e : TxEntry} {rest : List TxEntry} {r : State}

/-- The front entry emitted whole: a FULL delivers its packet, an END completes the chain (R222, R266, R269). -/
theorem Delivers.whole (hq : QueueLegal f (e :: rest)) (linked : QueueLinked (e :: rest) r) :
    Delivers (e :: rest) rest r (r.reassemble (kindRecord e.fid e.total e.data e.wholeKind)) := by
  have full : ∀ x ∈ rest, x.tag = .full := hq.2
  rcases (hq.1 e List.mem_cons_self).untouched_or_mid with ⟨untouched, notMid, -⟩ | ⟨chain, mid⟩
  · have idle := (queueLinked_untouched untouched).1 linked
    rw [(TxEntry.kinds_of_untouched notMid).1, kindRecord, State.reassemble_full, State.dropChain_of_idle idle]
    refine ⟨⟨[e.data], rfl, ?_⟩, (queueLinked_of_full full _).2 idle, rfl⟩
    rw [queueOwed_untouched untouched, queueOwed_of_full full]
    rfl
  · obtain ⟨active, fid, total, size⟩ := (queueLinked_chain chain).1 linked
    rw [(TxEntry.kinds_of_mid mid).1, kindRecord, State.reassemble_end active fid.symm (by rw [size, total])]
    refine ⟨⟨[r.raBuf ++ e.data], rfl, ?_⟩, (queueLinked_of_full full _).2 rfl, rfl⟩
    rw [queueOwed_chain chain, queueOwed_of_full full]
    rfl

/-- A piece split off the front entry: a START opens the chain, a CONTINUATION extends it, and no packet is complete (R223, R264,
R267). -/
theorem Delivers.split (he : TxEntryLegal f e) (linked : QueueLinked (e :: rest) r) (c : CfgBlock) (pay : Nat)
    (fidNext : BitVec 8) :
    Delivers (e :: rest) (packSplit c pay e rest fidNext).txq r
      (r.reassemble (kindRecord (if e.mid then e.fid else fidNext) e.total (e.data.take pay) e.splitKind)) := by
  have cut : (e.data.take pay).length + (e.data.drop pay).length = e.data.length := by
    rw [← List.length_append, List.take_append_drop]
  rcases he.untouched_or_mid with ⟨untouched, notMid, size⟩ | ⟨chain, mid⟩
  · have idle := (queueLinked_untouched untouched).1 linked
    rw [packSplit_of_untouched notMid, (TxEntry.kinds_of_untouched notMid).2, notMid, kindRecord,
      State.reassemble_start (by omega), State.dropChain_of_idle idle]
    refine ⟨⟨[], (List.append_nil _).symm, ?_⟩, ?_, rfl⟩
    · rw [queueOwed_untouched untouched, queueOwed_chain (by simp)]
      simp
    · exact (queueLinked_chain (by simp)).2 ⟨rfl, rfl, rfl, cut.trans size⟩
  · obtain ⟨active, fid, total, size⟩ := (queueLinked_chain chain).1 linked
    rw [packSplit_of_mid mid, (TxEntry.kinds_of_mid mid).2, if_pos mid, kindRecord,
      State.reassemble_cont active fid.symm (by rw [total]; omega)]
    refine ⟨⟨[], (List.append_nil _).symm, ?_⟩, ?_, rfl⟩
    · rw [queueOwed_chain chain, queueOwed_chain (by simp)]
      simp
    · refine (queueLinked_chain (by simp)).2 ⟨active, fid, total, ?_⟩
      rw [List.length_append, Nat.add_assoc, cut, size]

end

/-! ## One opportunity -/

/-- The receiver reads the fragments of a run of the loop, and reassembling them delivers what the loop takes off the queue. -/
theorem packLoop_delivers {c : CfgBlock} (valid : cfgFirstBad c = none) {q : List TxEntry}
    (hq : QueueLegal (cfgFamily c) q) (avail n : Nat) {fidNext : BitVec 8} (hfid : fidNext.toNat < (cfgFamily c).fidMod)
    {r : State} (linked : QueueLinked q r) :
    ∃ recs, deserializeAll (cfgFamily c) (packLoop c q avail n fidNext).frags = some recs ∧
      Delivers q (packLoop c q avail n fidNext).txq r (r.reassembleAll recs) := by
  induction q generalizing avail n r with
  | nil => exact ⟨[], rfl, .refl linked⟩
  | cons e rest ih =>
    have front : TxEntryLegal (cfgFamily c) e := hq.1 e List.mem_cons_self
    have ⟨pos, _, fid, _⟩ := front
    rcases packLoop_cons c e rest avail n fidNext with ⟨-, h⟩ | ⟨-, fits, p, rfl, h⟩ | ⟨-, -, pays, h⟩ <;> rw [h]
    · exact ⟨[], rfl, .refl linked⟩
    · obtain ⟨cap, -⟩ := wholeFits_iff.1 fits
      have taken := Delivers.whole hq linked
      obtain ⟨recs, read, later⟩ :=
        ih hq.tail (avail - (4 + overhead (cfgFamily c) e.wholeKind + e.data.length)) (n + 1) taken.linked
      exact ⟨_, deserializeAll_cons (deserialize_serialize valid front fid pos (by omega)) read, taken.trans later⟩
    · obtain ⟨-, cap, within⟩ := splitSize_bounds pays
      have piece : (e.data.take (splitSize c avail e)).length = splitSize c avail e := List.length_take_of_le within.le
      have used : (if e.mid then e.fid else fidNext).toNat < (cfgFamily c).fidMod := by split <;> assumption
      exact ⟨_, deserializeAll_cons (deserialize_serialize valid front used (by omega) (by omega)) rfl,
        Delivers.split front linked c _ fidNext⟩

/-- A frame built on a legal queue parses, and reassembling its records delivers what BuildFrame takes off the queue (R276). -/
theorem State.buildFrame_delivers {b : Nat} {a a1 r : State} {f : Bytes} (valid : cfgFirstBad a.cfg = none)
    (legal : TxqLegal a) (built : a.buildFrame b = some (f, a1)) (linked : Linked a r) :
    ∃ recs, parseFrame a.family f = some recs ∧ Delivers a.txq a1.txq r (r.reassembleAll recs) := by
  obtain ⟨p, rfl, -, nonempty, rfl, rfl⟩ := State.buildFrame_some built
  obtain ⟨queue, -, fid⟩ := txqLegal_iff.1 legal
  obtain ⟨recs, read, delivers⟩ := packLoop_delivers valid queue (b - 1) 0 fid (linked_iff.1 linked)
  exact ⟨recs, (parseFrame_frameOf (packLoop_fragsFit valid nonempty)).trans read, delivers⟩

/-- A plain TXOPP that answers a frame is BuildFrame's, and leaves its queue (R230). -/
theorem exec_txopp_sent {b : BitVec 32} {f : Bytes} {left : Reg64} {a a1 : State} (hconf : a.configured = true)
    (hfatal : a.fatal = false) (plain : a.arq = false) (ran : exec (.txopp b) a = .next a1)
    (sent : a1.out = a.out ++ [.frameOut true f left, .resp .ok 0]) :
    ∃ s, a.buildFrame b.toNat = some (f, s) ∧ a1.txq = s.txq := by
  cases (plainTxoppSendsTheBuiltFrameOrNothing b a hconf hfatal plain).symm.trans ran
  cases built : a.buildFrame b.toNat with
  | none => simp [built] at sent
  | some fs =>
    obtain ⟨g, s⟩ := fs
    obtain ⟨same, -⟩ : g = f ∧ BitVec.ofNat 64 (txqBytes s.txq) = left := by simpa [built] using sent
    exact ⟨s, by rw [same], rfl⟩

/-- Settles O26: the frame is BuildFrame's, so it parses and its records deliver what BuildFrame takes off the queue. -/
theorem losslessOpportunityDeliversWhatIsOwed : Obligations.LosslessOpportunityDeliversWhatIsOwed := by
  intro b f left a a1 r hconf hfatal plain valid legal hconf' hfatal' plain' hfamily linked ran sent
  obtain ⟨s, built, htxq⟩ := exec_txopp_sent hconf hfatal plain ran sent
  obtain ⟨recs, parsed, delivers⟩ :=
    State.buildFrame_delivers (r := r.bump .framesRcvd) valid legal built linked
  rw [← hfamily] at parsed
  obtain ⟨ps, out, owes⟩ := delivers.packets
  refine ⟨_, ps, exec_rxfrm_of_parsed hconf' hfatal' plain' parsed, ?_, ?_, ?_, delivers.defects, ?_⟩
  · rw [State.respond_out, out]
    rfl
  · rw [owed_eq, owed_eq, htxq]
    exact owes
  · rw [linked_iff, htxq]
    exact delivers.linked
  · exact State.reassembleAll_rxMalformed recs (r.bump .framesRcvd)

end Sys2Proof.Machine
end

section
/-! PROOFS. ARQ (44_arq.md), the sender: when a number is available (R301), the TXOPP of the ARQ variants (R309 to R313), what an
ACK releases (R330 to R332), and the retransmission timeout (R320 to R322). -/

namespace Sys2Proof.Machine

/-! ## The window -/

/-- What holds of every context in flight, TXD's and RTXQ's, is said of the numbers. -/
theorem State.forall_numbers {s : State} {P : Seq → Prop} : (∀ x ∈ s.numbers, P x) ↔ ∀ c ∈ s.txd ++ s.rtxq, P c.seq := by
  rw [State.numbers, ← List.map_append, List.forall_mem_map]

/-- INFLIGHT has the numbers of TXD and RTXQ, each once (R33). -/
theorem State.mem_inflight {s : State} {x : Seq} : x ∈ s.inflight ↔ x ∈ s.numbers := List.mem_dedup

theorem State.length_inflight (s : State) : s.inflight.length = s.numbers.toFinset.card :=
  (List.card_toFinset s.numbers).symm

/-- Settles O15: INFLIGHT lists each number of TXD and RTXQ once, so its length counts the different ones. -/
theorem availabilityFollowsTheWindowMode : Obligations.AvailabilityFollowsTheWindowMode := by
  intro s
  by_cases distance : s.cfg.windowMode = 0
  · have mode : s.distanceMode = true := by simp [State.distanceMode, distance]
    rw [if_pos distance, State.available, if_pos mode, List.all_eq_true]
    simp only [State.mem_inflight, decide_eq_true_eq]
    exact State.forall_numbers
  · have mode : ¬ s.distanceMode = true := by simpa [State.distanceMode] using distance
    rw [if_neg distance, State.available, if_neg mode, State.length_inflight]
    have absent : (!s.inflight.contains s.seqNext) = true ↔ ∀ c ∈ s.txd ++ s.rtxq, c.seq ≠ s.seqNext := by
      rw [← State.forall_numbers (P := (· ≠ s.seqNext)), Bool.not_eq_true', List.contains_eq_mem,
        decide_eq_false_iff_not, State.mem_inflight]
      exact ⟨fun fresh x hx e => fresh (e ▸ hx), fun other mem => other _ mem rfl⟩
    rw [Bool.and_eq_true, decide_eq_true_eq, absent]
    rfl

/-! ## TXOPP -/

/-- In CONFIGURED an ARQ TXOPP ends as its rule does (R91, R413). -/
theorem exec_txoppArq {s : State} (hconf : s.configured = true) (hfatal : s.fatal = false) (arq : s.arq = true)
    (b : BitVec 32) : exec (.txoppArq b) s = .next (finish s (txoppArqRule b.toNat s)) := by
  have rule : txoppRule b s = txoppArqRule b.toNat s := by simp [txoppRule, arq]
  rw [← rule]
  exact congrArg _ (runCommand_of_running hconf hfatal (txoppRule b))

/-- In an ARQ variant `bytes_left` is TXBUF_BYTES + RTXQ_BYTES (R313). -/
theorem State.bytesLeft_of_arq {s : State} (arq : s.arq = true) :
    s.bytesLeft = BitVec.ofNat 64 (txqBytes s.txq + (s.rtxq.map (fun c => c.pdu.length)).sum) := by
  simp [State.bytesLeft, arq, State.txbufBytes, State.rtxqBytes]

/-- How an opportunity of an ARQ variant ends, with a PDU or without: one event counted, FrameOut with the bytes of new and of
waiting data, and the response (R309, R313). -/
theorem finish_opportunity_arq {t : State} (arq : t.arq = true) (s : State) (k : Counter) (present : Bool) (frame : Bytes) :
    finish s (.done ((t.bump k).emit (.frameOut present frame (t.bump k).bytesLeft)) 0) =
      { t with
        cnt := t.cnt.bump k
        out := t.out ++ [.frameOut present frame
          (BitVec.ofNat 64 (txqBytes t.txq + (t.rtxq.map (fun c => c.pdu.length)).sum)), .resp .ok 0] } := by
  have left := State.bytesLeft_of_arq (s := t.bump k) arq
  simp only [finish, State.respond, State.emit, left, List.append_assoc]
  rfl

/-- New data, where a number is available and BuildFrame returns a frame (R311). -/
theorem sendNew_of_built {b : Nat} {s s1 : State} {f : Bytes} (available : s.available = true) (pos : 1 ≤ b)
    (built : s.buildFrame (b - 1) = some (f, s1)) :
    sendNew b s = sendFrame (s.seqNext :: f)
      (({ s1 with seqNext := s.seqNext + 1 } : State).transmit ⟨s.seqNext, s.seqNext :: f, 0⟩) := by
  rw [sendNew, if_pos ⟨available, pos⟩, built]
  rfl

/-- No new data (R312). -/
theorem sendNew_of_nothing {b : Nat} {s : State}
    (nothing : s.available = false ∨ b = 0 ∨ s.buildFrame (b - 1) = none) : sendNew b s = nullOpportunity s := by
  unfold sendNew
  split
  case isTrue may =>
    obtain ⟨available, pos⟩ := may
    rcases nothing with h | h | h
    · simp [h] at available
    · omega
    · rw [h]
  case isFalse => rfl

/-- With no head of RTXQ that fits, the opportunity is for new data (R309). -/
theorem txoppArqRule_of_no_resend {b : Nat} {s : State} (unfit : ∀ c, s.rtxq.head? = some c → b < c.pdu.length) :
    txoppArqRule b s = sendNew b s := by
  unfold txoppArqRule
  split
  next c rest waiting => rw [if_neg (Nat.not_le.2 (unfit c (by rw [waiting]; rfl)))]
  next => rfl

/-- Settles O13: the rule's three branches, BuildFrame writing TXQ and FRAG_ID_NEXT only. -/
theorem arqTxoppResendsFirstThenSendsNew : Obligations.ArqTxoppResendsFirstThenSendsNew := by
  intro b s hconf hfatal arq
  rw [exec_txoppArq hconf hfatal arq b]
  refine ⟨fun c rest waiting fits => ?resend, fun unfit => ⟨fun f s1 available pos built => ?new, fun nothing => ?null⟩⟩
  case resend =>
    have rule : txoppArqRule b.toNat s = resend c rest s := by simp [txoppArqRule, waiting, fits]
    rw [rule]
    exact congrArg _ (finish_opportunity_arq
      (t := (({ s with rtxq := rest } : State).transmit { c with count := c.count + 1 }).bump .rtxSent) arq s
      .framesSent true c.pdu)
  case new =>
    rw [txoppArqRule_of_no_resend unfit, sendNew_of_built available pos built]
    obtain ⟨p, -, -, -, -, rfl⟩ := State.buildFrame_some built
    exact congrArg _ (finish_opportunity_arq
      (t := ({ s with txq := p.txq, fragIdNext := p.fragIdNext, seqNext := s.seqNext + 1 } : State).transmit
        ⟨s.seqNext, s.seqNext :: f, 0⟩) arq s .framesSent true (s.seqNext :: f))
  case null =>
    rw [txoppArqRule_of_no_resend unfit, sendNew_of_nothing nothing]
    exact congrArg _ (finish_opportunity_arq arq s .nullOpp false [])

/-! ## RXACK -/

/-- In CONFIGURED RXACK ends as its rule does (R413). -/
theorem exec_rxack {s : State} (hconf : s.configured = true) (hfatal : s.fatal = false) (q : Seq) (flow : BitVec 8) :
    exec (.rxack q flow) s = .next (finish s (rxackRule q flow s)) :=
  congrArg _ (runCommand_of_running hconf hfatal (rxackRule q flow))

/-- Settles O34: the three ends of the rule, each where the chain's tests say. -/
theorem rxackReleasesOrIgnores : Obligations.RxackReleasesOrIgnores := by
  intro q flow s hconf hfatal
  rw [exec_rxack hconf hfatal]
  rcases rxackRule_cases q flow s with
    ⟨absent, e⟩ | ⟨arq, own, inTxd, e⟩ | ⟨arq, own, notTxd, inRtxq, e⟩ <;> rw [e]
  · have notTxd : ¬ (s.arq = true ∧ flow = s.cfg.flowId ∧ ∃ c ∈ s.txd, c.seq = q) := by
      rintro ⟨arq, own, c, hc, hq⟩
      rcases absent with plain | other | ⟨none, -⟩
      · simp [plain] at arq
      · exact other own
      · exact none c hc hq
    have notRtxq : ¬ (s.arq = true ∧ flow = s.cfg.flowId ∧ ∃ c ∈ s.rtxq, c.seq = q) := by
      rintro ⟨arq, own, c, hc, hq⟩
      rcases absent with plain | other | ⟨-, none⟩
      · simp [plain] at arq
      · exact other own
      · exact none c hc hq
    rw [if_neg notTxd, if_neg notRtxq]
    rfl
  · rw [if_pos ⟨arq, own, inTxd⟩]
    rfl
  · rw [if_neg fun ⟨_, _, c, hc, hq⟩ => notTxd c hc hq, if_pos ⟨arq, own, inRtxq⟩]
    rfl

/-- Settles O35: the message and RXACK run one rule, which has three ends. -/
theorem ackMessagesCompleteAsRxack : Obligations.AckMessagesCompleteAsRxack := by
  intro q flow s hconf hfatal
  have unit : exec (.ackMsg q flow) s = .next (finishUnit s (rxackRule q flow s)) :=
    congrArg _ (runUnit_of_running hconf hfatal (rxackRule q flow))
  rw [unit, exec_rxack hconf hfatal]
  rcases rxackRule_cases q flow s with ⟨-, e⟩ | ⟨-, -, -, e⟩ | ⟨-, -, -, -, e⟩ <;> rw [e]
  · exact ⟨_, 0, rfl, rfl, rfl, .inl rfl⟩
  · exact ⟨_, 1, rfl, rfl, rfl, .inr rfl⟩
  · exact ⟨_, 1, rfl, rfl, rfl, .inr rfl⟩

/-! ## An ACK releases once -/

/-- Removing a key that one entry has takes just that key out. -/
theorem map_perm_cons_mapErase {α : Type} {key : α → Seq} {k : Seq} {l : List α} (nodup : (l.map key).Nodup)
    (mem : ∃ a ∈ l, key a = k) : (l.map key).Perm (k :: (mapErase key k l).map key) := by
  have erased : (mapErase key k l).map key = (l.map key).erase k := by
    rw [nodup.erase_eq_filter, List.filter_map]
    rfl
  rw [erased]
  exact List.perm_cons_erase (List.mem_map.2 mem)

/-- From `s` to `t` the number `q` leaves the buffers with its timer, and the setting stays (R331). -/
structure Releases (q : Seq) (s t : State) : Prop where
  setting : SameSetting s t
  numbers : s.numbers.Perm (q :: t.numbers)
  unguarded : ∀ u ∈ t.tmr, u.guards .rtx q = false

/-- An ACK that answers 1 releases its number (R330, R331). -/
theorem exec_rxack_accepted {q : Seq} {flow : BitVec 8} {s t : State} (hconf : s.configured = true)
    (hfatal : s.fatal = false) (nodup : s.numbers.Nodup) (timers : TimersLegal s) (ran : exec (.rxack q flow) s = .next t)
    (accepted : t.out = s.out ++ [.resp .ok 1]) : Releases q s t := by
  cases (exec_rxack hconf hfatal q flow).symm.trans ran
  obtain ⟨uniqueTxd, uniqueRtxq, -⟩ := List.nodup_append.1 nodup
  rcases rxackRule_cases q flow s with
    ⟨-, e⟩ | ⟨-, -, inTxd, e⟩ | ⟨-, -, notTxd, inRtxq, e⟩ <;> rw [e] at accepted ⊢
  · simp [finish] at accepted
  · refine ⟨.refl s, (map_perm_cons_mapErase uniqueTxd inTxd).append_right _, fun u hu => ?_⟩
    simpa using not_guards_iff.2 (State.mem_cancel_tmr.1 hu).2
  · refine ⟨.refl s, ((map_perm_cons_mapErase uniqueRtxq inRtxq).append_left _).trans List.perm_middle, fun u hu => ?_⟩
    have unguarded : ¬ (u.kind = .rtx ∧ u.seq = q) := fun ⟨kind, seq⟩ => by
      obtain ⟨c, hc, hq⟩ := ((timersLegal_iff.1 timers).1.guards .rtx q).1 ⟨u, hu, kind, seq⟩
      exact notTxd c hc hq
    simpa using not_guards_iff.2 unguarded

/-- An ACK for a number that is not in flight only counts (R330). -/
theorem exec_rxack_absent {q : Seq} {flow : BitVec 8} {s : State} (hconf : s.configured = true) (hfatal : s.fatal = false)
    (absent : q ∉ s.numbers) : exec (.rxack q flow) s = .next { s with
      cnt := { s.cnt with ackIgnored := s.cnt.ackIgnored + 1 }, out := s.out ++ [.resp .ok 0] } := by
  have notTxd : ¬ ∃ c ∈ s.txd, c.seq = q := fun h => absent (List.mem_append_left _ (List.mem_map.2 h))
  have notRtxq : ¬ ∃ c ∈ s.rtxq, c.seq = q := fun h => absent (List.mem_append_right _ (List.mem_map.2 h))
  rw [rxackReleasesOrIgnores q flow s hconf hfatal, if_neg (fun h => notTxd h.2.2), if_neg (fun h => notRtxq h.2.2)]

/-- Settles O36: the numbers in flight are those left and the one released, each once, so the second ACK finds nothing. -/
theorem anAckReleasesExactlyOnce : Obligations.AnAckReleasesExactlyOnce := by
  intro q flow s t hconf hfatal sender timers ran accepted
  obtain ⟨-, ⟨nodup, -⟩, -⟩ := senderLegal_iff.1 sender
  obtain ⟨⟨-, -, status, -⟩, numbers, unguarded⟩ := exec_rxack_accepted hconf hfatal nodup timers ran accepted
  obtain ⟨absent, nodup'⟩ := List.nodup_cons.1 (numbers.nodup_iff.1 nodup)
  rw [State.mem_inflight, State.mem_inflight, State.inflight_eq_numbers nodup, State.inflight_eq_numbers nodup']
  refine ⟨numbers.symm.subset List.mem_cons_self, absent, numbers.length_eq.symm, unguarded, ?_⟩
  exact exec_rxack_absent (by rwa [State.configured, status]) (by rwa [State.fatal, status]) absent

/-! ## The retransmission timeout -/

/-- Settles O37: the handler's ends. -/
theorem retransmissionTimeoutsRequeueOrGiveUp : Obligations.RetransmissionTimeoutsRequeueOrGiveUp := by
  intro q s
  refine ⟨fun absent => ?_, fun c found => ?_⟩
  · rw [onRtxExpiry, absent]
  · rw [onRtxExpiry, found]
    rfl

end Sys2Proof.Machine
end

section
/-! PROOFS. ARQ (44_arq.md), the receiver: the ARQ RXFRM and the PDU unit (R340, R343), InOrder (R341), Drain (R344) and the Rx
waiting timeout (R345). -/

namespace Sys2Proof.Machine

/-! ## The ARQ RXFRM -/

/-- In CONFIGURED an ARQ RXFRM ends as its rule does (R91, R413). -/
theorem exec_rxfrmArq {s : State} (hconf : s.configured = true) (hfatal : s.fatal = false) (arq : s.arq = true)
    (pdu : Bytes) : exec (.rxfrmArq pdu) s = .next (finish s (rxfrmArqRule pdu s)) := by
  have rule : rxfrmRule pdu s = rxfrmArqRule pdu s := by simp [rxfrmRule, arq]
  rw [← rule]
  exact congrArg _ (runCommand_of_running hconf hfatal (rxfrmRule pdu))

/-- A malformed PDU is only counted (R340). -/
theorem rxfrmArqRule_malformed {pdu : Bytes} {s : State} (malformed : parsePdu s.family pdu = none) :
    rxfrmArqRule pdu s = .done (s.bump .rxMalformed) 0 := by
  rw [rxfrmArqRule, malformed]

/-- ERR_INFO of STALE_SEQ as a number (R401). -/
theorem staleInfo_eq (ne q : Seq) : staleInfo ne q = BitVec.ofNat 64 (ne.toNat * 256 + q.toNat) := by
  apply BitVec.eq_of_toNat_eq
  rw [staleInfo, toNat_append_eq, toNat_append_eq, BitVec.toNat_ofNat]
  have := ne.isLt
  have := q.isLt
  simp
  omega

/-- STALE_POLICY is FATAL where its code is 1 (R10). -/
theorem State.staleFatal_iff {s : State} : s.staleFatal = true ↔ s.cfg.stalePolicy = 1 := by simp [State.staleFatal]

theorem seqDist_eq_zero_iff {n q : Seq} : seqDist n q = 0 ↔ q = n :=
  ⟨eq_of_seqDist_eq_zero, fun e => by rw [e, seqDist_self]⟩

/-- Settles O29: the rule's ends, each where the chain's tests say. -/
theorem arqRxfrmAcknowledgesAndClassifies : Obligations.ArqRxfrmAcknowledgesAndClassifies := by
  intro pdu s hconf hfatal arq
  rw [exec_rxfrmArq hconf hfatal arq]
  refine ⟨fun malformed => by rw [rxfrmArqRule_malformed malformed]; rfl, fun q recs parsed => ?_⟩
  rcases rxfrmArqRule_cases pdu s with ⟨malformed, -⟩ | ⟨q', recs', parsed', outcome⟩
  · rw [malformed] at parsed
    cases parsed
  cases parsed'.symm.trans parsed
  intro acked info
  have code : staleInfo s.ne q = info := staleInfo_eq s.ne q
  have distance : (q - s.ne).toNat = seqDist s.ne q := rfl
  rw [distance]
  rcases outcome with ⟨behind, policy, e⟩ | ⟨behind, policy, e⟩ | ⟨front, e⟩ | ⟨pos, near, e⟩ <;> rw [e]
  · rw [if_pos ⟨behind, State.staleFatal_iff.1 policy⟩, code]
    rfl
  · have discard : ¬ s.cfg.stalePolicy = 1 := fun fatal => by simp [State.staleFatal_iff.2 fatal] at policy
    rw [if_neg fun stale => discard stale.2, if_pos behind]
    rfl
  · have zero : seqDist s.ne q = 0 := seqDist_eq_zero_iff.2 front
    rw [if_neg (by omega), if_neg (by omega), if_pos front]
    rfl
  · have ahead : q ≠ s.ne := fun front => by rw [seqDist_eq_zero_iff.2 front] at pos; omega
    rw [if_neg (by omega), if_neg (by omega), if_neg ahead]
    rfl

/-- A well-formed PDU with the number expected is acknowledged and in order (R340). -/
theorem rxfrmArqRule_inOrder {frame : Bytes} {recs : List FragRec} {s : State}
    (parsed : parseFrame s.family frame = some recs) :
    rxfrmArqRule (s.ne :: frame) s = .done (inOrder recs (acknowledge s.ne s)) 0 := by
  simp [rxfrmArqRule, parsePdu_cons, parsed]

/-- Settles O30: the unit and the RXFRM of its bytes run one rule. -/
theorem pduUnitsCompleteAsTheirRxfrm : Obligations.PduUnitsCompleteAsTheirRxfrm := by
  intro q frame s hconf hfatal arq
  have unit : runUnit (rxfrmRule (q :: frame)) s = finishUnit s (rxfrmArqRule (q :: frame) s) := by
    rw [runUnit_of_running hconf hfatal, rxfrmRule, if_pos arq]
  obtain ⟨code, value, responds⟩ := runCommand_eq_respond hconf hfatal (rxfrmRule (q :: frame))
  refine ⟨_, code, value, rfl, congrArg Host.Outcome.next responds, fun malformed => ?_, ?_⟩
  · refine unit.trans ?_
    rw [rxfrmArqRule_malformed (by rw [parsePdu_cons, malformed]; rfl)]
    rfl
  · rintro recs parsed rfl
    refine unit.trans ?_
    rw [rxfrmArqRule_inOrder parsed]
    rfl

/-! ## InOrder -/

/-- Settles O31: what ROB has at NE goes first, and draining only removes entries and arms nothing. -/
theorem inOrderPdusAreReassembledAtOnce : Obligations.InOrderPdusAreReassembledAtOnce := by
  intro recs s s1 s2
  have front : (mapFind RobEntry.seq s.ne s.rob).isSome = true ↔ ∃ e ∈ s.rob, e.seq = s.ne := mapFind_isSome
  have ne : s1.ne = s.ne := by simp only [s1]; split <;> rfl
  have rob : ∀ e ∈ s1.rob, e.seq ≠ s.ne := by
    simp only [s1]
    split
    next => exact fun e he => (mem_mapErase.1 he).2
    next absent => exact fun e he front => absent ⟨e, he, front⟩
  have drains : inOrder recs s = State.drain { s2 with ne := s.ne + 1 } := by
    have advanced : (s1.reassembleAll recs).ne + 1 = s.ne + 1 := by rw [State.reassembleAll_ne, ne]
    rw [← advanced]
    simp only [inOrder, front]
    rfl
  refine ⟨drains, fun e he => ?_, fun present t ht => ?_⟩
  · rw [drains] at he
    have kept : e ∈ (s1.reassembleAll recs).rob := State.drain_rob_subset { s2 with ne := s.ne + 1 } e he
    rw [State.reassembleAll_rob] at kept
    exact rob e kept
  · rw [drains, State.drain_tmr] at ht
    have kept : t ∈ (s1.reassembleAll recs).tmr := ht
    rw [State.reassembleAll_tmr] at kept
    simp only [s1, if_pos present] at kept
    simpa using not_guards_iff.2 (State.mem_cancel_tmr.1 kept).2

/-! ## Drain -/

/-- Fewer entries in the same order are in canonical form too. -/
theorem KeysRise.sublist {α : Type} {key : α → Seq} {l l' : List α} (h : KeysRise key l) (hl : l'.Sublist l) :
    KeysRise key l' := List.Pairwise.sublist (hl.map _) h

/-- Reassembly reads neither NE nor ROB. -/
theorem State.reassembleAll_with_rob (recs : List FragRec) (s : State) (ne : Seq) (rob : List RobEntry) :
    ({ s with ne := ne, rob := rob } : State).reassembleAll recs = { s.reassembleAll recs with ne := ne, rob := rob } := by
  refine (State.reassembleAll_rob_comm recs s ne rob s.tmr).trans ?_
  simp only [State.reassembleAll_tmr]

/-- From `s` to `t` the entries `passed` have been delivered: received ones, numbered from NE on, whose fragments are reassembled
in that order, and which ROB has no more (R344). -/
structure Drained (passed : List RobEntry) (s t : State) : Prop where
  run : ∀ i (h : i < passed.length),
    passed[i] ∈ s.rob ∧ passed[i].received = true ∧ passed[i].seq = s.ne + BitVec.ofNat 8 i
  ne : t.ne = s.ne + BitVec.ofNat 8 passed.length
  rob : t.rob = s.rob.filter (fun e => !passed.contains e)
  rest : t = { s.reassembleAll (passed.flatMap RobEntry.frags) with ne := t.ne, rob := t.rob }

theorem Drained.refl (s : State) : Drained [] s s where
  run i h := by simp at h
  ne := by simp
  rob := by simp
  rest := rfl

/-- One more turn of the drain. -/
theorem Drained.turn {passed : List RobEntry} {s t : State} {e : RobEntry} (rise : KeysRise RobEntry.seq s.rob)
    (h : Drained passed s t) (found : mapFind RobEntry.seq t.ne t.rob = some e) (received : e.received = true) :
    Drained (passed ++ [e]) s
      { t.reassembleAll e.frags with ne := t.ne + 1, rob := mapErase RobEntry.seq t.ne t.rob } := by
  obtain ⟨mem, front⟩ := mapFind_some found
  have stored : e ∈ s.rob := by rw [h.rob] at mem; exact (List.mem_filter.1 mem).1
  refine ⟨fun i hi => ?run, ?ne, ?rob, ?rest⟩
  case run =>
    rw [List.length_append, List.length_singleton] at hi
    by_cases earlier : i < passed.length
    · rw [List.getElem_append_left earlier]
      exact h.run i earlier
    · have last : i = passed.length := by omega
      subst last
      rw [List.getElem_concat_length rfl]
      exact ⟨stored, received, front.trans h.ne⟩
  case ne =>
    rw [List.length_append, List.length_singleton, BitVec.ofNat_add, ← BitVec.add_assoc, ← h.ne]
    rfl
  case rob =>
    have same : ∀ x ∈ s.rob, (x.seq = t.ne ↔ x = e) := fun x hx =>
      ⟨fun seq => rise.unique hx stored (seq.trans front.symm), fun same => same ▸ front⟩
    rw [mapErase, h.rob, List.filter_filter]
    refine List.filter_congr fun x hx => Bool.eq_iff_iff.2 ?_
    simp [same x hx, and_comm]
  case rest =>
    have reads := (congrArg (State.reassembleAll e.frags) h.rest).trans (State.reassembleAll_with_rob ..)
    rw [List.flatMap_append, List.flatMap_singleton, State.reassembleAll_append, reads]

/-- Settles O32: a run of entries has been passed after every turn, and the last turn ends at a gap. -/
theorem drainStopsAtTheFirstGap : Obligations.DrainStopsAtTheFirstGap := by
  intro s rise
  obtain ⟨passed, drained⟩ : ∃ passed, Drained passed s s.drain :=
    State.drain_induct (P := fun t => ∃ passed, Drained passed s t)
      (fun t e found received ⟨passed, h⟩ => ⟨passed ++ [e], h.turn rise found received⟩) ⟨[], .refl s⟩
  have rise' : KeysRise RobEntry.seq s.drain.rob := by
    rw [drained.rob]
    exact rise.sublist List.filter_sublist
  refine ⟨fun e he front => s.drain_ends e ((mapFind_eq_some rise').2 ⟨he, front⟩), _, passed, rfl, drained.run, drained.ne,
    _, rfl, drained.rest, drained.rob⟩

/-! ## The Rx waiting timeout -/

/-- Settles O38: the handler's ends. -/
theorem rxWaitExpiryForcesTheGapThrough : Obligations.RxWaitExpiryForcesTheGapThrough := by
  intro k s
  refine ⟨fun noPlaceholder => ?_, fun e found placeholder => ?_⟩
  · rcases onRxwExpiry_cases k s with ⟨-, e⟩ | ⟨x, found, placeholder, -⟩
    · exact e
    · rw [noPlaceholder x found] at placeholder
      cases placeholder
  · rw [onRxwExpiry, found]
    simp only [placeholder]
    rfl

end Sys2Proof.Machine
end

section
/-! PROOFS. ARQ (44_arq.md), the receiver: a PDU ahead of NE is stored, and the numbers missing below it are awaited (R342). -/

namespace Sys2Proof.Machine

/-! ## The gap -/

/-- The Rx waiting timers of a gap: armed now in the order of the numbers, with rising stamps. -/
def gapTimers (s : State) (gap : List Seq) : List Timer :=
  gap.mapIdx (fun j k => ⟨.rxw, k, s.now.toNat + s.cfg.tRxwait.toNat, s.stampNext + j⟩)

/-- From `s` to `t` ROB has got a placeholder for each number of the gap, and TMR their timers; nothing else is written (R342). -/
structure Awaits (gap : List Seq) (s t : State) : Prop where
  lookup : ∀ k, mapFind RobEntry.seq k t.rob = if k ∈ gap then some ⟨k, false, []⟩ else mapFind RobEntry.seq k s.rob
  timers : (∀ u ∈ s.tmr, u.kind = .rxw → u.seq ∉ gap) → t.tmr = s.tmr ++ gapTimers s gap
  rest : t = { s with rob := t.rob, tmr := t.tmr, stampNext := s.stampNext + gap.length }

theorem Awaits.refl (s : State) : Awaits [] s s where
  lookup k := by simp
  timers _ := by simp [gapTimers]
  rest := rfl

/-- A first missing number `k` before a gap. -/
theorem Awaits.cons {gap : List Seq} {s t : State} {k : Seq} (rise : KeysRise RobEntry.seq s.rob)
    (absent : mapFind RobEntry.seq k s.rob = none) (fresh : k ∉ gap) (h : Awaits gap (placeholder s k) t) :
    Awaits (k :: gap) s t := by
  rcases placeholder_cases s k with ⟨present, -⟩ | ⟨-, e⟩
  · simp [absent] at present
  rw [e] at h
  obtain ⟨lookup, timers, rest⟩ := h
  refine ⟨fun j => ?_, fun unguarded => ?_, ?_⟩
  · rw [lookup, mapFind_mapInsert rise]
    by_cases later : j ∈ gap
    · rw [if_pos later, if_pos (List.mem_cons_of_mem k later)]
    · simp only [later, if_false, List.mem_cons, or_false, eq_comm]
      split
      next same => rw [same]
      next => rfl
  · have kept : s.tmr.filter (fun u => !u.guards .rxw k) = s.tmr :=
      List.filter_eq_self.2 fun u hu => not_guards_iff.2 fun ⟨kind, seq⟩ =>
        unguarded u hu kind (seq ▸ List.mem_cons_self)
    rw [kept] at timers
    rw [timers ?_, gapTimers, gapTimers, List.mapIdx_cons, List.append_assoc]
    · simp only [List.singleton_append, Nat.add_zero, Nat.add_assoc, Nat.add_comm 1]
    · intro u hu kind
      rcases List.mem_append.1 hu with hu | hu
      · exact fun mem => unguarded u hu kind (List.mem_cons_of_mem k mem)
      · rw [List.mem_singleton.1 hu]
        exact fresh
  · rw [rest]
    simp only [List.length_cons, Nat.add_assoc, Nat.add_comm 1]

/-- The numbers of a list that ROB has no entry for. -/
def missing (rob : List RobEntry) (ks : List Seq) : List Seq :=
  ks.filter (fun k => !(mapFind RobEntry.seq k rob).isSome)

/-- An entry for a number not in the list makes none of the list's present. -/
theorem missing_mapInsert {rob : List RobEntry} (rise : KeysRise RobEntry.seq rob) {e : RobEntry} {ks : List Seq}
    (other : e.seq ∉ ks) : missing (mapInsert RobEntry.seq e rob) ks = missing rob ks := by
  refine List.filter_congr fun k hk => ?_
  rw [mapFind_mapInsert rise, if_neg fun same : e.seq = k => other (same ▸ hk)]

/-- The placeholders of a list of numbers await exactly those of them that are missing. -/
theorem placeholders_await {ks : List Seq} (nodup : ks.Nodup) {s : State} (rise : KeysRise RobEntry.seq s.rob) :
    Awaits (missing s.rob ks) s (ks.foldl placeholder s) := by
  induction ks generalizing s with
  | nil => exact .refl s
  | cons k ks ih =>
    obtain ⟨fresh, nodup⟩ := List.nodup_cons.1 nodup
    rw [List.foldl_cons]
    rcases placeholder_cases s k with ⟨present, e⟩ | ⟨absent, e⟩
    · have skipped : missing s.rob (k :: ks) = missing s.rob ks :=
        List.filter_cons_of_neg (by simp [present])
      rw [e, skipped]
      exact ih nodup rise
    · have first : missing s.rob (k :: ks) = k :: missing s.rob ks :=
        List.filter_cons_of_pos (by simp [absent])
      have rob : (placeholder s k).rob = mapInsert RobEntry.seq ⟨k, false, []⟩ s.rob := by rw [e]
      rw [first]
      refine Awaits.cons rise absent (fun mem => fresh (List.mem_of_mem_filter mem)) ?_
      have later := ih nodup (s := placeholder s k) (by rw [rob]; exact rise.mapInsert _)
      rwa [rob, missing_mapInsert rise fresh] at later

/-! ## Ahead -/

/-- The numbers from NE up to a PDU's own, each once. -/
theorem nodup_seqRange (a b : Seq) : (seqRange a b).Nodup := by
  refine List.nodup_range.map_on fun i hi j hj e => ?_
  have := seqDist_lt a b
  have := List.mem_range.1 hi
  have := List.mem_range.1 hj
  have e := congrArg BitVec.toNat (add_left_cancel e)
  rw [BitVec.toNat_ofNat, BitVec.toNat_ofNat] at e
  omega

theorem missing_seqRange (rob : List RobEntry) (a b : Seq) :
    missing rob (seqRange a b) = (List.range (seqDist a b)).filterMap (fun i =>
      if (mapFind RobEntry.seq (a + BitVec.ofNat 8 i) rob).isSome then none else some (a + BitVec.ofNat 8 i)) := by
  rw [missing, seqRange]
  induction List.range (seqDist a b) with
  | nil => rfl
  | cons i is ih =>
    rw [List.map_cons, List.filter_cons, ih, List.filterMap_cons]
    cases (mapFind RobEntry.seq (a + BitVec.ofNat 8 i) rob).isSome <;> rfl

/-- What storing the PDU writes: its entry, and where that fills a placeholder, the end of its timer (R342). -/
theorem storeAhead_frame (q : Seq) (recs : List FragRec) (s : State) : storeAhead q recs s = { s with
    rob := mapInsert RobEntry.seq ⟨q, true, recs⟩ s.rob
    tmr := if (mapFind RobEntry.seq q s.rob).isSome then s.tmr.filter (fun u => !u.guards .rxw q) else s.tmr } := by
  unfold storeAhead
  split <;> rfl

/-- A PDU not yet received is stored, and the numbers missing from NE to it are awaited (R342). -/
theorem ahead_awaits {q : Seq} {s : State} (recs : List FragRec) (rise : KeysRise RobEntry.seq s.rob)
    (new : ∀ e, mapFind RobEntry.seq q s.rob = some e → e.received = false) :
    Awaits (missing s.rob (seqRange s.ne q)) (storeAhead q recs s) (ahead q recs s) := by
  have own : q ∉ seqRange s.ne q := fun mem => Nat.lt_irrefl _ (mem_seqRange.1 mem)
  have stores := storeAhead_frame q recs s
  have rob : (storeAhead q recs s).rob = mapInsert RobEntry.seq ⟨q, true, recs⟩ s.rob := by rw [stores]
  rcases ahead_cases q recs s with ⟨⟨e, found, received⟩, -⟩ | ⟨-, e⟩
  · simp [new e found] at received
  · have awaits := placeholders_await (nodup_seqRange s.ne q) (s := storeAhead q recs s) (by rw [rob]; exact rise.mapInsert _)
    rwa [rob, missing_mapInsert rise own, ← e] at awaits

/-- Settles O33: what is stored is the PDU's entry, and what follows are the placeholders of the gap. -/
theorem pdusAheadAreStoredAndTheGapAwaited : Obligations.PdusAheadAreStoredAndTheGapAwaited := by
  intro q recs s legal pos near t gap
  have rise := (receiverLegal_iff.1 legal).1.rise
  have numbers : missing s.rob (seqRange s.ne q) = gap := missing_seqRange s.rob s.ne q
  refine ⟨fun ⟨e, found, received⟩ => ?dup, fun new => ?_⟩
  case dup =>
    rcases ahead_cases q recs s with ⟨-, duplicate⟩ | ⟨new, -⟩
    · exact duplicate
    · simp [new e found] at received
  have own : q ∉ gap := fun mem =>
    Nat.lt_irrefl _ (mem_seqRange.1 (List.mem_of_mem_filter (numbers ▸ mem)))
  obtain ⟨lookup, timers, rest⟩ := numbers ▸ ahead_awaits recs rise new
  rw [storeAhead_frame] at lookup timers rest
  refine ⟨?stored, fun k other => ?others, fun unguarded => timers ?armed, rest⟩
  case stored => rw [lookup, if_neg own, mapFind_mapInsert rise, if_pos rfl]
  case others => rw [lookup, mapFind_mapInsert rise, if_neg other.symm]
  case armed =>
    intro u hu kind
    refine unguarded u ?_ kind
    dsimp only at hu
    split at hu
    · exact List.mem_of_mem_filter hu
    · exact hu

end Sys2Proof.Machine
end

section
/-! PROOFS. ARQ (44_arq.md): without loss each opportunity's PDU is acknowledged, delivered in order and released (R346). The link
of R276 holds for the frame in the PDU; the ACK finds the PDU in TXD. -/

namespace Sys2Proof.Machine

/-! ## The sender -/

/-- Where a number is available it is not in flight (R301). -/
theorem seqNext_notMem_numbers {s : State} (sender : SenderLegal s) (bounds : ArqCfgBounds s.cfg)
    (available : s.available = true) : s.seqNext ∉ s.numbers := by
  obtain ⟨-, numbers, -⟩ := senderLegal_iff.1 sender
  obtain ⟨nodup, -⟩ := numbers.cons_next bounds available
  exact (List.nodup_cons.1 nodup).1

section

variable {α : Type} {key : α → Seq}

/-- Removing a key that no entry has changes nothing. -/
theorem mapErase_of_absent {k : Seq} {l : List α} (absent : ∀ b ∈ l, key b ≠ k) : mapErase key k l = l :=
  List.filter_eq_self.2 fun b hb => by simpa using absent b hb

/-- Removing a key just inserted gives the old map back. -/
theorem mapErase_mapInsert {a : α} {l : List α} (fresh : ∀ b ∈ l, key b ≠ key a) :
    mapErase key (key a) (mapInsert key a l) = l := by
  have erased : ∀ {l : List α}, (∀ b ∈ l, key b ≠ key a) → mapErase key (key a) (a :: l) = l := fun absent =>
    (List.filter_cons_of_neg (by simp)).trans (mapErase_of_absent absent)
  induction l with
  | nil => exact erased fresh
  | cons b l ih =>
    obtain ⟨hb, hl⟩ := List.forall_mem_cons.1 fresh
    simp only [mapInsert]
    split
    · exact erased fresh
    · rw [if_neg hb.symm]
      exact (List.filter_cons_of_pos (by simpa using hb)).trans (congrArg (b :: ·) (ih hl))

end

/-- An ARQ TXOPP that answers a PDU with nothing to resend is new data: BuildFrame's frame for one byte less, under the next number,
in TXD (R311). -/
theorem exec_txoppArq_sent {b : BitVec 32} {pdu : Bytes} {left : Reg64} {a a1 : State} (hconf : a.configured = true)
    (hfatal : a.fatal = false) (arq : a.arq = true) (idle : a.rtxq = []) (ran : exec (.txoppArq b) a = .next a1)
    (sent : a1.out = a.out ++ [.frameOut true pdu left, .resp .ok 0]) :
    ∃ f s, a.available = true ∧ a.buildFrame (b.toNat - 1) = some (f, s) ∧ pdu = a.seqNext :: f ∧
      SameSetting a a1 ∧ a1.txq = s.txq ∧ a1.seqNext = a.seqNext + 1 ∧
      a1.txd = mapInsert ArqCtx.seq ⟨a.seqNext, pdu, 0⟩ a.txd ∧ a1.rtxq = [] := by
  obtain ⟨-, new⟩ := arqTxoppResendsFirstThenSendsNew b a hconf hfatal arq
  obtain ⟨built, null⟩ := new (by simp [idle])
  rcases txoppArqRule_cases b.toNat a with ⟨c, rest, waiting, -⟩ | ⟨-, available, pos, f, s, frame, -⟩ | ⟨-, nothing, -⟩
  · simp [idle] at waiting
  · cases (built f s available pos frame).symm.trans ran
    obtain ⟨same, -⟩ : a.seqNext :: f = pdu ∧ _ = left := by simpa using sent
    exact ⟨f, s, available, frame, same.symm, ⟨rfl, rfl, rfl, rfl⟩, rfl, rfl, by rw [same], idle⟩
  · cases (null (by simpa using nothing)).symm.trans ran
    simp at sent

/-- The ACK of the one number just sent gives the sender's buffers back (R330, R331). -/
theorem exec_rxack_releases {q : Seq} {s : State} (hconf : s.configured = true) (hfatal : s.fatal = false) (arq : s.arq = true)
    (inTxd : ∃ c ∈ s.txd, c.seq = q) : ∃ t, exec (.rxack q s.cfg.flowId) s = .next t ∧
      t.out = s.out ++ [.resp .ok 1] ∧ t.txd = mapErase ArqCtx.seq q s.txd ∧ t.rtxq = s.rtxq := by
  refine ⟨_, rxackReleasesOrIgnores q s.cfg.flowId s hconf hfatal, ?_⟩
  rw [if_pos ⟨arq, rfl, inTxd⟩]
  exact ⟨rfl, rfl, rfl⟩

/-! ## The receiver -/

/-- With ROB empty InOrder is the reassembly of the records and the next NE (R341, R344). -/
theorem inOrder_of_empty {s : State} (empty : s.rob = []) (recs : List FragRec) :
    inOrder recs s = { s.reassembleAll recs with ne := s.ne + 1 } := by
  have absent : ∀ k, mapFind RobEntry.seq k s.rob = none := fun k => by rw [empty]; rfl
  have drains : inOrder recs s = State.drain { s.reassembleAll recs with ne := s.ne + 1 } := by
    simp [inOrder, absent]
  rw [drains]
  exact State.drain_of_none _ (by simp [absent])

/-- An ARQ RXFRM of the PDU expected, with ROB empty (R340, R341). -/
theorem exec_rxfrmArq_inOrder {s : State} {frame : Bytes} {recs : List FragRec} (hconf : s.configured = true)
    (hfatal : s.fatal = false) (arq : s.arq = true) (empty : s.rob = []) (parsed : parseFrame s.family frame = some recs) :
    exec (.rxfrmArq (s.ne :: frame)) s = .next
      (({ (acknowledge s.ne s).reassembleAll recs with ne := s.ne + 1 } : State).respond .ok 0) := by
  rw [exec_rxfrmArq hconf hfatal arq, rxfrmArqRule_inOrder parsed, inOrder_of_empty (s := acknowledge s.ne s) empty]
  rfl

/-! ## Both -/

/-- Settles O28: the PDU is BuildFrame's frame under the number expected, so its records deliver what BuildFrame takes off the
queue, and its ACK takes the one context sent back out of TXD. -/
theorem losslessArqOpportunityDeliversAndIsReleased : Obligations.LosslessArqOpportunityDeliversAndIsReleased := by
  intro b pdu left a a1 r hconf hfatal arq cfgLegal legal sender idle hconf' hfatal' arq' hfamily hflow hne empty linked ran sent
  have valid := cfgLegal hconf
  obtain ⟨f, s, available, built, rfl, ⟨cfg, -, status, -⟩, txq, next, txd, rtxq⟩ :=
    exec_txoppArq_sent hconf hfatal arq idle ran sent
  obtain ⟨recs, parsed, delivers⟩ :=
    State.buildFrame_delivers (r := acknowledge a.seqNext r) valid legal built linked
  rw [← hfamily] at parsed
  obtain ⟨ps, out, owes⟩ := delivers.packets
  have fresh : ∀ c ∈ a.txd, c.seq ≠ a.seqNext := fun c hc same =>
    seqNext_notMem_numbers sender (arqCfgBounds_of_valid valid arq) available
      (List.mem_append_left _ (same ▸ List.mem_map_of_mem hc))
  have inTxd : ∃ c ∈ a1.txd, c.seq = a.seqNext := by
    rw [txd]
    exact ⟨_, (mem_mapInsert (senderLegal_iff.1 sender).1).2 (.inl rfl), rfl⟩
  obtain ⟨a2, acked, answered, released, kept⟩ := exec_rxack_releases (s := a1) (by rwa [State.configured, status])
    (by rwa [State.fatal, status]) (by rwa [State.arq, cfg]) inTxd
  have received := exec_rxfrmArq_inOrder hconf' hfatal' arq' empty parsed
  rw [hne] at received
  refine ⟨_, a2, ps, received, ?out, ?owed, ?linked, ?ne, ?rob, delivers.defects, ?acked, answered, ?txd, kept.trans rtxq⟩
  case out =>
    rw [State.respond_out]
    change (State.reassembleAll recs (acknowledge a.seqNext r)).out ++ _ = _
    rw [out, acknowledge_out]
  case owed =>
    rw [owed_eq, owed_eq, txq]
    exact owes
  case linked =>
    rw [linked_iff, txq]
    exact delivers.linked
  case ne => exact next.symm
  case rob => exact (State.reassembleAll_rob recs (acknowledge a.seqNext r)).trans empty
  case acked => rwa [hflow, ← cfg]
  case txd =>
    rw [released, txd]
    exact mapErase_mapInsert (a := (⟨a.seqNext, a.seqNext :: f, 0⟩ : ArqCtx)) fresh

end Sys2Proof.Machine
end

section
/-! PROOFS. System (45_system.md): TICK's loops and what they fire (R375, R423). -/

namespace Sys2Proof.Machine

/-! ## TICK in CONFIGURED -/

/-- Within virtual time a running block completes TICK with the response OK 0 after its ticks (R375). -/
theorem exec_tick {n : BitVec 32} {s : State} (hconf : s.configured = true) (hfatal : s.fatal = false)
    (inTime : s.now.toNat + n.toNat < 2 ^ 64) : exec (.tick n) s = .next ((ticks n.toNat s).respond .ok 0) := by
  change execTick n s = _
  rcases execTick_cases n s with ⟨-, late, -⟩ | ⟨-, e⟩
  · exact absurd inTime (Nat.not_lt.2 late)
  · rw [e]
    simp [runCommand, hconf, hfatal, tickRule, finish]

theorem toNat_now_add {s : State} {n : Nat} (inTime : s.now.toNat + n < 2 ^ 64) :
    (s.now + BitVec.ofNat 64 n).toNat = s.now.toNat + n := by
  rw [BitVec.toNat_add, BitVec.toNat_ofNat, Nat.add_mod_mod, Nat.mod_eq_of_lt inTime]

theorem ticks_now_toNat {s : State} {n : Nat} (inTime : s.now.toNat + n < 2 ^ 64) :
    (ticks n s).now.toNat = s.now.toNat + n := by
  rw [ticks_now, toNat_now_add inTime]

/-! ## The firing loop -/

theorem State.fireDue_eq_self {s : State} (h : ∀ u ∈ s.tmr, s.now.toNat < u.deadline) : s.fireDue = s := by
  unfold State.fireDue
  cases s.tmr.length with
  | zero => rfl
  | succ n =>
    rcases fireUpTo_succ n s with ⟨e, -⟩ | ⟨t, ht, due, -⟩
    · exact e
    · exact absurd (h t ht) (Nat.not_lt.2 due)

/-- The next to fire is removed and its handler run; what it left due fires after it (R423). -/
theorem State.fireDue_earliest {s : State} {t : Timer} (first : earliest s.tmr = some t) (due : t.deadline ≤ s.now.toNat) :
    s.fireDue = State.fireDue (expire t { s with tmr := s.tmr.filter (fun v => v != t) }) := by
  have fewer : (s.tmr.filter (fun v => v != t)).length < s.tmr.length :=
    List.length_filter_lt_length_iff_exists.2 ⟨t, (earliest_spec first).1, by simp⟩
  obtain ⟨n, hn⟩ := Nat.exists_eq_add_one_of_ne_zero (Nat.ne_zero_of_lt fewer)
  have turn : s.fireDue = fireUpTo n (expire t { s with tmr := s.tmr.filter (fun v => v != t) }) := by
    simp [State.fireDue, hn, fireUpTo, first, due]
  rw [turn]
  exact fireUpTo_enough _ _ _ (by rw [expire_tmr]; exact Nat.le_of_lt_succ (fewer.trans_eq hn)) le_rfl

/-- No timer comes before the earliest (R423). -/
theorem earliest_le {l : List Timer} {t : Timer} (first : earliest l = some t) :
    ∀ v ∈ l, t.deadline < v.deadline ∨ t.deadline = v.deadline ∧ t.stamp ≤ v.stamp := by
  intro v hv
  have notBefore := (earliest_spec first).2 v hv
  simp only [Timer.before_iff, Bool.eq_false_iff, ne_eq] at notBefore
  omega

/-- As long as a timer is due, the earliest is one (R375). -/
theorem exists_earliest_due {s : State} {u : Timer} (hu : u ∈ s.tmr) (due : u.deadline ≤ s.now.toNat) :
    ∃ t, earliest s.tmr = some t ∧ t.deadline ≤ s.now.toNat := by
  cases first : earliest s.tmr with
  | none => rw [earliest_eq_none.1 first] at hu; cases hu
  | some t =>
    refine ⟨t, rfl, ?_⟩
    have := earliest_le first u hu
    omega

/-- The firing loop keeps what is not due: a firing removes one due timer and arms none (R375). -/
theorem State.fireDue_tmr_filter (s : State) {p : Timer → Bool} (hp : ∀ t, t.deadline ≤ s.now.toNat → p t = false) :
    s.fireDue.tmr.filter p = s.tmr.filter p := by
  have kept : s.fireDue.now = s.now ∧ s.fireDue.tmr.filter p = s.tmr.filter p := by
    refine State.fireDue_induct (P := fun r => r.now = s.now ∧ r.tmr.filter p = s.tmr.filter p) ?_ ⟨rfl, rfl⟩
    rintro r t - due - ⟨now, same⟩
    rw [now] at due
    refine ⟨by rw [expire_now, now], ?_⟩
    rw [expire_tmr, List.filter_filter, ← same]
    refine List.filter_congr fun u _ => ?_
    by_cases fired : u = t
    · simp [fired, hp t due]
    · simp [fired]
  exact kept.2

/-- What the firing loop leaves in TMR is what is not due. -/
theorem State.fireDue_tmr (s : State) : s.fireDue.tmr = s.tmr.filter (fun u => decide (s.now.toNat < u.deadline)) := by
  rw [← s.fireDue_tmr_filter fun t due => decide_eq_false (Nat.not_lt.2 due)]
  exact (List.filter_eq_self.2 fun u hu => decide_eq_true (s.fireDue_none_due u hu)).symm

/-! ## Several ticks -/

theorem ticks_succ_last (n : Nat) (s : State) : ticks (n + 1) s = (ticks n s).tickOnce := ticks_add n 1 s

theorem State.tickOnce_tmr (s : State) :
    s.tickOnce.tmr = s.tmr.filter (fun u => decide (s.tickOnce.now.toNat < u.deadline)) := by
  rw [State.tickOnce_now]
  exact State.fireDue_tmr _

theorem State.tickOnce_of_none_due {s : State} (h : ∀ t ∈ s.tmr, (s.now + 1).toNat < t.deadline) :
    s.tickOnce = { s with now := s.now + 1 } := State.fireDue_eq_self h

theorem ticks_of_none_due {s : State} {n : Nat} (inTime : s.now.toNat + n < 2 ^ 64)
    (h : ∀ t ∈ s.tmr, s.now.toNat + n < t.deadline) : ticks n s = { s with now := s.now + BitVec.ofNat 64 n } := by
  induction n with
  | zero => simp [ticks]
  | succ n ih =>
    have next : s.now + BitVec.ofNat 64 n + 1 = s.now + BitVec.ofNat 64 (n + 1) := by
      rw [BitVec.add_assoc, BitVec.ofNat_add]
      rfl
    rw [ticks_succ_last, ih (by omega) fun t ht => (Nat.lt_succ_self _).trans (h t ht), State.tickOnce_of_none_due]
    · dsimp only
      rw [next]
    · dsimp only
      rw [next, toNat_now_add inTime]
      exact h

/-- The ticks remove exactly the timers whose deadline they reach. -/
theorem ticks_tmr {s : State} {n : Nat} (inTime : s.now.toNat + n < 2 ^ 64) (h : ∀ t ∈ s.tmr, s.now.toNat < t.deadline) :
    (ticks n s).tmr = s.tmr.filter (fun u => decide (s.now.toNat + n < u.deadline)) := by
  induction n with
  | zero => exact (List.filter_eq_self.2 fun t ht => decide_eq_true (h t ht)).symm
  | succ n ih =>
    rw [ticks_succ_last, State.tickOnce_tmr, ← ticks_succ_last, ticks_now_toNat inTime, ih (by omega), List.filter_filter]
    refine List.filter_congr fun u _ => ?_
    rw [← Bool.decide_and]
    exact decide_eq_decide.2 (by omega)

/-! ## The obligations on TICK -/

/-- Settles O39: without a due timer no tick fires anything. -/
theorem ticksThatReachNoDeadlineOnlyAdvanceTime : Obligations.TicksThatReachNoDeadlineOnlyAdvanceTime := by
  intro n s hconf hfatal inTime
  rw [exec_tick hconf hfatal inTime]
  refine ⟨?_, fun noneDue => ?_⟩
  · rintro rfl
    rfl
  · rw [ticks_of_none_due inTime noneDue, BitVec.ofNat_toNat]
    rfl

/-- Settles O40: each tick removes the timers it makes due, and no handler touches what else is named. -/
theorem ticksFireEveryDueTimer : Obligations.TicksFireEveryDueTimer := fun n s hconf hfatal inTime noneDue =>
  ⟨_, exec_tick hconf hfatal inTime, ticks_now_toNat inTime, ticks_tmr inTime noneDue, ticks_stampNext n.toNat s,
    ticks_txq n.toNat s, ticks_cfg n.toNat s, ticks_status n.toNat s⟩

/-- A TICK of several ticks is those ticks one after another (R375). -/
theorem exec_tick_add {m n : BitVec 32} {s : State} (hconf : s.configured = true) (hfatal : s.fatal = false)
    (fits : m.toNat + n.toNat < 2 ^ 32) (inTime : s.now.toNat + m.toNat + n.toNat < 2 ^ 64) :
    exec (.tick (m + n)) s = exec (.tick n) (ticks m.toNat s) := by
  have sum : (m + n).toNat = m.toNat + n.toNat := BitVec.toNat_add_of_lt fits
  have now := ticks_now_toNat (s := s) (n := m.toNat) (by omega)
  rw [exec_tick hconf hfatal (by omega), sum, ticks_add, exec_tick]
  · rwa [State.configured, ticks_status]
  · rwa [State.fatal, ticks_status]
  · omega

/-- Settles O41: one tick and the sum of two TICKs by the recursion of `ticks`, and the firing loop by its earliest timer. -/
theorem ticksFireInDeadlineOrder : Obligations.TicksFireInDeadlineOrder := by
  refine ⟨fun s hconf hfatal inTime => ⟨_, rfl, exec_tick (n := 1) hconf hfatal inTime⟩, ?_,
    fun s => ⟨State.fireDue_eq_self, ?_⟩⟩
  · intro m n s hconf hfatal fits inTime
    have second := exec_tick_add hconf hfatal fits inTime
    have whole := exec_tick (n := m + n) hconf hfatal (by rw [BitVec.toNat_add_of_lt fits]; omega)
    exact ⟨_, _, exec_tick hconf hfatal (by omega), second.symm.trans whole, whole⟩
  · intro u hu due
    obtain ⟨t, first, firstDue⟩ := exists_earliest_due hu due
    refine ⟨t, (earliest_spec first).1, firstDue, earliest_le first, ?_⟩
    rw [State.fireDue_earliest first firstDue, expire]
    cases t.kind <;> rfl

end Sys2Proof.Machine
end

section
/-! PROOFS. System (45_system.md): the reserved opcodes (R385), RESET's range checks (R370, R371) and the register map (R380). -/

namespace Sys2Proof.Machine

/-! ## Reserved opcodes -/

/-- Every reserved row runs its bytes as an illegal command (R385). -/
theorem exec_of_reservedBytes {i : Instr} {c : Bytes} (hbytes : i.reservedBytes = some c) (s : State) :
    exec i s = .next (illegalCommand c s) := by
  cases i with
  | reserved00 | reserved07 | reserved08 | reserved0C | reserved0E | reserved10 | reserved20 | reserved40 | reserved80 =>
    cases hbytes; rfl
  | _ => cases hbytes

theorem not_definedOpcode_of_reservedBytes {i : Instr} {c : Bytes} (hbytes : i.reservedBytes = some c) (hwf : i.wf = true) :
    definedOpcode (opcodeOf c) = false := by
  have row := decodeReserved_eq_some.2 ⟨hbytes, hwf⟩
  refine Bool.eq_false_iff.2 fun defined => ?_
  cases row.symm.trans (decodeReserved_eq_none.2 defined)

/-- Settles O4: the row's bytes are an illegal command, and its opcode is none R91 defines, so bit 8 of ERR_INFO is clear. -/
theorem reservedOpcodesAreIllegal : Obligations.ReservedOpcodesAreIllegal := by
  intro i c s hbytes hwf
  rw [exec_of_reservedBytes hbytes]
  rcases illegalCommand_cases c s with ⟨hfatal, e⟩ | ⟨hfatal, e⟩ <;> rw [e]
  · exact ⟨fun _ => rfl, fun running => absurd (hfatal.symm.trans running) (by decide)⟩
  · refine ⟨fun fatal => absurd (hfatal.symm.trans fatal) (by decide), fun _ => ⟨illegalInfo c, ?_, rfl⟩⟩
    rw [illegalInfo_toNat, not_definedOpcode_of_reservedBytes hbytes hwf, Bool.toNat_false, Nat.zero_mul, Nat.add_zero,
      opcodeOf]

/-! ## RESET -/

/-- The fields with a range to check (R10), those that apply to the variant, in field order (R370). -/
def checkedFields (v : BitVec 8) : List Nat := [1, 3, 4, 5, 6, 7, 8, 9, 10].filter (fun i => cfgFieldApplies i v)

theorem checkedFields_eq (v : BitVec 8) :
    checkedFields v = [1] ++ (if v = 1 ∨ v = 3 then [3, 4, 5, 6, 7, 8] else []) ++ [9] ++
      (if v = 2 ∨ v = 3 then [10] else []) := by
  by_cases arq : v = 1#8 ∨ v = 3#8 <;> by_cases gse : v = 2#8 ∨ v = 3#8 <;>
    simp [checkedFields, cfgFieldApplies, arq, gse]

/-- Fields 2 and 11 have no range (R10), so the others decide which field is reported. -/
theorem cfgFirstBad_eq_find? (c : CfgBlock) :
    cfgFirstBad c = (checkedFields c.variant).find? (fun i => !cfgFieldInRange i c) := by
  have free : ∀ i ∈ [2, 11], cfgFieldBad c i = false := by simp [cfgFieldBad, cfgFieldInRange]
  have ranged : [1, 3, 4, 5, 6, 7, 8, 9, 10] = [1, 2, 3, 4, 5, 6, 7, 8, 9, 10, 11].filter (· ∉ [2, 11]) := by decide
  rw [checkedFields, List.find?_filter, ranged, List.find?_filter, cfgFirstBad]
  congr 1
  funext i
  by_cases h : i ∈ [2, 11]
  · simp [h, free i h]
  · simp [h, cfgFieldBad]

/-- Settles O2: the checks are those of the checked fields, so the first that fails is the field RESET reports. -/
theorem resetAcceptsExactlyTheLegalRanges : Obligations.ResetAcceptsExactlyTheLegalRanges := by
  intro s c arqOk gseOk checks
  have listed : checks = (checkedFields c.variant).map (fun i => (i, cfgFieldInRange i c)) := by
    rw [checkedFields_eq]
    dsimp only [checks, arqOk, gseOk]
    split_ifs <;> rfl
  have found : checks.find? (fun k => !k.2) = (cfgFirstBad c).map (fun i => (i, cfgFieldInRange i c)) := by
    rw [listed, List.find?_map, cfgFirstBad_eq_find?]
    rfl
  change execReset c s = _
  rw [found]
  rcases execReset_cases c s with ⟨bad, e⟩ | ⟨i, bad, e⟩ <;> rw [bad, e] <;> rfl

/-! ## The packed registers -/

/-- RA_STATE field by field (R40). -/
theorem State.raState_eq (s : State) : s.raState = BitVec.ofNat 64
    (s.raActive.toNat + s.raFid.toNat * 2 ^ 8 + s.raTotal.toNat * 2 ^ 16 + s.raBuf.length % 2 ^ 32 * 2 ^ 32) := by
  apply BitVec.eq_of_toNat_eq
  have := s.raActive.toNat_le
  simp only [State.raState, toNat_append_eq, BitVec.toNat_ofNat, BitVec.toNat_ofBool]
  omega

/-- ARQ_TX_STATE field by field (R40). -/
theorem State.arqTxState_eq (s : State) : s.arqTxState = BitVec.ofNat 64
    (s.seqNext.toNat + s.inflight.length % 2 ^ 8 * 2 ^ 8 + s.txd.length % 2 ^ 8 * 2 ^ 16 +
      s.rtxq.length % 2 ^ 8 * 2 ^ 24) := by
  apply BitVec.eq_of_toNat_eq
  simp only [State.arqTxState, toNat_append_eq, BitVec.toNat_ofNat]
  omega

/-- ARQ_RX_STATE field by field (R40). -/
theorem State.arqRxState_eq (s : State) : s.arqRxState = BitVec.ofNat 64
    (s.ne.toNat + s.rob.length % 2 ^ 8 * 2 ^ 8 + (s.rob.filter (fun e => !e.received)).length % 2 ^ 8 * 2 ^ 16) := by
  apply BitVec.eq_of_toNat_eq
  simp only [State.arqRxState, toNat_append_eq, BitVec.toNat_ofNat, List.countP_eq_length_filter]
  omega

/-! ## The register map -/

theorem exec_rdreg (idx : BitVec 8) (s : State) : exec (.rdreg idx) s = .next (s.respond .ok (s.readReg idx)) := rfl

theorem State.readReg_of_listed {s : State} {idx : BitVec 8} {i : Nat} {v : Reg64} (hi : idx.toNat = i)
    (listed : (registers s).lookup i = some v) : s.readReg idx = v := by
  rw [State.readReg, hi, listed]
  rfl

/-- A reserved index reads 0 (R41). -/
theorem State.readReg_of_unlisted {s : State} {idx : BitVec 8} (unlisted : ∀ r ∈ registers s, idx.toNat ≠ r.1) :
    s.readReg idx = 0 := by
  have absent : (registers s).lookup idx.toNat = none := List.lookup_eq_none_iff.2 fun r hr => bne_iff_ne.2 (unlisted r hr)
  rw [State.readReg, absent]
  rfl

/-- Settles O43: each index of the map finds its own entry, every other finds none. -/
theorem rdregReadsTheRegisterMap : Obligations.RdregReadsTheRegisterMap := by
  intro s idx
  rw [exec_rdreg]
  refine congrArg (fun v => Host.Outcome.next (s.respond .ok v)) ?_
  split
  case h_20 raState => exact (State.readReg_of_listed raState rfl).trans s.raState_eq
  case h_21 arqTxState => exact (State.readReg_of_listed arqTxState rfl).trans s.arqTxState_eq
  case h_22 arqRxState => exact (State.readReg_of_listed arqRxState rfl).trans s.arqRxState_eq
  case h_41 =>
    refine State.readReg_of_unlisted ?_
    simp only [registers, List.forall_mem_cons, List.not_mem_nil, false_implies, implies_true, and_true]
    and_intros <;> assumption
  all_goals exact State.readReg_of_listed ‹_› rfl

end Sys2Proof.Machine
end

section
/-! PROOFS. Exceptions (60_exceptions.md): refusals (R412, R413), the entry into FATAL and what it leaves alone (R410, R414), FATAL
until RESET (R411, R415), and the block between commands (R433). -/

namespace Sys2Proof.Machine

/-! ## The kinds of instruction -/

/-- The cases of R413, with the wire units that are no command (R100). -/
theorem instr_cases (i : Instr) :
    i.needsConfig = true ∨ (∃ c, i.reservedBytes = some c) ∨ (∃ idx, i = .rdreg idx) ∨ i.isReset = true ∨
      i.isCommand = false := by
  cases i with
  | enq | txopp | txoppArq | rxfrm | rxfrmArq | rxack | tick => exact .inl rfl
  | reserved00 | reserved07 | reserved08 | reserved0C | reserved0E | reserved10 | reserved20 | reserved40 | reserved80 =>
    exact .inr (.inl ⟨_, rfl⟩)
  | rdreg idx => exact .inr (.inr (.inl ⟨idx, rfl⟩))
  | reset => exact .inr (.inr (.inr (.inl rfl)))
  | _ => exact .inr (.inr (.inr (.inr rfl)))

theorem State.running_eq_false {s : State} (h : s.fatal = true ∨ s.configured = false) : s.running = false := by
  rcases h with h | h <;> simp [State.running, h]

/-- The two states have one STATUS: what the rules of the five commands keep, since only RESET and fatal entry write it (R22). -/
def SameStatus (s t : State) : Prop := t.status = s.status

theorem SameStatus.fatal_eq {s t : State} (h : SameStatus s t) : t.fatal = s.fatal :=
  congrArg (fun status : Reg64 => status.getLsbD 1) h

theorem SameSetting.sameStatus {s t : State} (h : SameSetting s t) : SameStatus s t := by
  obtain ⟨-, -, status, -⟩ := h
  exact status

/-- Each of the five commands runs one rule through the pipeline of R413, unless a TICK that would run reaches the end of virtual
time (R17). -/
theorem exec_of_needsConfig {i : Instr} (hi : i.needsConfig = true) (s : State) :
    ∃ rule, (rule s).Ends (SameStatus s) ∧
      (exec i s = .next (runCommand rule s) ∨ s.running = true ∧ exec i s = .fault .virtualTimeExhausted) := by
  have keeps : ∀ {e : Effect}, e.Ends (SameSetting s) → e.Ends (SameStatus s) := fun h => h.imp fun _ => SameSetting.sameStatus
  cases i with
  | enq dest data => exact ⟨enqRule dest data, keeps (enqRule_sameSetting dest data s), .inl rfl⟩
  | txopp b | txoppArq b => exact ⟨txoppRule b, keeps (txoppRule_sameSetting b s), .inl rfl⟩
  | rxfrm f | rxfrmArq f => exact ⟨rxfrmRule f, keeps (rxfrmRule_sameSetting f s), .inl rfl⟩
  | rxack q flow => exact ⟨rxackRule q flow, keeps (rxackRule_sameSetting q flow s), .inl rfl⟩
  | tick n =>
    refine ⟨tickRule n.toNat, ticks_status n.toNat s, ?_⟩
    rcases execTick_cases n s with ⟨running, -, e⟩ | ⟨-, e⟩
    · exact .inr ⟨running, e⟩
    · exact .inl e
  | _ => cases hi

/-! ## Refusals -/

/-- Where the pipeline refuses, the rule of one of the five commands does not matter, nor does the end of virtual time (R413). -/
theorem exec_of_not_running {i : Instr} (hi : i.needsConfig = true) {s : State}
    (h : s.fatal = true ∨ s.configured = false) : ∃ rule, exec i s = .next (runCommand rule s) := by
  obtain ⟨rule, -, e | ⟨running, -⟩⟩ := exec_of_needsConfig hi s
  · exact ⟨rule, e⟩
  · cases running.symm.trans (State.running_eq_false h)

theorem exec_inFatal {i : Instr} (hi : i.needsConfig = true ∨ i.reservedBytes.isSome = true) {s : State}
    (hfatal : s.fatal = true) : exec i s = .next (s.refuse .inFatal) := by
  rcases hi with hi | hi
  · obtain ⟨rule, e⟩ := exec_of_not_running hi (.inl hfatal)
    rw [e, runCommand, if_pos hfatal]
  · obtain ⟨c, hbytes⟩ := Option.isSome_iff_exists.1 hi
    rw [exec_of_reservedBytes hbytes, illegalCommand, if_pos hfatal]

theorem exec_notConfigured {i : Instr} (hi : i.needsConfig = true) {s : State} (hfatal : s.fatal = false)
    (hconf : s.configured = false) : exec i s = .next (s.refuse .notConfigured) := by
  obtain ⟨rule, e⟩ := exec_of_not_running hi (.inr hconf)
  simp [e, runCommand, hfatal, hconf]

/-- A command the decoder rejects is executed as an illegal one (R99, R385). -/
theorem step_of_decode_error {s : State} {c : Bytes} {rest : List Bytes} {e : DecodeError} (hport : s.port = c :: rest)
    (hdecode : decode s.arq c = .error e) : step s = .next (illegalCommand c { s with port := rest }) := by
  rw [step, fetch_of_decode_error hport hdecode]
  rfl

/-- Settles O3: the pipeline, and an illegal command in FATAL, end in a refusal before any rule runs. -/
theorem refusedCommandsChangeNothing : Obligations.RefusedCommandsChangeNothing := by
  refine fun i s => ⟨fun hi hfatal => exec_inFatal hi hfatal, fun hi hfatal hconf => exec_notConfigured hi hfatal hconf,
    fun c rest e hport hdecode hfatal => ?_⟩
  have taken : ({ s with port := rest } : State).fatal = true := hfatal
  rw [step_of_decode_error hport hdecode, illegalCommand, if_pos taken]
  rfl

/-! ## Entry into FATAL -/

/-- From `s` to `t` STATUS is kept, or `t` is the fatal entry from `s` with its response (R410). -/
def KeepsStatusOrEntersFatal (s t : State) : Prop :=
  SameStatus s t ∨ ∃ c info, t = (s.enterFatal c info).respond c info

theorem finish_keepsStatusOrEntersFatal {s : State} {e : Effect} (h : e.Ends (SameStatus s)) :
    KeepsStatusOrEntersFatal s (finish s e) := by
  cases e with
  | done t v => exact .inl h
  | fatal c info => exact .inr ⟨c, info, rfl⟩

theorem runCommand_keepsStatusOrEntersFatal {rule : State → Effect} {s : State} (h : (rule s).Ends (SameStatus s)) :
    KeepsStatusOrEntersFatal s (runCommand rule s) := by
  rcases runCommand_cases rule s with ⟨-, e⟩ | ⟨-, -, e⟩ | ⟨-, -, e⟩ <;> rw [e]
  · exact .inl rfl
  · exact .inl rfl
  · exact finish_keepsStatusOrEntersFatal h

theorem illegalCommand_keepsStatusOrEntersFatal (c : Bytes) (s : State) :
    KeepsStatusOrEntersFatal s (illegalCommand c s) := by
  rcases illegalCommand_cases c s with ⟨-, e⟩ | ⟨-, e⟩ <;> rw [e]
  · exact .inl rfl
  · exact .inr ⟨_, _, rfl⟩

theorem exec_keepsStatusOrEntersFatal {i : Instr} {s t : State} (hreset : i.isReset = false) (hcommand : i.isCommand = true)
    (h : exec i s = .next t) : KeepsStatusOrEntersFatal s t := by
  rcases instr_cases i with hi | ⟨c, hbytes⟩ | ⟨idx, rfl⟩ | reset | unit
  · obtain ⟨rule, kept, e | ⟨-, e⟩⟩ := exec_of_needsConfig hi s <;> rw [e] at h <;> cases h
    exact runCommand_keepsStatusOrEntersFatal kept
  · rw [exec_of_reservedBytes hbytes] at h
    cases h
    exact illegalCommand_keepsStatusOrEntersFatal c s
  · cases h
    exact .inl rfl
  · cases hreset.symm.trans reset
  · cases hcommand.symm.trans unit

/-- Settles O6: FATAL is a bit of STATUS, which changes by fatal entry only, and fatal entry abandons the rule's writes. -/
theorem fatalEntryIsPrecise : Obligations.FatalEntryIsPrecise := by
  intro i s t hreset hcommand hfatal h entered
  rcases exec_keepsStatusOrEntersFatal hreset hcommand h with kept | ⟨c, info, e⟩
  · cases hfatal.symm.trans (kept.fatal_eq.symm.trans entered)
  · exact ⟨c, info, e⟩

/-! ## FATAL until RESET -/

/-- In FATAL an instruction other than RESET answers at most a record: a refusal, a register's value, or nothing for a wire
unit (R411, R415). -/
theorem exec_of_fatal {i : Instr} {s : State} (hfatal : s.fatal = true) (hreset : i.isReset = false) :
    exec i s = .next s ∨ ∃ code value, exec i s = .next (s.respond code value) := by
  rcases instr_cases i with hi | ⟨c, hbytes⟩ | ⟨idx, rfl⟩ | reset | unit
  · exact .inr ⟨_, _, exec_inFatal (.inl hi) hfatal⟩
  · exact .inr ⟨_, _, exec_inFatal (.inr (Option.isSome_iff_exists.2 ⟨c, hbytes⟩)) hfatal⟩
  · exact .inr ⟨_, _, exec_rdreg idx s⟩
  · cases hreset.symm.trans reset
  · exact .inl ((wireUnitsActOnlyInConfiguredAndNeverRespond i s unit).1 (.inl hfatal))

/-- Settles O7: neither of the two answers in FATAL touches STATUS or any other element of the state. -/
theorem fatalIsStickyUntilReset : Obligations.FatalIsStickyUntilReset := by
  intro i s t hfatal hreset h
  rcases exec_of_fatal hfatal hreset with e | ⟨code, value, e⟩ <;> rw [e] at h <;> cases h
  · exact ⟨hfatal, rfl⟩
  · exact ⟨hfatal, rfl⟩

/-! ## Between commands -/

theorem fetch_of_empty_port {s : State} (hport : s.port = []) : fetch s = .idle := by
  simp only [fetch, hport]

/-- Settles O45: an empty port offers nothing, and the step waits. -/
theorem anIdleBlockDoesNothing : Obligations.AnIdleBlockDoesNothing := by
  intro s hport
  rw [step, fetch_of_empty_port hport]
  rfl

end Sys2Proof.Machine
end
